-- ==== Sys2Proof/Word.lean ====
section
/-! DEFINITION. The word types of the machine and nothing that a test could show wrong: the widths of rules R8, R20
and R80 (a byte is 8, a word 16, a long 32 bits), the width of an address (R40), and a register number (R20, R21). -/

namespace Sys2Proof

/-- A byte: 8 bits (R8). -/
abbrev Byte := BitVec 8

/-- A word: 16 bits, the unit of instructions (R8, R80). -/
abbrev Word16 := BitVec 16

/-- A long: 32 bits, the width of every register (R8, R20, R21). -/
abbrev Word := BitVec 32

/-- An address: 32 bits, one byte each (R40). -/
abbrev Addr := BitVec 32

/-- The number of a data or address register: 0 to 7 (R20, R21). -/
abbrev Reg := Fin 8

end Sys2Proof
end

