-- ==== Sys2Proof/Syntax.lean ====
section
/-! DEFINITION. The abstract syntax: operand sizes, conditions, addressing modes and the instructions of the card, one
constructor of `Instr` for each row of spec/opcode_table.json, in the table's order of families. -/

namespace Sys2Proof

/-- Operand sizes B, W, L (R8). -/
inductive Size where
  | B | W | L
deriving DecidableEq, Repr

/-- The sixteen conditions of R31, named by their mnemonics. -/
inductive Cond where
  | T | F | HI | LS | CC | CS | NE | EQ | VC | VS | PL | MI | GE | LT | GT | LE
deriving DecidableEq, Repr

/-- The three scales of an index register (R84). -/
inductive Scale where
  | x1 | x2 | x4
deriving DecidableEq, Repr

/-- The index word of `(d8,An,Xi)` and `(d8,PC,Xi)` (R84), without the bits whose value R84 fixes. -/
structure IndexWord where
  /-- Bit 15, D/A: is Xi an address register? -/
  isAddr : Bool
  /-- Bits 14..12: the number of Xi. -/
  reg : Reg
  /-- Bits 10..9. -/
  scale : Scale
  /-- Bits 7..0: the signed displacement. -/
  d8 : BitVec 8
deriving DecidableEq, Repr

/-- The twelve effective addressing modes of R60, with their extension words (R85). -/
inductive Ea where
  /-- `Dn` -/
  | dn (r : Reg)
  /-- `An` -/
  | an (r : Reg)
  /-- `(An)` -/
  | ind (r : Reg)
  /-- `(An)+` -/
  | postinc (r : Reg)
  /-- `-(An)` -/
  | predec (r : Reg)
  /-- `(d16,An)` -/
  | disp (r : Reg) (d16 : BitVec 16)
  /-- `(d8,An,Xi)` -/
  | index (r : Reg) (x : IndexWord)
  /-- `(d16,PC)` -/
  | pcDisp (d16 : BitVec 16)
  /-- `(d8,PC,Xi)` -/
  | pcIndex (x : IndexWord)
  /-- `(xxx).W` -/
  | absW (a : BitVec 16)
  /-- `(xxx).L` -/
  | absL (a : BitVec 32)
  /-- `#<xxx>`: the immediate of R86, zero-extended from the operand's size to 32 bits. -/
  | imm (v : BitVec 32)
deriving DecidableEq, Repr

/-- The displacement of a branch (R88): 8 bits in the opword, or 16 bits in a second word. -/
inductive BranchDisp where
  | byte (d : BitVec 8)
  | word (d : BitVec 16)
deriving DecidableEq, Repr

/-- The instructions: one constructor for each row of spec/opcode_table.json. -/
inductive Instr where
  -- integer arithmetic (40_integer_arithmetic.md)
  /-- `ADD.L <ea>y,Dx` -/
  | addEaDn (ea : Ea) (r : Reg)
  /-- `ADD.L Dy,<ea>x` -/
  | addDnEa (r : Reg) (ea : Ea)
  /-- `ADDA.L <ea>y,Ax` -/
  | adda (ea : Ea) (r : Reg)
  /-- `ADDI.L #<data>,Dx` -/
  | addi (v : Word) (r : Reg)
  /-- `ADDQ.L #<data>,<ea>x`, the data as its 3-bit field (R87: 000 means 8) -/
  | addq (q : BitVec 3) (ea : Ea)
  /-- `ADDX.L Dy,Dx` -/
  | addx (y x : Reg)
  /-- `CMP.L <ea>y,Dx` -/
  | cmp (ea : Ea) (r : Reg)
  /-- `CMPA.L <ea>y,Ax` -/
  | cmpa (ea : Ea) (r : Reg)
  /-- `CMPI.L #<data>,Dx` -/
  | cmpi (v : Word) (r : Reg)
  /-- `NEG.L Dx` -/
  | neg (r : Reg)
  /-- `NEGX.L Dx` -/
  | negx (r : Reg)
  /-- `SUB.L <ea>y,Dx` -/
  | subEaDn (ea : Ea) (r : Reg)
  /-- `SUB.L Dy,<ea>x` -/
  | subDnEa (r : Reg) (ea : Ea)
  /-- `SUBA.L <ea>y,Ax` -/
  | suba (ea : Ea) (r : Reg)
  /-- `SUBI.L #<data>,Dx` -/
  | subi (v : Word) (r : Reg)
  /-- `SUBQ.L #<data>,<ea>x` -/
  | subq (q : BitVec 3) (ea : Ea)
  /-- `SUBX.L Dy,Dx` -/
  | subx (y x : Reg)
  -- logic (41_logical.md)
  /-- `AND.L <ea>y,Dx` -/
  | andEaDn (ea : Ea) (r : Reg)
  /-- `AND.L Dy,<ea>x` -/
  | andDnEa (r : Reg) (ea : Ea)
  /-- `ANDI.L #<data>,Dx` -/
  | andi (v : Word) (r : Reg)
  /-- `EOR.L Dy,<ea>x` -/
  | eor (r : Reg) (ea : Ea)
  /-- `EORI.L #<data>,Dx` -/
  | eori (v : Word) (r : Reg)
  /-- `NOT.L Dx` -/
  | notDn (r : Reg)
  /-- `OR.L <ea>y,Dx` -/
  | orEaDn (ea : Ea) (r : Reg)
  /-- `OR.L Dy,<ea>x` -/
  | orDnEa (r : Reg) (ea : Ea)
  /-- `ORI.L #<data>,Dx` -/
  | ori (v : Word) (r : Reg)
  -- shifts (42_shift.md); an immediate count as its 3-bit field (R87: 000 means 8)
  /-- `ASR.L #<data>,Dx` -/
  | asrImm (c : BitVec 3) (r : Reg)
  /-- `ASR.L Dy,Dx` -/
  | asrReg (y x : Reg)
  /-- `ASL.L #<data>,Dx` -/
  | aslImm (c : BitVec 3) (r : Reg)
  /-- `ASL.L Dy,Dx` -/
  | aslReg (y x : Reg)
  /-- `LSR.L #<data>,Dx` -/
  | lsrImm (c : BitVec 3) (r : Reg)
  /-- `LSR.L Dy,Dx` -/
  | lsrReg (y x : Reg)
  /-- `LSL.L #<data>,Dx` -/
  | lslImm (c : BitVec 3) (r : Reg)
  /-- `LSL.L Dy,Dx` -/
  | lslReg (y x : Reg)
  -- control transfer (43_control_transfer.md)
  /-- `BRA <label>` -/
  | bra (d : BranchDisp)
  /-- `BSR <label>` -/
  | bsr (d : BranchDisp)
  /-- `Bcc <label>` -/
  | bcc (cc : Cond) (d : BranchDisp)
  /-- `JMP <ea>y` -/
  | jmp (ea : Ea)
  /-- `JSR <ea>y` -/
  | jsr (ea : Ea)
  /-- `RTS` -/
  | rts
  -- bit manipulation (44_bit_manipulation.md)
  /-- `BTST Dy,<ea>x` -/
  | btstReg (y : Reg) (ea : Ea)
  /-- `BTST #<data>,<ea>x` -/
  | btstImm (n : BitVec 8) (ea : Ea)
  /-- `BCHG Dy,<ea>x` -/
  | bchgReg (y : Reg) (ea : Ea)
  /-- `BCHG #<data>,<ea>x` -/
  | bchgImm (n : BitVec 8) (ea : Ea)
  /-- `BCLR Dy,<ea>x` -/
  | bclrReg (y : Reg) (ea : Ea)
  /-- `BCLR #<data>,<ea>x` -/
  | bclrImm (n : BitVec 8) (ea : Ea)
  /-- `BSET Dy,<ea>x` -/
  | bsetReg (y : Reg) (ea : Ea)
  /-- `BSET #<data>,<ea>x` -/
  | bsetImm (n : BitVec 8) (ea : Ea)
  -- data movement, extension, test and set (45_data_movement.md)
  /-- `CLR.B <ea>x` -/
  | clrB (ea : Ea)
  /-- `CLR.W <ea>x` -/
  | clrW (ea : Ea)
  /-- `CLR.L <ea>x` -/
  | clrL (ea : Ea)
  /-- `EXT.W Dx` -/
  | extW (r : Reg)
  /-- `EXT.L Dx` -/
  | extL (r : Reg)
  /-- `EXTB.L Dx` -/
  | extbL (r : Reg)
  /-- `LEA <ea>y,Ax` -/
  | lea (ea : Ea) (r : Reg)
  /-- `LINK Ax,#<displacement>` -/
  | link (r : Reg) (d16 : BitVec 16)
  /-- `MOVE.B <ea>y,<ea>x` -/
  | moveB (src dst : Ea)
  /-- `MOVE.W <ea>y,<ea>x` -/
  | moveW (src dst : Ea)
  /-- `MOVE.L <ea>y,<ea>x` -/
  | moveL (src dst : Ea)
  /-- `MOVEA.W <ea>y,Ax` -/
  | moveaW (src : Ea) (r : Reg)
  /-- `MOVEA.L <ea>y,Ax` -/
  | moveaL (src : Ea) (r : Reg)
  /-- `MOVE.W CCR,Dx` -/
  | moveFromCcr (r : Reg)
  /-- `MOVE.W Dy,CCR`, `MOVE.W #<data>,CCR` -/
  | moveToCcr (src : Ea)
  /-- `MOVEM.L <list>,<ea>x` (registers to memory) -/
  | movemStore (mask : BitVec 16) (ea : Ea)
  /-- `MOVEM.L <ea>y,<list>` (memory to registers) -/
  | movemLoad (mask : BitVec 16) (ea : Ea)
  /-- `MOVEQ #<data>,Dx` -/
  | moveq (v : BitVec 8) (r : Reg)
  /-- `PEA <ea>y` -/
  | pea (ea : Ea)
  /-- `Scc Dx` -/
  | scc (cc : Cond) (r : Reg)
  /-- `SWAP Dx` -/
  | swap (r : Reg)
  /-- `TST.B <ea>y` -/
  | tstB (ea : Ea)
  /-- `TST.W <ea>y` -/
  | tstW (ea : Ea)
  /-- `TST.L <ea>y` -/
  | tstL (ea : Ea)
  /-- `UNLK Ax` -/
  | unlk (r : Reg)
  -- multiply, divide, remainder (46_multiply_divide.md)
  /-- `DIVS.W <ea>y,Dx` -/
  | divsW (ea : Ea) (r : Reg)
  /-- `DIVS.L <ea>y,Dx` -/
  | divsL (ea : Ea) (r : Reg)
  /-- `DIVU.W <ea>y,Dx` -/
  | divuW (ea : Ea) (r : Reg)
  /-- `DIVU.L <ea>y,Dx` -/
  | divuL (ea : Ea) (r : Reg)
  /-- `MULS.W <ea>y,Dx` -/
  | mulsW (ea : Ea) (r : Reg)
  /-- `MULS.L <ea>y,Dx` -/
  | mulsL (ea : Ea) (r : Reg)
  /-- `MULU.W <ea>y,Dx` -/
  | muluW (ea : Ea) (r : Reg)
  /-- `MULU.L <ea>y,Dx` -/
  | muluL (ea : Ea) (r : Reg)
  /-- `REMS.L <ea>y,Dw:Dx` -/
  | remsL (ea : Ea) (w x : Reg)
  /-- `REMU.L <ea>y,Dw:Dx` -/
  | remuL (ea : Ea) (w x : Reg)
  -- system (47_system.md)
  /-- `NOP` -/
  | nop
  /-- `TRAP #<vector>` -/
  | trap (v : BitVec 4)
deriving DecidableEq, Repr

end Sys2Proof
end

