-- ==== Sys2Proof/Machine/Modes.lean ====
section
/-! DEFINITION. What the encoding fixes about operands, kept where a repair can mend it: sizes in bytes, the kinds and
classes of addressing modes (R60, R68), the pairs of modes MOVE allows (R208), the number of extension words a mode
adds (R85, R86), which immediates fit a size, the numbering of the conditions (R31), the data of quick instructions
(R87). -/

namespace Sys2Proof

/-- `bytes(size)` of R13. -/
def Size.bytes : Size → Nat
  | .B => 1
  | .W => 2
  | .L => 4

/-- The low `bits(size)` bits of a value, the others zero (R13). -/
def Size.trunc (size : Size) (v : Word) : Word :=
  match size with
  | .B => (v.setWidth 8).setWidth 32
  | .W => (v.setWidth 16).setWidth 32
  | .L => v

/-- The low `bits(size)` bits of a value, sign-extended to 32 bits (`sext_32` of R13). -/
def Size.sext (size : Size) (v : Word) : Word :=
  match size with
  | .B => (v.setWidth 8).signExtend 32
  | .W => (v.setWidth 16).signExtend 32
  | .L => v

/-- The top bit of a size-wide value: bit 7, 15 or 31 (R26). -/
def Size.msb (size : Size) (v : Word) : Bool :=
  match size with
  | .B => v.getLsbD 7
  | .W => v.getLsbD 15
  | .L => v.getLsbD 31

/-- The twelve kinds of addressing mode (R60), without their operands. -/
inductive EaKind where
  | dn | an | ind | postinc | predec | disp | index | pcDisp | pcIndex | absW | absL | imm
deriving DecidableEq, Repr

/-- The kind of an operand. -/
def Ea.kind : Ea → EaKind
  | .dn _ => .dn
  | .an _ => .an
  | .ind _ => .ind
  | .postinc _ => .postinc
  | .predec _ => .predec
  | .disp _ _ => .disp
  | .index _ _ => .index
  | .pcDisp _ => .pcDisp
  | .pcIndex _ => .pcIndex
  | .absW _ => .absW
  | .absL _ => .absL
  | .imm _ => .imm

/-- The nine classes of modes of R68. -/
inductive EaClass where
  | all | data | alterable | dataAlterable | memoryAlterable | control | short | movem | ccrSource
deriving DecidableEq, Repr

/-- The modes of a class (R68). -/
def EaClass.allows (c : EaClass) (k : EaKind) : Bool :=
  match c with
  | .all => true
  | .data => k ≠ .an
  | .alterable => k ∈ [.dn, .an, .ind, .postinc, .predec, .disp, .index, .absW, .absL]
  | .dataAlterable => k ∈ [.dn, .ind, .postinc, .predec, .disp, .index, .absW, .absL]
  | .memoryAlterable => k ∈ [.ind, .postinc, .predec, .disp, .index, .absW, .absL]
  | .control => k ∈ [.ind, .disp, .index, .pcDisp, .pcIndex, .absW, .absL]
  | .short => k ∈ [.dn, .ind, .postinc, .predec, .disp]
  | .movem => k ∈ [.ind, .disp]
  | .ccrSource => k ∈ [.dn, .imm]

/-- The source modes of MOVE, MOVEA and TST at a size: all twelve, but never An for a byte (R68, R206, R218). -/
def sourceClass : Size → EaClass
  | .B => .data
  | .W => .all
  | .L => .all

/-- The "Restricted modes" table of R208: may a MOVE or MOVEA pair this source with this destination? The
destination `An` is MOVEA's. -/
def movePair (src dst : EaKind) : Bool :=
  match src with
  | .dn | .an | .ind | .postinc | .predec => EaClass.alterable.allows dst
  | .disp | .pcDisp => dst ∈ [.dn, .an, .ind, .postinc, .predec, .disp]
  | .index | .pcIndex | .absW | .absL | .imm => dst ∈ [.dn, .an, .ind, .postinc, .predec]

/-- How many extension words a mode adds to an instruction of an operand size (R85, R86). -/
def EaKind.extWords (size : Size) : EaKind → Nat
  | .dn | .an | .ind | .postinc | .predec => 0
  | .disp | .index | .pcDisp | .pcIndex | .absW => 1
  | .absL => 2
  | .imm => match size with
    | .B => 1
    | .W => 1
    | .L => 2

/-- How many extension words an operand adds (R85, R86). -/
def Ea.extWords (size : Size) (ea : Ea) : Nat := ea.kind.extWords size

/-- An immediate holds no more bits than its size; every other operand fits (R86). -/
def Ea.fits (size : Size) : Ea → Bool
  | .imm v => size.trunc v = v
  | _ => true

/-- An operand that an instruction of a mode class and an operand size may have. -/
def Ea.ok (c : EaClass) (size : Size) (ea : Ea) : Bool := c.allows ea.kind && ea.fits size

/-- The 4-bit encoding of a condition (R31, R89). -/
def Cond.toBits : Cond → BitVec 4
  | .T => 0 | .F => 1 | .HI => 2 | .LS => 3 | .CC => 4 | .CS => 5 | .NE => 6 | .EQ => 7
  | .VC => 8 | .VS => 9 | .PL => 10 | .MI => 11 | .GE => 12 | .LT => 13 | .GT => 14 | .LE => 15

/-- The condition a 4-bit field encodes (R31, R89). -/
def Cond.ofBits (b : BitVec 4) : Cond :=
  match b.toNat with
  | 0 => .T | 1 => .F | 2 => .HI | 3 => .LS | 4 => .CC | 5 => .CS | 6 => .NE | 7 => .EQ
  | 8 => .VC | 9 => .VS | 10 => .PL | 11 => .MI | 12 => .GE | 13 => .LT | 14 => .GT | _ => .LE

/-- The value of a quick field or an immediate shift count: 1 to 7, and 8 for 000 (R87). -/
def quickValue (q : BitVec 3) : Nat := if q = 0 then 8 else q.toNat

/-- Does a branch displacement have the form R88 gives it? A byte of 0x00 selects the word form, a byte of 0xFF is no
instruction of the card. -/
def BranchDisp.ok : BranchDisp → Bool
  | .byte d => d ≠ 0 && d ≠ 0xFF
  | .word _ => true

/-- How many words a branch displacement adds (R88). -/
def BranchDisp.extWords : BranchDisp → Nat
  | .byte _ => 0
  | .word _ => 1

/-- The signed displacement of a branch, in bytes (R88). -/
def BranchDisp.value : BranchDisp → Word
  | .byte d => d.signExtend 32
  | .word d => d.signExtend 32

end Sys2Proof
end

