-- ==== Sys2Proof/Config.lean ====
section
/-! DEFINITION. What an implementation fixes: the named parameters of R6 and the treatment of an undecoded word (R247), as
plain data that `State` carries and no step changes, so that every statement holds for every choice of them; and the
free values, constants without a body, for what the spec leaves without a value (log 7, log 17). -/

namespace Sys2Proof

/-- A range of addresses: `size` bytes from `base`. -/
structure Region where
  base : Nat
  size : Nat
deriving DecidableEq, Repr

/-- R6 `MisalignedData` (R42, D3). -/
inductive MisalignedData where
  | allow | fault
deriving DecidableEq, Repr

/-- R6 `TrapModel` (R246, R260, R264, R265, D8). -/
inductive TrapModel where
  | terminal | supervisor
deriving DecidableEq, Repr

/-- R6 `A7ByteStep` (R62, D41). -/
inductive A7ByteStep where
  | one | two
deriving DecidableEq, Repr

/-- R6 `DivOverflowNZ` (R230, D38). -/
inductive DivOverflowNZ where
  | cleared | any
deriving DecidableEq, Repr

/-- R6 `RemFlags` (R238, D39). -/
inductive RemFlags where
  | quotient | remainder
deriving DecidableEq, Repr

/-- The two treatments R247 gives a word that is no instruction of the card (D9). -/
inductive UndecodedWord where
  | refuse | illegalInstruction
deriving DecidableEq, Repr

/-- The parameters of R6, and the treatment of an undecoded word. -/
structure Config where
  /-- `Mapped`: the addresses that are ram; every other address is absent (R49). -/
  mapped : List Region
  /-- `CodeRegion`: the addresses of the program text (R54). -/
  codeRegion : List Region
  misalignedData : MisalignedData
  trapModel : TrapModel
  /-- `EntryPC` (R35, R291). -/
  entryPC : Addr
  /-- `InitialSP` (R35, R291). -/
  initialSP : Word
  a7ByteStep : A7ByteStep
  divOverflowNZ : DivOverflowNZ
  remFlags : RemFlags
  undecoded : UndecodedWord
deriving DecidableEq, Repr

/-- The recommended values of R6. Where R6 says "platform", the model's choice: ram is the first 16 MiB, which hold the
vector table at VBR 0, the entry point and the stack, and every other address is absent, as R270 and R271 have it for
the places of on-chip peripherals; the entry point and the stack pointer are those of the launch states of
95_test_vectors.md (DESIGN CHOICE, unsafe: log 3, log 6). No program is loaded, so the program text is empty. -/
def Config.recommended : Config where
  mapped := [⟨0, 2 ^ 24⟩]
  codeRegion := []
  misalignedData := .allow
  trapModel := .terminal
  entryPC := 0x00001000
  initialSP := 0x00008000
  a7ByteStep := .one
  divOverflowNZ := .cleared
  remFlags := .quotient
  undecoded := .refuse

/-- The configuration of the machine right after reset: the recommended one, with exceptions taken as R265 describes
them (DESIGN CHOICE, unsafe: log 8). -/
def Config.atReset : Config := { Config.recommended with trapModel := .supervisor }

/-- The free 32-bit values (R229, U11; the fault-status bits of R265): the n-th one drawn. Nothing constrains it
(log 17). -/
opaque Config.freeWord : Nat → Word

/-- The free choices (R229, R260, U10, U12): the n-th one drawn. Nothing constrains it (log 17). -/
opaque Config.freeBit : Nat → Bool

end Sys2Proof
end

