-- ==== Sys2Proof/Machine/State.lean ====
section
/-! DEFINITION. The state of the machine as plain data, its faults and refusals, the launch state of a configuration (R35,
R291) and the state right after reset. INVENTORY.md lists every field with its rule and its reset value. -/

namespace Sys2Proof.Machine

/-- The five flags of the condition code register (R25). Bits 7..5 of the CCR are hard-wired to zero. -/
structure Ccr where
  x : Bool
  n : Bool
  z : Bool
  v : Bool
  c : Bool
deriving DecidableEq, Repr

/-- The upper byte of the status register (R265): no instruction of the card reads or writes it (R32); an exception
that is taken saves and changes it. -/
structure SysByte where
  /-- Bit 15, T: trace enable. -/
  t : Bool
  /-- Bit 13, S: supervisor. -/
  s : Bool
  /-- Bit 12, M: master / interrupt state. -/
  m : Bool
  /-- Bits 10..8, I: interrupt priority mask. -/
  i : BitVec 3
deriving DecidableEq, Repr

/-- Memory: the listed bytes, addresses strictly rising, no byte listed that reads as an unlisted one does (R40, R51;
`Memory.wf`). -/
abbrev Memory := List Host.Cell

/-- What an access was for, as AccessError records it (R261). -/
inductive AccessKind where
  | fetch | read | write
deriving DecidableEq, Repr

/-- The exceptions of R261, each with the info it records. -/
inductive Exception where
  /-- An access touches a byte that is not mapped; the address is that of the access (R44 to R46, 90_conflicts.md C22). -/
  | accessError (kind : AccessKind) (addr : Addr)
  /-- An instruction is to be fetched at an odd pc (R43); a data access is misaligned and `MisalignedData = fault` (R42). -/
  | addressError (addr : Addr)
  /-- A word that is no instruction of the card, under its alternative treatment (R247). -/
  | illegalInstruction (opword : Word16)
  /-- The source of a divide or remainder is zero (R230 to R233, R238 to R240). -/
  | divideByZero
  /-- TRAP #n (R246). -/
  | trap (n : BitVec 4)
deriving DecidableEq, Repr

/-- The state of the machine. -/
structure State where
  /-- D0 to D7 (R20). -/
  d : Vector Word 8
  /-- A0 to A7; A7 is SP (R21, R23). -/
  a : Vector Word 8
  /-- The program counter (R24). -/
  pc : Addr
  /-- The condition code register (R25). -/
  ccr : Ccr
  /-- The upper byte of the status register (R265). -/
  sys : SysByte
  /-- The vector base register; its low 20 bits are zero (R265). -/
  vbr : Word
  /-- Memory (R40, R51). -/
  mem : Memory
  /-- The parameters of R6; no step changes them. -/
  config : Config
  /-- The model's own field, not the spec's: how many free values have been drawn (log 17). -/
  freeCount : Nat
deriving DecidableEq, Repr

/-- Why the machine stops. -/
inductive Fault where
  /-- Raised by any exception under `TrapModel = terminal`: the run is over with outcome Trap(E, info, pc0) (R260,
  R264), pc0 the address of the instruction. Safe: the real part goes on in a handler, the model claims nothing of it. -/
  | trap (e : Exception) (pc0 : Addr)
  /-- Raised under `TrapModel = supervisor` where a fault is met while a fault is being processed: the processor halts
  (R265). `e` is the exception that could not be taken, `pc0` the address of the instruction. Safe: nothing runs on. -/
  | halted (e : Exception) (pc0 : Addr)
deriving DecidableEq, Repr

/-- Where the model declines to say anything. -/
inductive Refusal where
  /-- Raised by no meaning: an instruction of the table without a meaning yet would be refused so in `exec`. Safe. -/
  | notModelled (mnemonic : String)
  /-- Raised by the fetch: the words at pc0 are no instruction of the card (R247 `Undecoded(pc0, opword)`). Safe. -/
  | undecoded (pc0 : Addr) (opword : Word16)
  /-- Raised by a store, and by the push of an exception frame, that touches `CodeRegion` (R45, R54, U5). Safe: the real
  part would perform the store. -/
  | storeIntoCode (addr : Addr)
  /-- Raised by an operand form that the instruction does not have and no encoding gives, such as the effective address
  of a register; the decoder never makes one. Safe. -/
  | illFormedOperand
  /-- Raised by the return from an exception (R266) where the long at SP, at this address, has no format 4 to 7: the
  format error of the real part is a kind the spec never raises (R261). No step reaches it. Safe. -/
  | frameFormat (addr : Addr)
deriving DecidableEq, Repr

/-- The launch state of a configuration (R35, R291): pc at `EntryPC`, A7 at `InitialSP`, CCR bits 7..5 zero, memory with
nothing listed. R35 leaves D0 to D7, A0 to A6 and the five flags unspecified: zero here (DESIGN CHOICE, unsafe: log 1,
log 2). The upper byte of SR and VBR hold what R290 says a hardware reset leaves (PRESUMED: log 4). -/
def State.launch (c : Config) : State where
  d := Vector.replicate 8 0
  a := (Vector.replicate 8 0).set 7 c.initialSP
  pc := c.entryPC
  ccr := ⟨false, false, false, false, false⟩
  sys := ⟨false, true, false, 7⟩
  vbr := 0
  mem := []
  config := c
  freeCount := 0

/-- The machine right after reset: the launch state of the configuration at reset. -/
def State.reset : State := State.launch Config.atReset

end Sys2Proof.Machine
end

