-- ==== Sys2Proof/Machine/Flags.lean ====
section
/-! DEFINITION. The flag computations of R25 to R31 and the two-operand functions of the arithmetic and logical
instructions, each with the flags its rule gives it. -/

namespace Sys2Proof.Machine

/-- The CCR as a byte: X N Z V C in bits 4..0, bits 7..5 zero (R25). -/
def Ccr.toByte (c : Ccr) : Byte :=
  (0 : BitVec 3) ++ BitVec.ofBool c.x ++ BitVec.ofBool c.n ++ BitVec.ofBool c.z ++ BitVec.ofBool c.v ++
    BitVec.ofBool c.c

/-- The five flags from bits 4..0 of a value, its other bits ignored (R25, R210). -/
def Ccr.ofBits {w : Nat} (v : BitVec w) : Ccr :=
  ⟨v.getLsbD 4, v.getLsbD 3, v.getLsbD 2, v.getLsbD 1, v.getLsbD 0⟩

/-- `LogicFlags(size, r)` (R26): X is not changed. -/
def logicFlags (size : Size) (r : Word) (c : Ccr) : Ccr :=
  { x := c.x, n := size.msb r, z := size.trunc r = 0, v := false, c := false }

/-- V of an addition (R27). -/
def addV (s d r : Word) : Bool := (s.msb && d.msb && !r.msb) || (!s.msb && !d.msb && r.msb)

/-- C of an addition (R27). -/
def addC (s d r : Word) : Bool := (s.msb && d.msb) || (!r.msb && d.msb) || (s.msb && !r.msb)

/-- `AddFlags(s, d, r)` with the Z its caller sets (R27, R29). -/
def addFlags (s d r : Word) (z : Bool) : Ccr :=
  { x := addC s d r, n := r.msb, z := z, v := addV s d r, c := addC s d r }

/-- V of a subtraction (R28). -/
def subV (s d r : Word) : Bool := (!s.msb && d.msb && !r.msb) || (s.msb && !d.msb && r.msb)

/-- C of a subtraction, the borrow (R28). -/
def subC (s d r : Word) : Bool := (s.msb && !d.msb) || (r.msb && !d.msb) || (s.msb && r.msb)

/-- `SubFlags(s, d, r)` followed by `CCR.X <- CCR.C`, with the Z its caller sets (R28, R29). -/
def subFlags (s d r : Word) (z : Bool) : Ccr :=
  { x := subC s d r, n := r.msb, z := z, v := subV s d r, c := subC s d r }

/-- `SubFlags(s, d, d - s)` of the compares: X is not changed (R28, R29). -/
def compareFlags (s d : Word) (c : Ccr) : Ccr :=
  { subFlags s d (d - s) (d - s = 0) with x := c.x }

/-- `Cond(cc)` (R31). -/
def Ccr.test (f : Ccr) : Cond → Bool
  | .T => true
  | .F => false
  | .HI => !f.c && !f.z
  | .LS => f.c || f.z
  | .CC => !f.c
  | .CS => f.c
  | .NE => !f.z
  | .EQ => f.z
  | .VC => !f.v
  | .VS => f.v
  | .PL => !f.n
  | .MI => f.n
  | .GE => (f.n && f.v) || (!f.n && !f.v)
  | .LT => (f.n && !f.v) || (!f.n && f.v)
  | .GT => (f.n && f.v && !f.z) || (!f.n && !f.v && !f.z)
  | .LE => f.z || (f.n && !f.v) || (!f.n && f.v)

/-- A two-operand function: from source, destination and old flags to result and new flags. -/
abbrev Alu := Word → Word → Ccr → Word × Ccr

/-- The extend flag as a long (`zext_32(CCR.X)` of R124). -/
def Ccr.xWord (c : Ccr) : Word := (BitVec.ofBool c.x).setWidth 32

/-- ADD, ADDI, ADDQ (R120, R122, R123). -/
def addAlu : Alu := fun s d _ => (d + s, addFlags s d (d + s) (d + s = 0))

/-- ADDX: Z is only ever cleared (R124, R29). -/
def addxAlu : Alu := fun s d c =>
  let r := d + s + c.xWord
  (r, addFlags s d r (c.z && r = 0))

/-- SUB, SUBI, SUBQ, and NEG with destination 0 (R128, R130, R132, R133). -/
def subAlu : Alu := fun s d _ => (d - s, subFlags s d (d - s) (d - s = 0))

/-- SUBX, and NEGX with destination 0: Z is only ever cleared (R129, R134, R29). -/
def subxAlu : Alu := fun s d c =>
  let r := d - s - c.xWord
  (r, subFlags s d r (c.z && r = 0))

/-- AND, ANDI (R150, R151). -/
def andAlu : Alu := fun s d c => (d &&& s, logicFlags .L (d &&& s) c)

/-- OR, ORI (R155, R156). -/
def orAlu : Alu := fun s d c => (d ||| s, logicFlags .L (d ||| s) c)

/-- EOR, EORI (R152, R153). -/
def eorAlu : Alu := fun s d c => (d ^^^ s, logicFlags .L (d ^^^ s) c)

end Sys2Proof.Machine
end

