-- ==== Sys2Proof/Machine/Ops.lean ====
section
/-! DEFINITION. The named operations over registers and memory that every meaning is made of: register access (R20 to R23),
memory (R40 to R45), the free values, taking an exception (R260 to R265) and returning from one (R266), the hardware
reset of R290, and how the result of a meaning becomes an outcome. -/

namespace Sys2Proof.Machine

/-! ### Memory as data -/

/-- What a byte that nothing has written reads as (DESIGN CHOICE, unsafe: log 5). -/
def memoryFill : Byte := 0

/-- The byte at an address. -/
def Memory.get : Memory → Nat → Byte
  | [], _ => memoryFill
  | (k, v) :: m, a => if k = a then v else Memory.get m a

/-- The list with a byte put at its place by address. -/
def Memory.insert : Memory → Nat → Byte → Memory
  | [], a, b => [(a, b)]
  | (k, v) :: m, a, b =>
    if k < a then (k, v) :: Memory.insert m a b
    else if k = a then (a, b) :: m
    else (a, b) :: (k, v) :: m

/-- Memory with one byte written; a byte that reads as an unlisted one is not listed. -/
def Memory.set (m : Memory) (a : Nat) (b : Byte) : Memory :=
  if b = memoryFill then m.filter (fun c => c.1 ≠ a) else Memory.insert m a b

/-- The canonical form: addresses of 32 bits, strictly rising, none listed that reads as an unlisted one does. -/
abbrev Memory.wf (m : Memory) : Prop :=
  m.Pairwise (fun p q => p.1 < q.1) ∧ ∀ p ∈ m, p.1 < 2 ^ 32 ∧ p.2 ≠ memoryFill

/-! ### Registers (R20 to R25) -/

/-- `D[r]` -/
def State.dreg (s : State) (r : Reg) : Word := s.d[r]
/-- `A[r]` -/
def State.areg (s : State) (r : Reg) : Word := s.a[r]
/-- `SP`, which is A7 (R23). -/
def State.sp (s : State) : Word := s.areg 7
/-- `D[r] <- v` -/
def State.setD (s : State) (r : Reg) (v : Word) : State := { s with d := s.d.set r v }
/-- `A[r] <- v` -/
def State.setA (s : State) (r : Reg) (v : Word) : State := { s with a := s.a.set r v }
/-- `pc <- v` -/
def State.setPc (s : State) (v : Addr) : State := { s with pc := v }
/-- All five flags. -/
def State.setCcr (s : State) (c : Ccr) : State := { s with ccr := c }

/-- A long whose low `bits(size)` bits are those of `v` and whose other bits are those of `old` (R22). -/
def mergeLow (size : Size) (old v : Word) : Word :=
  match size with
  | .B => old.extractLsb' 8 24 ++ v.extractLsb' 0 8
  | .W => old.extractLsb' 16 16 ++ v.extractLsb' 0 16
  | .L => v

/-- A size-wide write to a data register keeps the upper bits (R22). -/
def State.setDLow (s : State) (size : Size) (r : Reg) (v : Word) : State := s.setD r (mergeLow size (s.dreg r) v)

/-- `R[i]` of MOVEM's order (R217). -/
def State.rreg (s : State) (i : Fin 16) : Word :=
  if h : i.val < 8 then s.dreg ⟨i.val, h⟩ else s.areg ⟨i.val - 8, by omega⟩

/-- `R[i] <- v` (R217). -/
def State.setR (s : State) (i : Fin 16) (v : Word) : State :=
  if h : i.val < 8 then s.setD ⟨i.val, h⟩ v else s.setA ⟨i.val - 8, by omega⟩ v

/-- The address after an instruction of some words: the card's "Next PC", `nxt` after the last fetch (R24, R82). -/
def State.nextPc (s : State) (words : Nat) : Addr := s.pc + BitVec.ofNat 32 (2 * words)

/-- The base of PC-relative addresses and branches: the address of the opword plus 2 (R24, R64). -/
def State.pcBase (s : State) : Addr := s.pc + 2

/-! ### Free values (log 17) -/

/-- The k-th free value from here on. -/
def State.freeWord (s : State) (k : Nat) : Word := Config.freeWord (s.freeCount + k)
/-- The k-th free choice from here on. -/
def State.freeBit (s : State) (k : Nat) : Bool := Config.freeBit (s.freeCount + k)
/-- `k` free values are used up. -/
def State.spend (s : State) (k : Nat) : State := { s with freeCount := s.freeCount + k }

/-! ### Results -/

/-- Why a meaning does not run to its end: an exception, with the state at the point of `raise` (R260), or a
refusal. -/
inductive Stop where
  | raised (e : Exception) (s : State)
  | refused (r : Refusal)
deriving DecidableEq, Repr

/-- What a part of a meaning answers. -/
abbrev Result (α : Type) := Except Stop α

/-! ### Memory access (R40 to R45) -/

/-- The byte of memory at an address. -/
def State.byteAt (s : State) (a : Addr) : Byte := s.mem.get a.toNat

/-- Memory with one byte written. -/
def State.setByte (s : State) (a : Addr) (b : Byte) : State := { s with mem := s.mem.set a.toNat b }

/-- The addresses of an access, which wrap modulo 2^32 (R40, R44). -/
def accessBytes (size : Size) (a : Addr) : List Addr :=
  match size with
  | .B => [a]
  | .W => [a, a + 1]
  | .L => [a, a + 1, a + 2, a + 3]

/-- The big-endian value at an address, zero-extended to 32 bits (R41, R44). -/
def State.readMem (s : State) (size : Size) (a : Addr) : Word :=
  match size with
  | .B => (s.byteAt a).setWidth 32
  | .W => (s.byteAt a ++ s.byteAt (a + 1)).setWidth 32
  | .L => s.byteAt a ++ s.byteAt (a + 1) ++ s.byteAt (a + 2) ++ s.byteAt (a + 3)

/-- The low `bits(size)` bits of a value stored at an address, the most significant byte first (R41, R45). -/
def State.writeMem (s : State) (size : Size) (a : Addr) (v : Word) : State :=
  match size with
  | .B => s.setByte a (v.extractLsb' 0 8)
  | .W => (s.setByte a (v.extractLsb' 8 8)).setByte (a + 1) (v.extractLsb' 0 8)
  | .L => (((s.setByte a (v.extractLsb' 24 8)).setByte (a + 1) (v.extractLsb' 16 8)).setByte (a + 2)
      (v.extractLsb' 8 8)).setByte (a + 3) (v.extractLsb' 0 8)

/-- Is an address in a list of regions? -/
def inRegions (rs : List Region) (a : Addr) : Bool := rs.any fun r => r.base ≤ a.toNat && a.toNat < r.base + r.size

/-- Is the byte at an address ram (R49)? -/
def State.mapped (s : State) (a : Addr) : Bool := inRegions s.config.mapped a

/-- Does an access touch the program text (R54)? -/
def State.touchesCode (s : State) (size : Size) (a : Addr) : Bool :=
  (accessBytes size a).any (inRegions s.config.codeRegion)

/-- Is an address not a multiple of the access's size (R42)? -/
def misaligned (size : Size) (a : Addr) : Bool := a.toNat % size.bytes ≠ 0

/-- The exception of a data access, if it has one: AddressError of a misaligned access where `MisalignedData = fault`
(R42), else AccessError where one of its bytes is not mapped (R44, R45). The order of the two is log 13. -/
def State.dataFault (s : State) (k : AccessKind) (size : Size) (a : Addr) : Option Exception :=
  if s.config.misalignedData = .fault ∧ misaligned size a then some (.addressError a)
  else if (accessBytes size a).all s.mapped then none
  else some (.accessError k a)

/-- `MemRead` (R44). -/
def memRead (size : Size) (a : Addr) (s : State) : Result Word :=
  match s.dataFault .read size a with
  | some e => .error (.raised e s)
  | none => .ok (s.readMem size a)

/-- `MemWrite` (R45): an exception first, then the refusal of a store into the program text (log 14). -/
def memWrite (size : Size) (a : Addr) (v : Word) (s : State) : Result State :=
  match s.dataFault .write size a with
  | some e => .error (.raised e s)
  | none => if s.touchesCode size a then .error (.refused (.storeIntoCode a)) else .ok (s.writeMem size a v)

/-- The push of R23: `SP <- SP - 4; MemWrite(SP, 4, v)`. -/
def pushLong (v : Word) (s : State) : Result State := memWrite .L (s.sp - 4) v (s.setA 7 (s.sp - 4))

/-! ### Taking an exception (R260 to R265) -/

/-- The vector number of an exception (R261). -/
def Exception.vector : Exception → BitVec 8
  | .accessError _ _ => 2
  | .addressError _ => 3
  | .illegalInstruction _ => 4
  | .divideByZero => 5
  | .trap n => 32 + n.setWidth 8

/-- The pc an exception saves: the next instruction's for TRAP, which is one word, else that of the faulting
instruction (R246, R261). -/
def Exception.savedPc (e : Exception) (pc0 : Addr) : Addr :=
  match e with
  | .trap _ => pc0 + 2
  | _ => pc0

/-- The status register as a word (R265): T 0 S M 0 I 000 X N Z V C. -/
def State.srWord (s : State) : Word16 :=
  BitVec.ofBool s.sys.t ++ (0 : BitVec 1) ++ BitVec.ofBool s.sys.s ++ BitVec.ofBool s.sys.m ++ (0 : BitVec 1) ++
    s.sys.i ++ s.ccr.toByte

/-- The status register loaded from a word (R265, R266); its zero bits are not kept. -/
def State.setSr (s : State) (w : Word16) : State :=
  { s with
    sys := ⟨w.getLsbD 15, w.getLsbD 13, w.getLsbD 12, w.extractLsb' 8 3⟩
    ccr := Ccr.ofBits w }

/-- The address of a vector: `VBR + 4 * n`, the low 20 bits of VBR zero (R265). -/
def vectorAddr (vbr : Word) (n : BitVec 8) : Addr := (vbr &&& 0xFFF00000) + 4 * n.setWidth 32

/-- The format field of an exception frame: 4, 5, 6 or 7 as the low two bits of the old SP were 0, 1, 2 or 3 (R265). -/
def frameFormat (sp : Word) : BitVec 4 := 4 + (sp.extractLsb' 0 2).setWidth 4

/-- The first long of an exception frame: format 31..28, FS[3:2] 27..26, vector 25..18, FS[1:0] 17..16, SR 15..0
(R265). -/
def frameWord (format fs : BitVec 4) (vector : BitVec 8) (sr : Word16) : Word :=
  format ++ fs.extractLsb' 2 2 ++ vector ++ fs.extractLsb' 0 2 ++ sr

/-- Where the frame of an exception lies: SP rounded down to a multiple of 4, less 8 (R265). -/
def frameAddr (sp : Word) : Addr := (sp &&& 0xFFFFFFFC) - 8

/-- Exception processing in the order of R265: SR copied, S set and T cleared; the frame pushed; the pc loaded from the
vector table. R265 gives no value for the fault-status bits: free (log 10). -/
def enterException (e : Exception) (pc0 : Addr) (s : State) : Result State := do
  let sp := frameAddr s.sp
  let frame := frameWord (frameFormat s.sp) ((s.freeWord 0).setWidth 4) e.vector s.srWord
  let s1 := ({ s with sys := { s.sys with s := true, t := false } }.spend 1).setA 7 sp
  let s2 ← memWrite .L sp frame s1
  let s3 ← memWrite .L (sp + 4) (e.savedPc pc0) s2
  let target ← memRead .L (vectorAddr s3.vbr e.vector) s3
  .ok (s3.setPc target)

/-- The registers and memory an exception finds: what the instruction did before the `raise` may or may not have
happened (R260, U10, N32), so where it did anything a free choice says whether that stands (log 11). -/
def stateAtRaise (s0 s1 : State) : State :=
  if s1 = s0 then s0 else (if s1.freeBit 0 then s1 else { s0 with freeCount := s1.freeCount }).spend 1

/-- `raise` (R260): `s0` is the state before the instruction, `s1` the state at the `raise`. Under `terminal` the run
is over (R264). Under `supervisor` the exception is taken (R265); a fault while a fault is taken halts the processor
(R265), and a fault while TRAP is taken is itself taken (log 12). -/
def takeException (e : Exception) (s0 s1 : State) : Host.Outcome State Fault Refusal :=
  match s0.config.trapModel with
  | .terminal => .fault (.trap e s0.pc)
  | .supervisor =>
    match enterException e s0.pc (stateAtRaise s0 s1) with
    | .ok t => .next t
    | .error (.refused q) => .refused q
    | .error (.raised e' t) =>
      match e with
      | .trap _ =>
        match enterException e' s0.pc (stateAtRaise (stateAtRaise s0 s1) t) with
        | .ok u => .next u
        | .error (.refused q) => .refused q
        | .error (.raised _ _) => .fault (.halted e' s0.pc)
      | _ => .fault (.halted e s0.pc)

/-- Return from an exception (R266): the frame is popped, SR and pc are reloaded, and the rounding of SP recorded in the
format field is added back. No instruction of the card does this (RTE is privileged and not on it): the operation stands
beside the entry, and no step reaches it (log 20). -/
def returnFromException (s : State) : Result State := do
  let frame ← memRead .L s.sp s
  let target ← memRead .L (s.sp + 4) s
  let format := frame.extractLsb' 28 4
  if 4 ≤ format.toNat ∧ format.toNat ≤ 7 then
    .ok (((s.setSr (frame.extractLsb' 0 16)).setA 7 (s.sp + 8 + (frame.extractLsb' 28 2).setWidth 32)).setPc target)
  else .error (.refused (.frameFormat s.sp))

/-- The hardware reset of R290, an event from outside that no step reaches (log 20): supervisor mode, tracing off, mask
7, VBR zero, SP and pc from the first two longs of memory. R290 says that the core does not initialise D0 to D7, A0 to A6
and the condition codes, and not what they then hold: every one of them is a free value (DESIGN CHOICE, safe: log 20). -/
def hardwareReset (s : State) : Result State := do
  let s1 : State :=
    { s with
      d := Vector.ofFn fun r => s.freeWord r
      a := Vector.ofFn fun r => s.freeWord (8 + r)
      ccr := Ccr.ofBits (s.freeWord 16)
      sys := ⟨false, true, false, 7⟩
      vbr := 0 }
  let s2 := s1.spend 17
  let sp ← memRead .L 0 s2
  let target ← memRead .L 4 s2
  .ok ((s2.setA 7 sp).setPc target)

/-! ### From a result to an outcome -/

/-- The outcome of a meaning that leaves the pc where it belongs. -/
def finishAt (s : State) (r : Result State) : Host.Outcome State Fault Refusal :=
  match r with
  | .ok t => .next t
  | .error (.raised e t) => takeException e s t
  | .error (.refused q) => .refused q

/-- The outcome of a meaning that transfers no control: `pc <- nxt` (R14, R24). -/
def finish (s : State) (words : Nat) (r : Result State) : Host.Outcome State Fault Refusal :=
  finishAt s (r.map fun t => t.setPc (s.nextPc words))

end Sys2Proof.Machine
end

