-- ==== Sys2Proof/Machine/Operands.lean ====
section
/-! DEFINITION. The twelve addressing modes: the address of an operand (R62 to R65), reading and writing an operand (R61,
R66), the index register and its open cases (R84, R229), and the shapes that the two-operand instructions share. -/

namespace Sys2Proof.Machine

/-- By how much `(An)+` and `-(An)` step: the size in bytes, and `A7ByteStep` for a byte through A7 (R62). -/
def State.stepOf (s : State) (size : Size) (r : Reg) : Word :=
  if size = .B ∧ r = 7 then
    match s.config.a7ByteStep with
    | .one => 1
    | .two => 2
  else BitVec.ofNat 32 size.bytes

/-- By how many places a scale shifts the index: x1, x2, x4 (R84). -/
def Scale.shift : Scale → Nat
  | .x1 => 0
  | .x2 => 1
  | .x4 => 2

/-- `Index(w)` (R84), Xi read from a state. -/
def indexValue (x : IndexWord) (s : State) : Word :=
  (if x.isAddr then s.areg x.reg else s.dreg x.reg) <<< Scale.shift x.scale

/-- `AddrEA` (R62 to R66): the address, and the state with the register step of `(An)+` and `-(An)` made. The index
register is read from `view`. A register or an immediate has no address. -/
def eaAddrIn (view : State) (size : Size) (ea : Ea) (s : State) : Result (Addr × State) :=
  match ea with
  | .ind r => .ok (s.areg r, s)
  | .postinc r => .ok (s.areg r, s.setA r (s.areg r + s.stepOf size r))
  | .predec r => .ok (s.areg r - s.stepOf size r, s.setA r (s.areg r - s.stepOf size r))
  | .disp r d => .ok (s.areg r + d.signExtend 32, s)
  | .index r x => .ok (s.areg r + x.d8.signExtend 32 + indexValue x view, s)
  | .pcDisp d => .ok (s.pcBase + d.signExtend 32, s)
  | .pcIndex x => .ok (s.pcBase + x.d8.signExtend 32 + indexValue x view, s)
  | .absW a => .ok (a.signExtend 32, s)
  | .absL a => .ok (a, s)
  | .dn _ | .an _ | .imm _ => .error (.refused .illFormedOperand)

/-- `AddrEA` where nothing about the index register is open. -/
def eaAddr (size : Size) (ea : Ea) (s : State) : Result (Addr × State) := eaAddrIn s size ea s

/-- `ReadEA` (R61, R66): the value, zero-extended to 32 bits, and the state after the operand. -/
def readEaIn (view : State) (size : Size) (ea : Ea) (s : State) : Result (Word × State) :=
  match ea with
  | .dn r => .ok (size.trunc (s.dreg r), s)
  | .an r => .ok (size.trunc (s.areg r), s)
  | .imm v => .ok (size.trunc v, s)
  | ea => do
    let (a, s1) ← eaAddrIn view size ea s
    let v ← memRead size a s1
    .ok (v, s1)

/-- `ReadEA` where nothing about the index register is open. -/
def readEa (size : Size) (ea : Ea) (s : State) : Result (Word × State) := readEaIn s size ea s

/-- `WriteEA` (R61, R66). -/
def writeEaIn (view : State) (size : Size) (ea : Ea) (v : Word) (s : State) : Result State :=
  match ea with
  | .dn r => .ok (s.setDLow size r v)
  | .an r => .ok (s.setA r (size.sext v))
  | ea => do
    let (a, s1) ← eaAddrIn view size ea s
    memWrite size a v s1

/-- `WriteEA` where nothing about the index register is open. -/
def writeEa (size : Size) (ea : Ea) (v : Word) (s : State) : Result State := writeEaIn s size ea v s

/-! ### The open cases of R229 -/

/-- The address register that an operand steps. -/
def steppedReg : Ea → Option Reg
  | .postinc r | .predec r => some r
  | _ => none

/-- Does an operand step the address register `r`? -/
def steps (ea : Ea) (r : Reg) : Bool := steppedReg ea = some r

/-- Is the index register of an operand the address register `r`? -/
def indexedBy (ea : Ea) (r : Reg) : Bool :=
  match ea with
  | .index _ x | .pcIndex x => x.isAddr && x.reg = r
  | _ => false

/-- Does `stepping` step the index register of `indexed` (R229, last row)? -/
def indexOpen (indexed stepping : Ea) : Bool :=
  match steppedReg stepping with
  | some r => indexedBy indexed r
  | none => false

/-- The state with an operand's register step made, and nothing else. -/
def stepEa (size : Size) (ea : Ea) (s : State) : State :=
  match ea with
  | .postinc r => s.setA r (s.areg r + s.stepOf size r)
  | .predec r => s.setA r (s.areg r - s.stepOf size r)
  | _ => s

/-- Is an address formed from A7: `(A7)`, `(d16,A7)`, `(d8,A7,Xi)` (R229, the row of PEA and JSR)? -/
def basedOnSp : Ea → Bool
  | .ind r | .disp r _ | .index r _ => r = 7
  | _ => false

/-- The operand address of PEA and JSR. With a mode based on A7 it is open whether the address is formed from the old or
from the new SP (R229, R179, R214): a free choice between the two (log 16). -/
def pushedAddr (ea : Ea) (s : State) : Result (Addr × State) :=
  if basedOnSp ea then do
    let (a, _) ← eaAddr .L ea (if s.freeBit 0 then s else s.setA 7 (s.sp - 4))
    .ok (a, s.spend 1)
  else eaAddr .L ea s

/-! ### Shapes that instructions share -/

/-- `<ea>y op Dx -> Dx`: the register-destination forms of ADD, AND, OR, SUB. -/
def aluToDn (f : Alu) (ea : Ea) (r : Reg) (s : State) : Result State := do
  let (v, s1) ← readEa .L ea s
  let p := f v (s1.dreg r) s1.ccr
  .ok ((s1.setD r p.1).setCcr p.2)

/-- A source value and a destination `<ea>x`, read and written back: a data register, or memory at an address formed
once (R66). -/
def aluToEa (f : Alu) (v : Word) (ea : Ea) (s : State) : Result State :=
  match ea with
  | .dn r =>
    let p := f v (s.dreg r) s.ccr
    .ok ((s.setD r p.1).setCcr p.2)
  | ea => do
    let (a, s1) ← eaAddr .L ea s
    let d ← memRead .L a s1
    let p := f v d s1.ccr
    let s2 ← memWrite .L a p.1 s1
    .ok (s2.setCcr p.2)

/-- A source value and a data register, no operand access. -/
def aluReg (f : Alu) (v : Word) (r : Reg) (s : State) : State :=
  let p := f v (s.dreg r) s.ccr
  (s.setD r p.1).setCcr p.2

end Sys2Proof.Machine
end

