-- ==== Sys2Proof/Machine/Arithmetic.lean ====
section
/-! DEFINITION. The meanings of 40_integer_arithmetic.md: ADD, ADDA, ADDI, ADDQ, ADDX, CMP, CMPA, CMPI, NEG, NEGX, SUB, SUBA,
SUBI, SUBQ, SUBX, all of size L. -/

namespace Sys2Proof.Machine

/-- ADDA and SUBA (R121, R131): no flag changes. Where the source steps the destination register itself, the final
value of that register is open (R229): a free value. -/
def addressArith (f : Word → Word → Word) (ea : Ea) (r : Reg) (s : State) : Result State := do
  let (v, s1) ← readEa .L ea s
  if steps ea r then .ok ((s1.spend 1).setA r (s1.freeWord 0)) else .ok (s1.setA r (f (s1.areg r) v))

/-- ADDQ and SUBQ (R123, R133): on an address register no flag changes. -/
def quickArith (f : Alu) (g : Word → Word → Word) (q : BitVec 3) (ea : Ea) (s : State) : Result State :=
  let v := BitVec.ofNat 32 (quickValue q)
  match ea with
  | .an r => .ok (s.setA r (g (s.areg r) v))
  | ea => aluToEa f v ea s

/-- ADD.L <ea>y,Dx (R120) -/
def execAddEaDn (ea : Ea) (r : Reg) (s : State) : Host.Outcome State Fault Refusal :=
  finish s (1 + ea.extWords .L) (aluToDn addAlu ea r s)

/-- ADD.L Dy,<ea>x (R120) -/
def execAddDnEa (r : Reg) (ea : Ea) (s : State) : Host.Outcome State Fault Refusal :=
  finish s (1 + ea.extWords .L) (aluToEa addAlu (s.dreg r) ea s)

/-- ADDA.L <ea>y,Ax (R121) -/
def execAdda (ea : Ea) (r : Reg) (s : State) : Host.Outcome State Fault Refusal :=
  finish s (1 + ea.extWords .L) (addressArith (fun d v => d + v) ea r s)

/-- ADDI.L #<data>,Dx (R122) -/
def execAddi (v : Word) (r : Reg) (s : State) : Host.Outcome State Fault Refusal :=
  finish s 3 (.ok (aluReg addAlu v r s))

/-- ADDQ.L #<data>,<ea>x (R123) -/
def execAddq (q : BitVec 3) (ea : Ea) (s : State) : Host.Outcome State Fault Refusal :=
  finish s (1 + ea.extWords .L) (quickArith addAlu (fun d v => d + v) q ea s)

/-- ADDX.L Dy,Dx (R124) -/
def execAddx (y x : Reg) (s : State) : Host.Outcome State Fault Refusal :=
  finish s 1 (.ok (aluReg addxAlu (s.dreg y) x s))

/-- CMP.L <ea>y,Dx (R125) -/
def execCmp (ea : Ea) (r : Reg) (s : State) : Host.Outcome State Fault Refusal :=
  finish s (1 + ea.extWords .L) do
    let (v, s1) ← readEa .L ea s
    .ok (s1.setCcr (compareFlags v (s1.dreg r) s1.ccr))

/-- CMPA.L <ea>y,Ax (R126). Where the source steps Ax itself, the value of Ax compared is open (R229): a free value. -/
def execCmpa (ea : Ea) (r : Reg) (s : State) : Host.Outcome State Fault Refusal :=
  finish s (1 + ea.extWords .L) do
    let (v, s1) ← readEa .L ea s
    if steps ea r then .ok ((s1.spend 1).setCcr (compareFlags v (s1.freeWord 0) s1.ccr))
    else .ok (s1.setCcr (compareFlags v (s1.areg r) s1.ccr))

/-- CMPI.L #<data>,Dx (R127) -/
def execCmpi (v : Word) (r : Reg) (s : State) : Host.Outcome State Fault Refusal :=
  finish s 3 (.ok (s.setCcr (compareFlags v (s.dreg r) s.ccr)))

/-- NEG.L Dx (R128): 0 - Dx. -/
def execNeg (r : Reg) (s : State) : Host.Outcome State Fault Refusal :=
  let p := subAlu (s.dreg r) 0 s.ccr
  finish s 1 (.ok ((s.setD r p.1).setCcr p.2))

/-- NEGX.L Dx (R129): 0 - Dx - X. -/
def execNegx (r : Reg) (s : State) : Host.Outcome State Fault Refusal :=
  let p := subxAlu (s.dreg r) 0 s.ccr
  finish s 1 (.ok ((s.setD r p.1).setCcr p.2))

/-- SUB.L <ea>y,Dx (R130) -/
def execSubEaDn (ea : Ea) (r : Reg) (s : State) : Host.Outcome State Fault Refusal :=
  finish s (1 + ea.extWords .L) (aluToDn subAlu ea r s)

/-- SUB.L Dy,<ea>x (R130) -/
def execSubDnEa (r : Reg) (ea : Ea) (s : State) : Host.Outcome State Fault Refusal :=
  finish s (1 + ea.extWords .L) (aluToEa subAlu (s.dreg r) ea s)

/-- SUBA.L <ea>y,Ax (R131) -/
def execSuba (ea : Ea) (r : Reg) (s : State) : Host.Outcome State Fault Refusal :=
  finish s (1 + ea.extWords .L) (addressArith (fun d v => d - v) ea r s)

/-- SUBI.L #<data>,Dx (R132) -/
def execSubi (v : Word) (r : Reg) (s : State) : Host.Outcome State Fault Refusal :=
  finish s 3 (.ok (aluReg subAlu v r s))

/-- SUBQ.L #<data>,<ea>x (R133) -/
def execSubq (q : BitVec 3) (ea : Ea) (s : State) : Host.Outcome State Fault Refusal :=
  finish s (1 + ea.extWords .L) (quickArith subAlu (fun d v => d - v) q ea s)

/-- SUBX.L Dy,Dx (R134) -/
def execSubx (y x : Reg) (s : State) : Host.Outcome State Fault Refusal :=
  finish s 1 (.ok (aluReg subxAlu (s.dreg y) x s))

end Sys2Proof.Machine
end

