-- ==== Sys2Proof/Machine/BitManip.lean ====
section
/-! DEFINITION. The meanings of 44_bit_manipulation.md: BTST, BCHG, BCLR, BSET, with the bit number in a data register or in the
second word. -/

namespace Sys2Proof.Machine

/-- The operand with one bit inverted (R191). -/
def changeBit (old : Word) (b : Nat) : Word := old ^^^ ((1 : Word) <<< b)
/-- The operand with one bit cleared (R192). -/
def clearBit (old : Word) (b : Nat) : Word := old &&& ~~~((1 : Word) <<< b)
/-- The operand with one bit set (R193). -/
def setBit (old : Word) (b : Nat) : Word := old ||| ((1 : Word) <<< b)

/-- Z is set when the tested bit was 0; no other flag changes (R190). -/
def bitFlags (old : Word) (b : Nat) (c : Ccr) : Ccr := { c with z := !old.getLsbD b }

/-- BCHG, BCLR, BSET (R190 to R193): a data register is a long, the bit number modulo 32; memory is one byte, the bit
number modulo 8, read and written back. -/
def modifyBit (f : Word → Nat → Word) (n : Nat) (ea : Ea) (s : State) : Result State :=
  match ea with
  | .dn r =>
    let old := s.dreg r
    .ok ((s.setD r (f old (n % 32))).setCcr (bitFlags old (n % 32) s.ccr))
  | ea => do
    let (a, s1) ← eaAddr .B ea s
    let old ← memRead .B a s1
    memWrite .B a (f old (n % 8)) (s1.setCcr (bitFlags old (n % 8) s1.ccr))

/-- BTST (R190, R194): the operand is only read. -/
def testBit (n : Nat) (ea : Ea) (s : State) : Result State :=
  match ea with
  | .dn r => .ok (s.setCcr (bitFlags (s.dreg r) (n % 32) s.ccr))
  | ea => do
    let (a, s1) ← eaAddr .B ea s
    let old ← memRead .B a s1
    .ok (s1.setCcr (bitFlags old (n % 8) s1.ccr))

/-- BTST Dy,<ea>x (R194) -/
def execBtstReg (y : Reg) (ea : Ea) (s : State) : Host.Outcome State Fault Refusal :=
  finish s (1 + ea.extWords .B) (testBit (s.dreg y).toNat ea s)

/-- BTST #<data>,<ea>x (R194) -/
def execBtstImm (n : BitVec 8) (ea : Ea) (s : State) : Host.Outcome State Fault Refusal :=
  finish s (2 + ea.extWords .B) (testBit n.toNat ea s)

/-- BCHG Dy,<ea>x (R191) -/
def execBchgReg (y : Reg) (ea : Ea) (s : State) : Host.Outcome State Fault Refusal :=
  finish s (1 + ea.extWords .B) (modifyBit changeBit (s.dreg y).toNat ea s)

/-- BCHG #<data>,<ea>x (R191) -/
def execBchgImm (n : BitVec 8) (ea : Ea) (s : State) : Host.Outcome State Fault Refusal :=
  finish s (2 + ea.extWords .B) (modifyBit changeBit n.toNat ea s)

/-- BCLR Dy,<ea>x (R192) -/
def execBclrReg (y : Reg) (ea : Ea) (s : State) : Host.Outcome State Fault Refusal :=
  finish s (1 + ea.extWords .B) (modifyBit clearBit (s.dreg y).toNat ea s)

/-- BCLR #<data>,<ea>x (R192) -/
def execBclrImm (n : BitVec 8) (ea : Ea) (s : State) : Host.Outcome State Fault Refusal :=
  finish s (2 + ea.extWords .B) (modifyBit clearBit n.toNat ea s)

/-- BSET Dy,<ea>x (R193) -/
def execBsetReg (y : Reg) (ea : Ea) (s : State) : Host.Outcome State Fault Refusal :=
  finish s (1 + ea.extWords .B) (modifyBit setBit (s.dreg y).toNat ea s)

/-- BSET #<data>,<ea>x (R193) -/
def execBsetImm (n : BitVec 8) (ea : Ea) (s : State) : Host.Outcome State Fault Refusal :=
  finish s (2 + ea.extWords .B) (modifyBit setBit n.toNat ea s)

end Sys2Proof.Machine
end

