-- ==== Sys2Proof/Machine/Control.lean ====
section
/-! DEFINITION. The meanings of 43_control_transfer.md: BRA, BSR, Bcc, JMP, JSR, RTS. None changes a flag, none checks its target
(R181). -/

namespace Sys2Proof.Machine

/-- The target of a branch: the address of the opword plus 2, plus the displacement, in both forms (R175). -/
def branchTarget (d : BranchDisp) (s : State) : Addr := s.pcBase + d.value

/-- BRA <label> (R176) -/
def execBra (d : BranchDisp) (s : State) : Host.Outcome State Fault Refusal :=
  finishAt s (.ok (s.setPc (branchTarget d s)))

/-- BSR <label> (R177): the return address is the next pc. -/
def execBsr (d : BranchDisp) (s : State) : Host.Outcome State Fault Refusal :=
  finishAt s do
    let s1 ← pushLong (s.nextPc (1 + d.extWords)) s
    .ok (s1.setPc (branchTarget d s))

/-- Bcc <label> (R175) -/
def execBcc (cc : Cond) (d : BranchDisp) (s : State) : Host.Outcome State Fault Refusal :=
  finishAt s (.ok (s.setPc (if s.ccr.test cc then branchTarget d s else s.nextPc (1 + d.extWords))))

/-- JMP <ea>y (R178): the effective address itself is the new pc. -/
def execJmp (ea : Ea) (s : State) : Host.Outcome State Fault Refusal :=
  finishAt s do
    let (a, s1) ← eaAddr .L ea s
    .ok (s1.setPc a)

/-- JSR <ea>y (R179, R229) -/
def execJsr (ea : Ea) (s : State) : Host.Outcome State Fault Refusal :=
  finishAt s do
    let (a, s1) ← pushedAddr ea s
    let s2 ← pushLong (s.nextPc (1 + ea.extWords .L)) s1
    .ok (s2.setPc a)

/-- RTS (R180) -/
def execRts (s : State) : Host.Outcome State Fault Refusal :=
  finishAt s do
    let t ← memRead .L s.sp s
    .ok ((s.setA 7 (s.sp + 4)).setPc t)

end Sys2Proof.Machine
end

