-- ==== Sys2Proof/Machine/DataMove.lean ====
section
/-! DEFINITION. The meanings of 45_data_movement.md: CLR, EXT, EXTB, LEA, LINK, MOVE, MOVEA, MOVE from and to CCR, MOVEM, MOVEQ,
PEA, Scc, SWAP, TST, UNLK, with the open cases of R229 as free values (log 16). -/

namespace Sys2Proof.Machine

/-! ### CLR, TST, EXT -/

/-- CLR (R200): the destination is written and not read. -/
def clear (size : Size) (ea : Ea) (s : State) : Result State := do
  let s1 ← writeEa size ea 0 s
  .ok (s1.setCcr { x := s1.ccr.x, n := false, z := true, v := false, c := false })

/-- TST (R218) -/
def test (size : Size) (ea : Ea) (s : State) : Result State := do
  let (v, s1) ← readEa size ea s
  .ok (s1.setCcr (logicFlags size v s1.ccr))

/-- EXT and EXTB (R201 to R203): a value sign-extended from one size and written at another. -/
def extend (from_ to_ : Size) (r : Reg) (s : State) : State :=
  let v := from_.sext (s.dreg r)
  (s.setDLow to_ r v).setCcr (logicFlags to_ v s.ccr)

/-- CLR.B <ea>x (R200) -/
def execClrB (ea : Ea) (s : State) : Host.Outcome State Fault Refusal := finish s (1 + ea.extWords .B) (clear .B ea s)

/-- CLR.W <ea>x (R200) -/
def execClrW (ea : Ea) (s : State) : Host.Outcome State Fault Refusal := finish s (1 + ea.extWords .W) (clear .W ea s)

/-- CLR.L <ea>x (R200) -/
def execClrL (ea : Ea) (s : State) : Host.Outcome State Fault Refusal := finish s (1 + ea.extWords .L) (clear .L ea s)

/-- TST.B <ea>y (R218) -/
def execTstB (ea : Ea) (s : State) : Host.Outcome State Fault Refusal := finish s (1 + ea.extWords .B) (test .B ea s)

/-- TST.W <ea>y (R218) -/
def execTstW (ea : Ea) (s : State) : Host.Outcome State Fault Refusal := finish s (1 + ea.extWords .W) (test .W ea s)

/-- TST.L <ea>y (R218) -/
def execTstL (ea : Ea) (s : State) : Host.Outcome State Fault Refusal := finish s (1 + ea.extWords .L) (test .L ea s)

/-- EXT.W Dx (R201) -/
def execExtW (r : Reg) (s : State) : Host.Outcome State Fault Refusal := finish s 1 (.ok (extend .B .W r s))

/-- EXT.L Dx (R202) -/
def execExtL (r : Reg) (s : State) : Host.Outcome State Fault Refusal := finish s 1 (.ok (extend .W .L r s))

/-- EXTB.L Dx (R203) -/
def execExtbL (r : Reg) (s : State) : Host.Outcome State Fault Refusal := finish s 1 (.ok (extend .B .L r s))

/-! ### LEA, PEA, LINK, UNLK -/

/-- LEA <ea>y,Ax (R204): memory is not accessed. -/
def execLea (ea : Ea) (r : Reg) (s : State) : Host.Outcome State Fault Refusal :=
  finish s (1 + ea.extWords .L) do
    let (a, s1) ← eaAddr .L ea s
    .ok (s1.setA r a)

/-- PEA <ea>y (R214, R229) -/
def execPea (ea : Ea) (s : State) : Host.Outcome State Fault Refusal :=
  finish s (1 + ea.extWords .L) do
    let (a, s1) ← pushedAddr ea s
    pushLong a s1

/-- LINK Ax,#<displacement> (R205). For A7 the value pushed and the final SP are open (R229): free values. -/
def execLink (r : Reg) (d16 : BitVec 16) (s : State) : Host.Outcome State Fault Refusal :=
  finish s 2 <|
    if r = 7 then do
      let s1 ← pushLong (s.freeWord 0) (s.spend 2)
      .ok (s1.setA 7 (s.freeWord 1))
    else do
      let s1 ← pushLong (s.areg r) s
      let s2 := s1.setA r s1.sp
      .ok (s2.setA 7 (s2.sp + d16.signExtend 32))

/-- UNLK Ax (R219). For A7 the final SP is open (R229): a free value. -/
def execUnlk (r : Reg) (s : State) : Host.Outcome State Fault Refusal :=
  finish s 1 <| do
    let s1 := s.setA 7 (s.areg r)
    let v ← memRead .L s1.sp s1
    if r = 7 then .ok ((s1.spend 1).setA 7 (s1.freeWord 0))
    else
      let s2 := s1.setA r v
      .ok (s2.setA 7 (s2.sp + 4))

/-! ### MOVE and MOVEA -/

/-- MOVE.L Ay,-(Ay) and MOVE.L Ay,(Ay)+: the value stored is open (R229). -/
def storesSteppedSource (size : Size) (src dst : Ea) : Bool :=
  match src with
  | .an y => size = .L && steps dst y
  | _ => false

/-- MOVE (R206, R67): the source is complete before the destination address is formed. Open by R229, and so free: the
value stored where an address register is moved through its own step; and whether an index register that the other
operand steps is read before or after the step. At most one of the three is open. -/
def move (size : Size) (src dst : Ea) (s : State) : Result State := do
  let srcView := if indexOpen src dst && s.freeBit 0 then stepEa size dst s else s
  let (v, s1) ← readEaIn srcView size src s
  let dstView := if indexOpen dst src && s.freeBit 0 then s else s1
  let free := storesSteppedSource size src dst
  let v := if free then s.freeWord 0 else v
  let s2 := if free || indexOpen src dst || indexOpen dst src then s1.spend 1 else s1
  let s3 ← writeEaIn dstView size dst v s2
  .ok (s3.setCcr (logicFlags size v s3.ccr))

/-- MOVEA (R207): a word is sign-extended; no flag changes. -/
def moveAddress (size : Size) (src : Ea) (r : Reg) (s : State) : Result State := do
  let (v, s1) ← readEa size src s
  .ok (s1.setA r (size.sext v))

/-- MOVE.B <ea>y,<ea>x (R206) -/
def execMoveB (src dst : Ea) (s : State) : Host.Outcome State Fault Refusal :=
  finish s (1 + src.extWords .B + dst.extWords .B) (move .B src dst s)

/-- MOVE.W <ea>y,<ea>x (R206) -/
def execMoveW (src dst : Ea) (s : State) : Host.Outcome State Fault Refusal :=
  finish s (1 + src.extWords .W + dst.extWords .W) (move .W src dst s)

/-- MOVE.L <ea>y,<ea>x (R206) -/
def execMoveL (src dst : Ea) (s : State) : Host.Outcome State Fault Refusal :=
  finish s (1 + src.extWords .L + dst.extWords .L) (move .L src dst s)

/-- MOVEA.W <ea>y,Ax (R207) -/
def execMoveaW (src : Ea) (r : Reg) (s : State) : Host.Outcome State Fault Refusal :=
  finish s (1 + src.extWords .W) (moveAddress .W src r s)

/-- MOVEA.L <ea>y,Ax (R207) -/
def execMoveaL (src : Ea) (r : Reg) (s : State) : Host.Outcome State Fault Refusal :=
  finish s (1 + src.extWords .L) (moveAddress .L src r s)

/-! ### The CCR moves, MOVEQ, Scc, SWAP -/

/-- MOVE.W CCR,Dx (R209) -/
def execMoveFromCcr (r : Reg) (s : State) : Host.Outcome State Fault Refusal :=
  finish s 1 (.ok (s.setDLow .W r (s.ccr.toByte.setWidth 32)))

/-- MOVE.W Dy,CCR and MOVE.W #<data>,CCR (R210) -/
def execMoveToCcr (src : Ea) (s : State) : Host.Outcome State Fault Refusal :=
  finish s (1 + src.extWords .W) do
    let (v, s1) ← readEa .W src s
    .ok (s1.setCcr (Ccr.ofBits v))

/-- MOVEQ #<data>,Dx (R213) -/
def execMoveq (v : BitVec 8) (r : Reg) (s : State) : Host.Outcome State Fault Refusal :=
  let w : Word := v.signExtend 32
  finish s 1 (.ok ((s.setD r w).setCcr (logicFlags .L w s.ccr)))

/-- Scc Dx (R215) -/
def execScc (cc : Cond) (r : Reg) (s : State) : Host.Outcome State Fault Refusal :=
  finish s 1 (.ok (s.setDLow .B r (if s.ccr.test cc then 0xFF else 0)))

/-- SWAP Dx (R216) -/
def execSwap (r : Reg) (s : State) : Host.Outcome State Fault Refusal :=
  let d := s.dreg r
  let w : Word := d.extractLsb' 0 16 ++ d.extractLsb' 16 16
  finish s 1 (.ok ((s.setD r w).setCcr (logicFlags .L w s.ccr)))

/-! ### MOVEM -/

/-- The registers a mask selects, in the order of transfer (R92, R217). -/
def maskRegs (mask : BitVec 16) : List (Fin 16) := (List.finRange 16).filter fun i => mask.getLsbD i

/-- The stores of MOVEM (R211). -/
def storeRegs : List (Fin 16) → Addr → State → Result State
  | [], _, s => .ok s
  | i :: is, a, s => do
    let s1 ← memWrite .L a (s.rreg i) s
    storeRegs is (a + 4) s1

/-- The loads of MOVEM (R212). -/
def loadRegs : List (Fin 16) → Addr → State → Result State
  | [], _, s => .ok s
  | i :: is, a, s => do
    let v ← memRead .L a s
    loadRegs is (a + 4) (s.setR i v)

/-- The base register of `(An)` and `(d16,An)`. -/
def baseReg : Ea → Option Reg
  | .ind r | .disp r _ => some r
  | _ => none

/-- Is an address register selected by a mask (R92: bits 8..15)? -/
def maskHasA (mask : BitVec 16) (r : Reg) : Bool := mask.getLsbD (8 + r.val)

/-- MOVEM.L <list>,<ea>x (R211) -/
def execMovemStore (mask : BitVec 16) (ea : Ea) (s : State) : Host.Outcome State Fault Refusal :=
  finish s (2 + ea.extWords .L) do
    let (a, s1) ← eaAddr .L ea s
    storeRegs (maskRegs mask) a s1

/-- MOVEM.L <ea>y,<list> (R212). Where the base register is in the list its final value is open (R229): a free value. -/
def execMovemLoad (mask : BitVec 16) (ea : Ea) (s : State) : Host.Outcome State Fault Refusal :=
  finish s (2 + ea.extWords .L) do
    let (a, s1) ← eaAddr .L ea s
    let s2 ← loadRegs (maskRegs mask) a s1
    match baseReg ea with
    | some r => if maskHasA mask r then .ok ((s2.spend 1).setA r (s2.freeWord 0)) else .ok s2
    | none => .ok s2

end Sys2Proof.Machine
end

