-- ==== Sys2Proof/Machine/Logical.lean ====
section
/-! DEFINITION. The meanings of 41_logical.md: AND, ANDI, EOR, EORI, NOT, OR, ORI, all of size L. -/

namespace Sys2Proof.Machine

/-- AND.L <ea>y,Dx (R150) -/
def execAndEaDn (ea : Ea) (r : Reg) (s : State) : Host.Outcome State Fault Refusal :=
  finish s (1 + ea.extWords .L) (aluToDn andAlu ea r s)

/-- AND.L Dy,<ea>x (R150) -/
def execAndDnEa (r : Reg) (ea : Ea) (s : State) : Host.Outcome State Fault Refusal :=
  finish s (1 + ea.extWords .L) (aluToEa andAlu (s.dreg r) ea s)

/-- ANDI.L #<data>,Dx (R151) -/
def execAndi (v : Word) (r : Reg) (s : State) : Host.Outcome State Fault Refusal :=
  finish s 3 (.ok (aluReg andAlu v r s))

/-- EOR.L Dy,<ea>x (R152) -/
def execEor (r : Reg) (ea : Ea) (s : State) : Host.Outcome State Fault Refusal :=
  finish s (1 + ea.extWords .L) (aluToEa eorAlu (s.dreg r) ea s)

/-- EORI.L #<data>,Dx (R153) -/
def execEori (v : Word) (r : Reg) (s : State) : Host.Outcome State Fault Refusal :=
  finish s 3 (.ok (aluReg eorAlu v r s))

/-- NOT.L Dx (R154) -/
def execNotDn (r : Reg) (s : State) : Host.Outcome State Fault Refusal :=
  let v := ~~~s.dreg r
  finish s 1 (.ok ((s.setD r v).setCcr (logicFlags .L v s.ccr)))

/-- OR.L <ea>y,Dx (R155) -/
def execOrEaDn (ea : Ea) (r : Reg) (s : State) : Host.Outcome State Fault Refusal :=
  finish s (1 + ea.extWords .L) (aluToDn orAlu ea r s)

/-- OR.L Dy,<ea>x (R155) -/
def execOrDnEa (r : Reg) (ea : Ea) (s : State) : Host.Outcome State Fault Refusal :=
  finish s (1 + ea.extWords .L) (aluToEa orAlu (s.dreg r) ea s)

/-- ORI.L #<data>,Dx (R156) -/
def execOri (v : Word) (r : Reg) (s : State) : Host.Outcome State Fault Refusal :=
  finish s 3 (.ok (aluReg orAlu v r s))

end Sys2Proof.Machine
end

