-- ==== Sys2Proof/Machine/MulDiv.lean ====
section
/-! DEFINITION. The meanings of 46_multiply_divide.md: DIVS, DIVU, MULS, MULU in their word and long forms, REMS.L, REMU.L. -/

namespace Sys2Proof.Machine

/-- The low word of a value, as a 16-bit vector. -/
def lowWord (v : Word) : Word16 := v.setWidth 16

/-- The multiplies: the product replaces Dx, the flags are the 32-bit result's (R234 to R237). -/
def multiply (size : Size) (f : Word → Word → Word) (ea : Ea) (r : Reg) (s : State) : Result State := do
  let (v, s1) ← readEa size ea s
  let p := f (s1.dreg r) v
  .ok ((s1.setD r p).setCcr (logicFlags .L p s1.ccr))

/-- The exact 16 x 16 product of the low words, signed (R234). -/
def mulsWord (d v : Word) : Word := BitVec.ofInt 32 ((lowWord d).toInt * (lowWord v).toInt)
/-- The exact 16 x 16 product of the low words, unsigned (R236). -/
def muluWord (d v : Word) : Word := BitVec.ofNat 32 ((lowWord d).toNat * (lowWord v).toNat)
/-- The low 32 bits of the signed product (R235). -/
def mulsLong (d v : Word) : Word := BitVec.ofInt 32 (d.toInt * v.toInt)
/-- The low 32 bits of the unsigned product (R237). -/
def muluLong (d v : Word) : Word := BitVec.ofNat 32 (d.toNat * v.toNat)

/-- What a division gives where its quotient fits: the value written and N and Z. -/
structure Quotient where
  value : Word
  n : Bool
  z : Bool
deriving DecidableEq, Repr

/-- A quotient that overflows sets V, clears C and writes no register; N and Z are cleared or free by
`DivOverflowNZ` (R230, R240, U12; log 23). -/
def divideOverflow (s : State) : State :=
  match s.config.divOverflowNZ with
  | .cleared => s.setCcr { x := s.ccr.x, n := false, z := false, v := true, c := false }
  | .any => (s.spend 2).setCcr { x := s.ccr.x, n := s.freeBit 0, z := s.freeBit 1, v := true, c := false }

/-- The divides and remainders: the source is read; a zero divisor raises DivideByZero before anything is written; `f`
gives the quotient of the dividend `D[x]` by the source, or none where it overflows; `D[w]` is written (R230 to R233,
R238, R239). -/
def divide (size : Size) (f : Config → Word → Word → Option Quotient) (ea : Ea) (w x : Reg) (s : State) :
    Result State := do
  let (v, s1) ← readEa size ea s
  if v = 0 then .error (.raised .divideByZero s1)
  else match f s1.config (s1.dreg x) v with
    | none => .ok (divideOverflow s1)
    | some q => .ok ((s1.setD w q.value).setCcr { x := s1.ccr.x, n := q.n, z := q.z, v := false, c := false })

/-- DIVS.W: 32 by 16, truncated toward zero, remainder in the upper word (R230). -/
def divsWord (_ : Config) (d v : Word) : Option Quotient :=
  let n := d.toInt
  let m := (lowWord v).toInt
  let q := n.tdiv m
  if q < -32768 ∨ 32767 < q then none
  else some ⟨BitVec.ofInt 16 (n.tmod m) ++ BitVec.ofInt 16 q, q < 0, q = 0⟩

/-- DIVU.W: 32 by 16, remainder in the upper word (R232). -/
def divuWord (_ : Config) (d v : Word) : Option Quotient :=
  let n := d.toNat
  let m := (lowWord v).toNat
  let q := n / m
  if 65535 < q then none
  else some ⟨BitVec.ofNat 16 (n % m) ++ BitVec.ofNat 16 q, (BitVec.ofNat 16 q).msb, q = 0⟩

/-- DIVS.L: 32 by 32, the remainder discarded (R231). -/
def divsLong (_ : Config) (d v : Word) : Option Quotient :=
  let q := d.toInt.tdiv v.toInt
  if 2147483647 < q then none else some ⟨BitVec.ofInt 32 q, q < 0, q = 0⟩

/-- DIVU.L: 32 by 32; no overflow is possible (R233). -/
def divuLong (_ : Config) (d v : Word) : Option Quotient :=
  let q := d.toNat / v.toNat
  some ⟨BitVec.ofNat 32 q, (BitVec.ofNat 32 q).msb, q = 0⟩

/-- REMS.L: the remainder of DIVS.L; N and Z by `RemFlags` (R238). -/
def remsLong (c : Config) (d v : Word) : Option Quotient :=
  let q := d.toInt.tdiv v.toInt
  let m := d.toInt.tmod v.toInt
  if 2147483647 < q then none
  else match c.remFlags with
    | .quotient => some ⟨BitVec.ofInt 32 m, q < 0, q = 0⟩
    | .remainder => some ⟨BitVec.ofInt 32 m, m < 0, m = 0⟩

/-- REMU.L: the remainder of DIVU.L; N and Z by `RemFlags` (R239). -/
def remuLong (c : Config) (d v : Word) : Option Quotient :=
  let q := d.toNat / v.toNat
  let m := d.toNat % v.toNat
  match c.remFlags with
  | .quotient => some ⟨BitVec.ofNat 32 m, (BitVec.ofNat 32 q).msb, q = 0⟩
  | .remainder => some ⟨BitVec.ofNat 32 m, (BitVec.ofNat 32 m).msb, m = 0⟩

/-- DIVS.W <ea>y,Dx (R230) -/
def execDivsW (ea : Ea) (r : Reg) (s : State) : Host.Outcome State Fault Refusal :=
  finish s (1 + ea.extWords .W) (divide .W divsWord ea r r s)

/-- DIVS.L <ea>y,Dx (R231) -/
def execDivsL (ea : Ea) (r : Reg) (s : State) : Host.Outcome State Fault Refusal :=
  finish s (2 + ea.extWords .L) (divide .L divsLong ea r r s)

/-- DIVU.W <ea>y,Dx (R232) -/
def execDivuW (ea : Ea) (r : Reg) (s : State) : Host.Outcome State Fault Refusal :=
  finish s (1 + ea.extWords .W) (divide .W divuWord ea r r s)

/-- DIVU.L <ea>y,Dx (R233) -/
def execDivuL (ea : Ea) (r : Reg) (s : State) : Host.Outcome State Fault Refusal :=
  finish s (2 + ea.extWords .L) (divide .L divuLong ea r r s)

/-- MULS.W <ea>y,Dx (R234) -/
def execMulsW (ea : Ea) (r : Reg) (s : State) : Host.Outcome State Fault Refusal :=
  finish s (1 + ea.extWords .W) (multiply .W mulsWord ea r s)

/-- MULS.L <ea>y,Dx (R235) -/
def execMulsL (ea : Ea) (r : Reg) (s : State) : Host.Outcome State Fault Refusal :=
  finish s (2 + ea.extWords .L) (multiply .L mulsLong ea r s)

/-- MULU.W <ea>y,Dx (R236) -/
def execMuluW (ea : Ea) (r : Reg) (s : State) : Host.Outcome State Fault Refusal :=
  finish s (1 + ea.extWords .W) (multiply .W muluWord ea r s)

/-- MULU.L <ea>y,Dx (R237) -/
def execMuluL (ea : Ea) (r : Reg) (s : State) : Host.Outcome State Fault Refusal :=
  finish s (2 + ea.extWords .L) (multiply .L muluLong ea r s)

/-- REMS.L <ea>y,Dw:Dx (R238) -/
def execRemsL (ea : Ea) (w x : Reg) (s : State) : Host.Outcome State Fault Refusal :=
  finish s (2 + ea.extWords .L) (divide .L remsLong ea w x s)

/-- REMU.L <ea>y,Dw:Dx (R239) -/
def execRemuL (ea : Ea) (w x : Reg) (s : State) : Host.Outcome State Fault Refusal :=
  finish s (2 + ea.extWords .L) (divide .L remuLong ea w x s)

end Sys2Proof.Machine
end

