-- ==== Sys2Proof/Machine/Shift.lean ====
section
/-! DEFINITION. The meanings of 42_shift.md: ASL, ASR, LSL, LSR, all of size L, each with an immediate and a register count. -/

namespace Sys2Proof.Machine

/-- A shift function: from operand and count to the result and the last bit shifted out. -/
abbrev Shifter := Word → Nat → Word × Bool

/-- Left, arithmetic and logical alike (R166, R168): for a count above 32 the bit is 0. -/
def shiftLeft : Shifter := fun d n => (d <<< n, decide (n ≤ 32) && d.getLsbD (32 - n))

/-- Right, with copies of the sign bit (R167): from 32 on, all of the result and the bit are copies of it. -/
def shiftRightArith : Shifter := fun d n => (d.sshiftRight n, if n ≤ 31 then d.getLsbD (n - 1) else d.msb)

/-- Right, with zeros (R169): for a count above 32 the bit is 0. -/
def shiftRightLogical : Shifter := fun d n => (d >>> n, d.getLsbD (n - 1))

/-- The count a register gives: its value modulo 64 (R165). -/
def registerCount (v : Word) : Nat := v.toNat % 64

/-- What the shifts have in common (R165): C and X receive the last bit shifted out; a count of 0 clears C and leaves X;
V is cleared; N and Z are the result's. -/
def shiftDn (f : Shifter) (n : Nat) (r : Reg) (s : State) : State :=
  let p := if n = 0 then (s.dreg r, false) else f (s.dreg r) n
  let x := if n = 0 then s.ccr.x else p.2
  (s.setD r p.1).setCcr { x := x, n := p.1.msb, z := p.1 = 0, v := false, c := p.2 }

/-- ASR.L #<data>,Dx (R167) -/
def execAsrImm (c : BitVec 3) (r : Reg) (s : State) : Host.Outcome State Fault Refusal :=
  finish s 1 (.ok (shiftDn shiftRightArith (quickValue c) r s))

/-- ASR.L Dy,Dx (R167) -/
def execAsrReg (y x : Reg) (s : State) : Host.Outcome State Fault Refusal :=
  finish s 1 (.ok (shiftDn shiftRightArith (registerCount (s.dreg y)) x s))

/-- ASL.L #<data>,Dx (R166) -/
def execAslImm (c : BitVec 3) (r : Reg) (s : State) : Host.Outcome State Fault Refusal :=
  finish s 1 (.ok (shiftDn shiftLeft (quickValue c) r s))

/-- ASL.L Dy,Dx (R166) -/
def execAslReg (y x : Reg) (s : State) : Host.Outcome State Fault Refusal :=
  finish s 1 (.ok (shiftDn shiftLeft (registerCount (s.dreg y)) x s))

/-- LSR.L #<data>,Dx (R169) -/
def execLsrImm (c : BitVec 3) (r : Reg) (s : State) : Host.Outcome State Fault Refusal :=
  finish s 1 (.ok (shiftDn shiftRightLogical (quickValue c) r s))

/-- LSR.L Dy,Dx (R169) -/
def execLsrReg (y x : Reg) (s : State) : Host.Outcome State Fault Refusal :=
  finish s 1 (.ok (shiftDn shiftRightLogical (registerCount (s.dreg y)) x s))

/-- LSL.L #<data>,Dx (R168) -/
def execLslImm (c : BitVec 3) (r : Reg) (s : State) : Host.Outcome State Fault Refusal :=
  finish s 1 (.ok (shiftDn shiftLeft (quickValue c) r s))

/-- LSL.L Dy,Dx (R168) -/
def execLslReg (y x : Reg) (s : State) : Host.Outcome State Fault Refusal :=
  finish s 1 (.ok (shiftDn shiftLeft (registerCount (s.dreg y)) x s))

end Sys2Proof.Machine
end

