-- ==== Sys2Proof/Machine/SystemOps.lean ====
section
/-! DEFINITION. The meanings of 47_system.md: NOP and TRAP. -/

namespace Sys2Proof.Machine

/-- NOP (R245): nothing but the pc changes. -/
def execNop (s : State) : Host.Outcome State Fault Refusal := finish s 1 (.ok s)

/-- TRAP #<vector> (R246): the trap exception of its number is raised. -/
def execTrap (v : BitVec 4) (s : State) : Host.Outcome State Fault Refusal := finishAt s (.error (.raised (.trap v) s))

end Sys2Proof.Machine
end

