-- ==== Sys2Proof/Machine/Dispatch.lean ====
section
/-! DEFINITION. One arm for each instruction, each a direct call of its meaning. -/

namespace Sys2Proof.Machine

def exec (i : Instr) (s : State) : Host.Outcome State Fault Refusal :=
  match i with
  -- integer arithmetic (40_integer_arithmetic.md)
  | .addEaDn ea r => Sys2Proof.Machine.execAddEaDn ea r s
  | .addDnEa r ea => Sys2Proof.Machine.execAddDnEa r ea s
  | .adda ea r => Sys2Proof.Machine.execAdda ea r s
  | .addi v r => Sys2Proof.Machine.execAddi v r s
  | .addq q ea => Sys2Proof.Machine.execAddq q ea s
  | .addx y x => Sys2Proof.Machine.execAddx y x s
  | .cmp ea r => Sys2Proof.Machine.execCmp ea r s
  | .cmpa ea r => Sys2Proof.Machine.execCmpa ea r s
  | .cmpi v r => Sys2Proof.Machine.execCmpi v r s
  | .neg r => Sys2Proof.Machine.execNeg r s
  | .negx r => Sys2Proof.Machine.execNegx r s
  | .subEaDn ea r => Sys2Proof.Machine.execSubEaDn ea r s
  | .subDnEa r ea => Sys2Proof.Machine.execSubDnEa r ea s
  | .suba ea r => Sys2Proof.Machine.execSuba ea r s
  | .subi v r => Sys2Proof.Machine.execSubi v r s
  | .subq q ea => Sys2Proof.Machine.execSubq q ea s
  | .subx y x => Sys2Proof.Machine.execSubx y x s
  -- logic (41_logical.md)
  | .andEaDn ea r => Sys2Proof.Machine.execAndEaDn ea r s
  | .andDnEa r ea => Sys2Proof.Machine.execAndDnEa r ea s
  | .andi v r => Sys2Proof.Machine.execAndi v r s
  | .eor r ea => Sys2Proof.Machine.execEor r ea s
  | .eori v r => Sys2Proof.Machine.execEori v r s
  | .notDn r => Sys2Proof.Machine.execNotDn r s
  | .orEaDn ea r => Sys2Proof.Machine.execOrEaDn ea r s
  | .orDnEa r ea => Sys2Proof.Machine.execOrDnEa r ea s
  | .ori v r => Sys2Proof.Machine.execOri v r s
  -- shifts (42_shift.md); an immediate count as its 3-bit field (R87: 000 means 8)
  | .asrImm c r => Sys2Proof.Machine.execAsrImm c r s
  | .asrReg y x => Sys2Proof.Machine.execAsrReg y x s
  | .aslImm c r => Sys2Proof.Machine.execAslImm c r s
  | .aslReg y x => Sys2Proof.Machine.execAslReg y x s
  | .lsrImm c r => Sys2Proof.Machine.execLsrImm c r s
  | .lsrReg y x => Sys2Proof.Machine.execLsrReg y x s
  | .lslImm c r => Sys2Proof.Machine.execLslImm c r s
  | .lslReg y x => Sys2Proof.Machine.execLslReg y x s
  -- control transfer (43_control_transfer.md)
  | .bra d => Sys2Proof.Machine.execBra d s
  | .bsr d => Sys2Proof.Machine.execBsr d s
  | .bcc cc d => Sys2Proof.Machine.execBcc cc d s
  | .jmp ea => Sys2Proof.Machine.execJmp ea s
  | .jsr ea => Sys2Proof.Machine.execJsr ea s
  | .rts => Sys2Proof.Machine.execRts s
  -- bit manipulation (44_bit_manipulation.md)
  | .btstReg y ea => Sys2Proof.Machine.execBtstReg y ea s
  | .btstImm n ea => Sys2Proof.Machine.execBtstImm n ea s
  | .bchgReg y ea => Sys2Proof.Machine.execBchgReg y ea s
  | .bchgImm n ea => Sys2Proof.Machine.execBchgImm n ea s
  | .bclrReg y ea => Sys2Proof.Machine.execBclrReg y ea s
  | .bclrImm n ea => Sys2Proof.Machine.execBclrImm n ea s
  | .bsetReg y ea => Sys2Proof.Machine.execBsetReg y ea s
  | .bsetImm n ea => Sys2Proof.Machine.execBsetImm n ea s
  -- data movement, extension, test and set (45_data_movement.md)
  | .clrB ea => Sys2Proof.Machine.execClrB ea s
  | .clrW ea => Sys2Proof.Machine.execClrW ea s
  | .clrL ea => Sys2Proof.Machine.execClrL ea s
  | .extW r => Sys2Proof.Machine.execExtW r s
  | .extL r => Sys2Proof.Machine.execExtL r s
  | .extbL r => Sys2Proof.Machine.execExtbL r s
  | .lea ea r => Sys2Proof.Machine.execLea ea r s
  | .link r d16 => Sys2Proof.Machine.execLink r d16 s
  | .moveB src dst => Sys2Proof.Machine.execMoveB src dst s
  | .moveW src dst => Sys2Proof.Machine.execMoveW src dst s
  | .moveL src dst => Sys2Proof.Machine.execMoveL src dst s
  | .moveaW src r => Sys2Proof.Machine.execMoveaW src r s
  | .moveaL src r => Sys2Proof.Machine.execMoveaL src r s
  | .moveFromCcr r => Sys2Proof.Machine.execMoveFromCcr r s
  | .moveToCcr src => Sys2Proof.Machine.execMoveToCcr src s
  | .movemStore mask ea => Sys2Proof.Machine.execMovemStore mask ea s
  | .movemLoad mask ea => Sys2Proof.Machine.execMovemLoad mask ea s
  | .moveq v r => Sys2Proof.Machine.execMoveq v r s
  | .pea ea => Sys2Proof.Machine.execPea ea s
  | .scc cc r => Sys2Proof.Machine.execScc cc r s
  | .swap r => Sys2Proof.Machine.execSwap r s
  | .tstB ea => Sys2Proof.Machine.execTstB ea s
  | .tstW ea => Sys2Proof.Machine.execTstW ea s
  | .tstL ea => Sys2Proof.Machine.execTstL ea s
  | .unlk r => Sys2Proof.Machine.execUnlk r s
  -- multiply, divide, remainder (46_multiply_divide.md)
  | .divsW ea r => Sys2Proof.Machine.execDivsW ea r s
  | .divsL ea r => Sys2Proof.Machine.execDivsL ea r s
  | .divuW ea r => Sys2Proof.Machine.execDivuW ea r s
  | .divuL ea r => Sys2Proof.Machine.execDivuL ea r s
  | .mulsW ea r => Sys2Proof.Machine.execMulsW ea r s
  | .mulsL ea r => Sys2Proof.Machine.execMulsL ea r s
  | .muluW ea r => Sys2Proof.Machine.execMuluW ea r s
  | .muluL ea r => Sys2Proof.Machine.execMuluL ea r s
  | .remsL ea w x => Sys2Proof.Machine.execRemsL ea w x s
  | .remuL ea w x => Sys2Proof.Machine.execRemuL ea w x s
  -- system (47_system.md)
  | .nop => Sys2Proof.Machine.execNop s
  | .trap v => Sys2Proof.Machine.execTrap v s

end Sys2Proof.Machine
end

