-- ==== Sys2Proof/WellFormed.lean ====
section
/-! DEFINITION. Which terms of `Instr` are instructions of the card: the addressing mode is in the class the
instruction allows (R68), a MOVE pair is in the table of R208, an immediate fits its size (R86), a branch has a
displacement and a condition R88 and R175 allow, a remainder register differs from the dividend's (R93). -/

namespace Sys2Proof

/-- The well-formed instructions: those that some encoding of R95 gives. -/
def Instr.wf : Instr → Bool
  | .addEaDn ea _ => ea.ok .all .L
  | .addDnEa _ ea => ea.ok .memoryAlterable .L
  | .adda ea _ => ea.ok .all .L
  | .addi _ _ => true
  | .addq _ ea => ea.ok .alterable .L
  | .addx _ _ => true
  | .cmp ea _ => ea.ok .all .L
  | .cmpa ea _ => ea.ok .all .L
  | .cmpi _ _ => true
  | .neg _ => true
  | .negx _ => true
  | .subEaDn ea _ => ea.ok .all .L
  | .subDnEa _ ea => ea.ok .memoryAlterable .L
  | .suba ea _ => ea.ok .all .L
  | .subi _ _ => true
  | .subq _ ea => ea.ok .alterable .L
  | .subx _ _ => true
  | .andEaDn ea _ => ea.ok .data .L
  | .andDnEa _ ea => ea.ok .memoryAlterable .L
  | .andi _ _ => true
  | .eor _ ea => ea.ok .dataAlterable .L
  | .eori _ _ => true
  | .notDn _ => true
  | .orEaDn ea _ => ea.ok .data .L
  | .orDnEa _ ea => ea.ok .memoryAlterable .L
  | .ori _ _ => true
  | .asrImm _ _ => true
  | .asrReg _ _ => true
  | .aslImm _ _ => true
  | .aslReg _ _ => true
  | .lsrImm _ _ => true
  | .lsrReg _ _ => true
  | .lslImm _ _ => true
  | .lslReg _ _ => true
  | .bra d => d.ok
  | .bsr d => d.ok
  | .bcc cc d => d.ok && cc ≠ .T && cc ≠ .F
  | .jmp ea => ea.ok .control .L
  | .jsr ea => ea.ok .control .L
  | .rts => true
  | .btstReg _ ea => ea.ok .dataAlterable .B
  | .btstImm _ ea => ea.ok .short .B
  | .bchgReg _ ea => ea.ok .dataAlterable .B
  | .bchgImm _ ea => ea.ok .short .B
  | .bclrReg _ ea => ea.ok .dataAlterable .B
  | .bclrImm _ ea => ea.ok .short .B
  | .bsetReg _ ea => ea.ok .dataAlterable .B
  | .bsetImm _ ea => ea.ok .short .B
  | .clrB ea => ea.ok .dataAlterable .B
  | .clrW ea => ea.ok .dataAlterable .W
  | .clrL ea => ea.ok .dataAlterable .L
  | .extW _ => true
  | .extL _ => true
  | .extbL _ => true
  | .lea ea _ => ea.ok .control .L
  | .link _ _ => true
  | .moveB src dst => src.ok (sourceClass .B) .B && dst.ok .dataAlterable .B && movePair src.kind dst.kind
  | .moveW src dst => src.ok (sourceClass .W) .W && dst.ok .dataAlterable .W && movePair src.kind dst.kind
  | .moveL src dst => src.ok (sourceClass .L) .L && dst.ok .dataAlterable .L && movePair src.kind dst.kind
  | .moveaW src _ => src.ok (sourceClass .W) .W
  | .moveaL src _ => src.ok (sourceClass .L) .L
  | .moveFromCcr _ => true
  | .moveToCcr src => src.ok .ccrSource .W
  | .movemStore _ ea => ea.ok .movem .L
  | .movemLoad _ ea => ea.ok .movem .L
  | .moveq _ _ => true
  | .pea ea => ea.ok .control .L
  | .scc _ _ => true
  | .swap _ => true
  | .tstB ea => ea.ok (sourceClass .B) .B
  | .tstW ea => ea.ok (sourceClass .W) .W
  | .tstL ea => ea.ok (sourceClass .L) .L
  | .unlk _ => true
  | .divsW ea _ => ea.ok .data .W
  | .divsL ea _ => ea.ok .short .L
  | .divuW ea _ => ea.ok .data .W
  | .divuL ea _ => ea.ok .short .L
  | .mulsW ea _ => ea.ok .data .W
  | .mulsL ea _ => ea.ok .short .L
  | .muluW ea _ => ea.ok .data .W
  | .muluL ea _ => ea.ok .short .L
  | .remsL ea w x => ea.ok .short .L && w ≠ x
  | .remuL ea w x => ea.ok .short .L && w ≠ x
  | .nop => true
  | .trap _ => true

end Sys2Proof
end

