-- ==== Sys2Proof/Decode.lean ====
section
/-! DEFINITION. The decoder, total on any words and bytes, and after it the encoder, both written from the opcode map of
R95 with the fields of R81 to R94. A word the map does not list, an addressing mode outside the row's class, a MOVE pair
outside R208 and a second word with a reserved bit are rejected by name (R97); so is an instruction whose words are not
all there, `truncated`, which the fetch of R82 uses to take one word at a time. -/

namespace Sys2Proof

/-- Why words are no instruction. -/
inductive DecodeError where
  /-- More words are needed. -/
  | truncated
  /-- The opword matches no row of R95, or its mode is outside the row's class, or the MOVE pair is outside R208, or a
  branch has displacement byte 0xFF (R88, R96, R97). -/
  | undecodedOpword
  /-- The index word has W/L = 0, scale 11 or bit 8 set (R84). -/
  | reservedIndexWord
  /-- The bit-number word has one of bits 15..8 set (R94). -/
  | reservedBitNumberWord
  /-- The second word of a long multiply, divide or remainder has another pattern than R93 lists. -/
  | reservedLongWord
deriving DecidableEq, Repr

/-! ### The fields of an opword (R81, R83) -/

/-- Bits 15..12. -/
def opNibble (w : Word16) : BitVec 4 := w.extractLsb' 12 4
/-- Bits 11..9. -/
def opReg (w : Word16) : BitVec 3 := w.extractLsb' 9 3
/-- Bits 8..6. -/
def opMode (w : Word16) : BitVec 3 := w.extractLsb' 6 3
/-- Bits 5..3, the EA mode. -/
def opEaMode (w : Word16) : BitVec 3 := w.extractLsb' 3 3
/-- Bits 2..0, the EA register. -/
def opEaReg (w : Word16) : BitVec 3 := w.extractLsb' 0 3
/-- Bits 11..8, the condition (R89). -/
def opCond (w : Word16) : BitVec 4 := w.extractLsb' 8 4
/-- Bits 7..0, the data of MOVEQ and the displacement of a branch (R87, R88). -/
def opByte (w : Word16) : BitVec 8 := w.extractLsb' 0 8

/-- A register field as a register number. -/
def regOf (b : BitVec 3) : Reg := b.toFin

/-- A register number as a register field. -/
def regBits (r : Reg) : BitVec 3 := BitVec.ofFin r

/-! ### Extension words (R82, R84 to R86) -/

/-- The next word of the instruction. -/
def nextWord : List Word16 → Except DecodeError (Word16 × List Word16)
  | [] => .error .truncated
  | w :: ws => .ok (w, ws)

/-- Two words, the upper one first (R65, R86). -/
def nextLong (ws : List Word16) : Except DecodeError (Word × List Word16) := do
  let (hi, ws) ← nextWord ws
  let (lo, ws) ← nextWord ws
  .ok (hi ++ lo, ws)

/-- The scale field of an index word; 11 is reserved (R84). -/
def scaleOf (b : BitVec 2) : Option Scale :=
  match b.toNat with
  | 0 => some .x1
  | 1 => some .x2
  | 2 => some .x4
  | _ => none

/-- The scale field of a scale (R84). -/
def scaleBits : Scale → BitVec 2
  | .x1 => 0
  | .x2 => 1
  | .x4 => 2

/-- An index word, or the refusal of a reserved one (R84). -/
def decodeIndexWord (w : Word16) : Except DecodeError IndexWord :=
  if w.getLsbD 11 && !w.getLsbD 8 then
    match scaleOf (w.extractLsb' 9 2) with
    | some sc => .ok ⟨w.getLsbD 15, regOf (w.extractLsb' 12 3), sc, w.extractLsb' 0 8⟩
    | none => .error .reservedIndexWord
  else .error .reservedIndexWord

/-- The addressing mode of a mode and a register field (R60); mode 111 has five register values. -/
def eaKindOf (m e : BitVec 3) : Option EaKind :=
  match m.toNat with
  | 0 => some .dn
  | 1 => some .an
  | 2 => some .ind
  | 3 => some .postinc
  | 4 => some .predec
  | 5 => some .disp
  | 6 => some .index
  | _ => match e.toNat with
    | 0 => some .absW
    | 1 => some .absL
    | 2 => some .pcDisp
    | 3 => some .pcIndex
    | 4 => some .imm
    | _ => none

/-- The addressing mode of the fields, if the class of the instruction allows it (R68, R97). -/
def eaKindIn (c : EaClass) (m e : BitVec 3) : Except DecodeError EaKind :=
  match eaKindOf m e with
  | some k => if c.allows k then .ok k else .error .undecodedOpword
  | none => .error .undecodedOpword

/-- The operand of a mode, with its extension words (R85, R86). -/
def eaOperand (size : Size) (k : EaKind) (e : BitVec 3) (ws : List Word16) : Except DecodeError (Ea × List Word16) :=
  match k with
  | .dn => .ok (.dn (regOf e), ws)
  | .an => .ok (.an (regOf e), ws)
  | .ind => .ok (.ind (regOf e), ws)
  | .postinc => .ok (.postinc (regOf e), ws)
  | .predec => .ok (.predec (regOf e), ws)
  | .disp => do
    let (d, ws) ← nextWord ws
    .ok (.disp (regOf e) d, ws)
  | .index => do
    let (w, ws) ← nextWord ws
    let x ← decodeIndexWord w
    .ok (.index (regOf e) x, ws)
  | .pcDisp => do
    let (d, ws) ← nextWord ws
    .ok (.pcDisp d, ws)
  | .pcIndex => do
    let (w, ws) ← nextWord ws
    let x ← decodeIndexWord w
    .ok (.pcIndex x, ws)
  | .absW => do
    let (a, ws) ← nextWord ws
    .ok (.absW a, ws)
  | .absL => do
    let (a, ws) ← nextLong ws
    .ok (.absL a, ws)
  | .imm => match size with
    | .B => do
      let (w, ws) ← nextWord ws
      .ok (.imm ((w.setWidth 8).setWidth 32), ws)
    | .W => do
      let (w, ws) ← nextWord ws
      .ok (.imm (w.setWidth 32), ws)
    | .L => do
      let (v, ws) ← nextLong ws
      .ok (.imm v, ws)

/-! ### The formats of R81 -/

/-- What a decoder answers: the instruction and the words after it. -/
abbrev Decoded := Except DecodeError (Instr × List Word16)

/-- One effective address in bits 5..0, of a class and an operand size (R83). -/
def withEa (c : EaClass) (size : Size) (w : Word16) (ws : List Word16) (f : Ea → Instr) : Decoded := do
  let k ← eaKindIn c (opEaMode w) (opEaReg w)
  let (ea, ws) ← eaOperand size k (opEaReg w) ws
  .ok (f ea, ws)

/-- IMM32_DN: a long immediate in two words, the register in bits 2..0. -/
def withImm32 (w : Word16) (ws : List Word16) (f : Word → Reg → Instr) : Decoded := do
  let (v, ws) ← nextLong ws
  .ok (f v (regOf (opEaReg w)), ws)

/-- BIT_IMM: the bit-number word, then the effective address (R82, R94). -/
def withBitNumber (w : Word16) (ws : List Word16) (f : BitVec 8 → Ea → Instr) : Decoded := do
  let k ← eaKindIn .short (opEaMode w) (opEaReg w)
  let (n, ws) ← nextWord ws
  let (ea, ws) ← eaOperand .B k (opEaReg w) ws
  if n.extractLsb' 8 8 = 0 then .ok (f (n.extractLsb' 0 8) ea, ws) else .error .reservedBitNumberWord

/-- LONG_MULDIV: the second word, then the effective address (R82). -/
def withLongWord (w : Word16) (ws : List Word16) (f : Word16 → Ea → Except DecodeError Instr) : Decoded := do
  let k ← eaKindIn .short (opEaMode w) (opEaReg w)
  let (w2, ws) ← nextWord ws
  let (ea, ws) ← eaOperand .L k (opEaReg w) ws
  let i ← f w2 ea
  .ok (i, ws)

/-- The second word of the long multiply (R93, R241). -/
def longMultiply (w2 : Word16) (ea : Ea) : Except DecodeError Instr :=
  let x := regOf (w2.extractLsb' 12 3)
  if w2.getLsbD 15 || w2.extractLsb' 0 11 ≠ 0 then .error .reservedLongWord
  else .ok (if w2.getLsbD 11 then .mulsL ea x else .muluL ea x)

/-- The second word of the long divide and remainder (R93, R241): equal register fields are the divide. -/
def longDivide (w2 : Word16) (ea : Ea) : Except DecodeError Instr :=
  let x := regOf (w2.extractLsb' 12 3)
  let d := regOf (w2.extractLsb' 0 3)
  if w2.getLsbD 15 || w2.extractLsb' 3 8 ≠ 0 then .error .reservedLongWord
  else if d = x then .ok (if w2.getLsbD 11 then .divsL ea x else .divuL ea x)
  else .ok (if w2.getLsbD 11 then .remsL ea d x else .remuL ea d x)

/-- DN_ONLY: EA mode 000 fixed, the register in bits 2..0. -/
def withDn (w : Word16) (ws : List Word16) (f : Reg → Instr) : Decoded :=
  if opEaMode w = 0 then .ok (f (regOf (opEaReg w)), ws) else .error .undecodedOpword

/-- MOVEM: the mask word, then the effective address (R92). -/
def withMask (w : Word16) (ws : List Word16) (f : BitVec 16 → Ea → Instr) : Decoded := do
  let k ← eaKindIn .movem (opEaMode w) (opEaReg w)
  let (mask, ws) ← nextWord ws
  let (ea, ws) ← eaOperand .L k (opEaReg w) ws
  .ok (f mask ea, ws)

/-- BRANCH: a byte displacement, a word displacement where the byte is 0x00; 0xFF is refused (R88). -/
def withBranch (w : Word16) (ws : List Word16) (f : BranchDisp → Instr) : Decoded :=
  if opByte w = 0 then do
    let (d, ws) ← nextWord ws
    .ok (f (.word d), ws)
  else if opByte w = 0xFF then .error .undecodedOpword
  else .ok (f (.byte (opByte w)), ws)

/-- The destination modes of MOVE and MOVEA together: the alterable ones, but no byte goes to An (R206, R207). -/
def destClass : Size → EaClass
  | .B => .dataAlterable
  | .W => .alterable
  | .L => .alterable

/-- MOVE and MOVEA (R83, R206 to R208): source words before destination words (R82). -/
def decodeMove (size : Size) (w : Word16) (ws : List Word16) : Decoded := do
  let src ← eaKindIn (sourceClass size) (opEaMode w) (opEaReg w)
  let dst ← eaKindIn (destClass size) (opMode w) (opReg w)
  if movePair src dst then
    let (s, ws) ← eaOperand size src (opEaReg w) ws
    let (d, ws) ← eaOperand size dst (opReg w) ws
    match size, d with
    | .B, .an _ => .error .undecodedOpword
    | .W, .an r => .ok (.moveaW s r, ws)
    | .L, .an r => .ok (.moveaL s r, ws)
    | .B, d => .ok (.moveB s d, ws)
    | .W, d => .ok (.moveW s d, ws)
    | .L, d => .ok (.moveL s d, ws)
  else .error .undecodedOpword

/-- The opwords 0000: immediate and bit instructions. -/
def decode0 (w : Word16) (ws : List Word16) : Decoded :=
  let y := regOf (opReg w)
  match (opMode w).toNat with
  | 4 => withEa .dataAlterable .B w ws (.btstReg y)
  | 5 => withEa .dataAlterable .B w ws (.bchgReg y)
  | 6 => withEa .dataAlterable .B w ws (.bclrReg y)
  | 7 => withEa .dataAlterable .B w ws (.bsetReg y)
  | o => if opReg w = 4 then
      match o with
      | 0 => withBitNumber w ws .btstImm
      | 1 => withBitNumber w ws .bchgImm
      | 2 => withBitNumber w ws .bclrImm
      | _ => withBitNumber w ws .bsetImm
    else if o = 2 ∧ opEaMode w = 0 then
      match (opReg w).toNat with
      | 0 => withImm32 w ws .ori
      | 1 => withImm32 w ws .andi
      | 2 => withImm32 w ws .subi
      | 3 => withImm32 w ws .addi
      | 5 => withImm32 w ws .eori
      | 6 => withImm32 w ws .cmpi
      | _ => .error .undecodedOpword
    else .error .undecodedOpword

/-- The opwords 0100 1110 01: TRAP, LINK, UNLK, NOP, RTS. -/
def decodeMisc (w : Word16) (ws : List Word16) : Decoded :=
  match (opEaMode w).toNat with
  | 0 | 1 => .ok (.trap (w.extractLsb' 0 4), ws)
  | 2 => do
    let (d, ws) ← nextWord ws
    .ok (.link (regOf (opEaReg w)) d, ws)
  | 3 => .ok (.unlk (regOf (opEaReg w)), ws)
  | 6 => match (opEaReg w).toNat with
    | 1 => .ok (.nop, ws)
    | 5 => .ok (.rts, ws)
    | _ => .error .undecodedOpword
  | _ => .error .undecodedOpword

/-- The opwords 0100. -/
def decode4 (w : Word16) (ws : List Word16) : Decoded :=
  match (opReg w).toNat, (opMode w).toNat with
  | 4, 7 => if opEaMode w = 0 then withDn w ws .extbL else withEa .control .L w ws (.lea · 4)
  | _, 7 => withEa .control .L w ws (.lea · (regOf (opReg w)))
  | 0, 2 => withDn w ws .negx
  | 1, 0 => withEa .dataAlterable .B w ws .clrB
  | 1, 1 => withEa .dataAlterable .W w ws .clrW
  | 1, 2 => withEa .dataAlterable .L w ws .clrL
  | 1, 3 => withDn w ws .moveFromCcr
  | 2, 2 => withDn w ws .neg
  | 2, 3 => withEa .ccrSource .W w ws .moveToCcr
  | 3, 2 => withDn w ws .notDn
  | 4, 1 => if opEaMode w = 0 then withDn w ws .swap else withEa .control .L w ws .pea
  | 4, 2 => withDn w ws .extW
  | 4, 3 => if opEaMode w = 0 then withDn w ws .extL else withMask w ws .movemStore
  | 5, 0 => withEa (sourceClass .B) .B w ws .tstB
  | 5, 1 => withEa (sourceClass .W) .W w ws .tstW
  | 5, 2 => withEa (sourceClass .L) .L w ws .tstL
  | 6, 0 => withLongWord w ws longMultiply
  | 6, 1 => withLongWord w ws longDivide
  | 6, 3 => withMask w ws .movemLoad
  | 7, 1 => decodeMisc w ws
  | 7, 2 => withEa .control .L w ws .jsr
  | 7, 3 => withEa .control .L w ws .jmp
  | _, _ => .error .undecodedOpword

/-- The opwords 0101: ADDQ, SUBQ, Scc. -/
def decode5 (w : Word16) (ws : List Word16) : Decoded :=
  match (opMode w).toNat with
  | 2 => withEa .alterable .L w ws (.addq (opReg w))
  | 6 => withEa .alterable .L w ws (.subq (opReg w))
  | 3 | 7 => withDn w ws (.scc (Cond.ofBits (opCond w)))
  | _ => .error .undecodedOpword

/-- The opwords 0110: BRA, BSR, Bcc (R175 to R177). -/
def decode6 (w : Word16) (ws : List Word16) : Decoded :=
  match Cond.ofBits (opCond w) with
  | .T => withBranch w ws .bra
  | .F => withBranch w ws .bsr
  | cc => withBranch w ws (.bcc cc)

/-- The opwords 0111: MOVEQ. -/
def decode7 (w : Word16) (ws : List Word16) : Decoded :=
  if w.getLsbD 8 then .error .undecodedOpword else .ok (.moveq (opByte w) (regOf (opReg w)), ws)

/-- The opwords 1000: OR, DIVS.W, DIVU.W. -/
def decode8 (w : Word16) (ws : List Word16) : Decoded :=
  let r := regOf (opReg w)
  match (opMode w).toNat with
  | 2 => withEa .data .L w ws (.orEaDn · r)
  | 3 => withEa .data .W w ws (.divuW · r)
  | 6 => withEa .memoryAlterable .L w ws (.orDnEa r)
  | 7 => withEa .data .W w ws (.divsW · r)
  | _ => .error .undecodedOpword

/-- The opwords 1001: SUB, SUBX, SUBA. -/
def decode9 (w : Word16) (ws : List Word16) : Decoded :=
  let r := regOf (opReg w)
  match (opMode w).toNat with
  | 2 => withEa .all .L w ws (.subEaDn · r)
  | 6 => if opEaMode w = 0 then withDn w ws (.subx · r) else withEa .memoryAlterable .L w ws (.subDnEa r)
  | 7 => withEa .all .L w ws (.suba · r)
  | _ => .error .undecodedOpword

/-- The opwords 1011: CMP, EOR, CMPA. -/
def decodeB (w : Word16) (ws : List Word16) : Decoded :=
  let r := regOf (opReg w)
  match (opMode w).toNat with
  | 2 => withEa .all .L w ws (.cmp · r)
  | 6 => withEa .dataAlterable .L w ws (.eor r)
  | 7 => withEa .all .L w ws (.cmpa · r)
  | _ => .error .undecodedOpword

/-- The opwords 1100: AND, MULS.W, MULU.W. -/
def decodeC (w : Word16) (ws : List Word16) : Decoded :=
  let r := regOf (opReg w)
  match (opMode w).toNat with
  | 2 => withEa .data .L w ws (.andEaDn · r)
  | 3 => withEa .data .W w ws (.muluW · r)
  | 6 => withEa .memoryAlterable .L w ws (.andDnEa r)
  | 7 => withEa .data .W w ws (.mulsW · r)
  | _ => .error .undecodedOpword

/-- The opwords 1101: ADD, ADDX, ADDA. -/
def decodeD (w : Word16) (ws : List Word16) : Decoded :=
  let r := regOf (opReg w)
  match (opMode w).toNat with
  | 2 => withEa .all .L w ws (.addEaDn · r)
  | 6 => if opEaMode w = 0 then withDn w ws (.addx · r) else withEa .memoryAlterable .L w ws (.addDnEa r)
  | 7 => withEa .all .L w ws (.adda · r)
  | _ => .error .undecodedOpword

/-- The opwords 1110: shifts (R165): dr in bit 8, 10 in bits 7..6, ir in bit 5, the type in bits 4..3. -/
def decodeE (w : Word16) (ws : List Word16) : Decoded :=
  let c := opReg w
  let r := regOf (opEaReg w)
  match (opMode w).toNat, (opEaMode w).toNat with
  | 2, 0 => .ok (.asrImm c r, ws)
  | 2, 1 => .ok (.lsrImm c r, ws)
  | 2, 4 => .ok (.asrReg (regOf c) r, ws)
  | 2, 5 => .ok (.lsrReg (regOf c) r, ws)
  | 6, 0 => .ok (.aslImm c r, ws)
  | 6, 1 => .ok (.lslImm c r, ws)
  | 6, 4 => .ok (.aslReg (regOf c) r, ws)
  | 6, 5 => .ok (.lslReg (regOf c) r, ws)
  | _, _ => .error .undecodedOpword

/-- The decoder: the instruction at the head of a list of words, and the words after it (R95 to R97). -/
def decode : List Word16 → Decoded
  | [] => .error .truncated
  | w :: ws =>
    match (opNibble w).toNat with
    | 0 => decode0 w ws
    | 1 => decodeMove .B w ws
    | 2 => decodeMove .L w ws
    | 3 => decodeMove .W w ws
    | 4 => decode4 w ws
    | 5 => decode5 w ws
    | 6 => decode6 w ws
    | 7 => decode7 w ws
    | 8 => decode8 w ws
    | 9 => decode9 w ws
    | 11 => decodeB w ws
    | 12 => decodeC w ws
    | 13 => decodeD w ws
    | 14 => decodeE w ws
    | _ => .error .undecodedOpword

/-- The words of a list of bytes: bits 15..8 at the lower address (R41). An odd last byte is no word. -/
def wordsOfBytes : List Byte → List Word16
  | hi :: lo :: bs => (hi ++ lo) :: wordsOfBytes bs
  | _ => []

/-- The bytes of a list of words, in their order in memory (R41). -/
def bytesOfWords : List Word16 → List Byte
  | [] => []
  | w :: ws => w.extractLsb' 8 8 :: w.extractLsb' 0 8 :: bytesOfWords ws

/-- The decoder on bytes. -/
def decodeBytes (bs : List Byte) : Decoded := decode (wordsOfBytes bs)

/-! ### The encoder -/

/-- An opword from its five fields (R81). -/
def mkOp (n : BitVec 4) (r o m e : BitVec 3) : Word16 := n ++ r ++ o ++ m ++ e

/-- The mode field of an operand (R60). -/
def eaModeBits : Ea → BitVec 3
  | .dn _ => 0
  | .an _ => 1
  | .ind _ => 2
  | .postinc _ => 3
  | .predec _ => 4
  | .disp _ _ => 5
  | .index _ _ => 6
  | .pcDisp _ | .pcIndex _ | .absW _ | .absL _ | .imm _ => 7

/-- The register field of an operand (R60). -/
def eaRegBits : Ea → BitVec 3
  | .dn r | .an r | .ind r | .postinc r | .predec r | .disp r _ | .index r _ => regBits r
  | .absW _ => 0
  | .absL _ => 1
  | .pcDisp _ => 2
  | .pcIndex _ => 3
  | .imm _ => 4

/-- The index word of R84, its fixed bits W/L = 1 and bit 8 = 0. -/
def encodeIndexWord (x : IndexWord) : Word16 :=
  BitVec.ofBool x.isAddr ++ regBits x.reg ++ (1 : BitVec 1) ++ scaleBits x.scale ++ (0 : BitVec 1) ++ x.d8

/-- The two words of a long, the upper one first (R86). -/
def longWords (v : Word) : List Word16 := [v.extractLsb' 16 16, v.extractLsb' 0 16]

/-- The extension words of an operand (R85, R86). -/
def encodeEaWords (size : Size) : Ea → List Word16
  | .dn _ | .an _ | .ind _ | .postinc _ | .predec _ => []
  | .disp _ d => [d]
  | .index _ x => [encodeIndexWord x]
  | .pcDisp d => [d]
  | .pcIndex x => [encodeIndexWord x]
  | .absW a => [a]
  | .absL a => longWords a
  | .imm v => match size with
    | .B => [(v.extractLsb' 0 8).setWidth 16]
    | .W => [v.extractLsb' 0 16]
    | .L => longWords v

/-- An instruction whose one effective address stands in bits 5..0. -/
def encodeEa (n : BitVec 4) (r o : BitVec 3) (size : Size) (ea : Ea) : List Word16 :=
  mkOp n r o (eaModeBits ea) (eaRegBits ea) :: encodeEaWords size ea

/-- The same, with a second word before the extension words of the effective address (R82). -/
def encodeEa2 (n : BitVec 4) (r o : BitVec 3) (second : Word16) (size : Size) (ea : Ea) : List Word16 :=
  mkOp n r o (eaModeBits ea) (eaRegBits ea) :: second :: encodeEaWords size ea

/-- MOVE: the size nibble, the destination with the register first, the source (R83). -/
def encodeMove (n : BitVec 4) (size : Size) (src dst : Ea) : List Word16 :=
  mkOp n (eaRegBits dst) (eaModeBits dst) (eaModeBits src) (eaRegBits src) ::
    (encodeEaWords size src ++ encodeEaWords size dst)

/-- A branch: the condition, the byte or word displacement (R88). -/
def encodeBranch (cc : Cond) : BranchDisp → List Word16
  | .byte d => [(6 : BitVec 4) ++ cc.toBits ++ d]
  | .word d => [(6 : BitVec 4) ++ cc.toBits ++ (0 : BitVec 8), d]

/-- The bit-number word (R94). -/
def bitNumberWord (n : BitVec 8) : Word16 := (0 : BitVec 8) ++ n

/-- The second word of a long multiply, divide or remainder (R93). -/
def longWord (x : Reg) (signed : Bool) (w : BitVec 3) : Word16 :=
  (0 : BitVec 1) ++ regBits x ++ BitVec.ofBool signed ++ (0 : BitVec 8) ++ w

/-- The words of an instruction (R95). -/
def encode : Instr → List Word16
  | .addEaDn ea r => encodeEa 13 (regBits r) 2 .L ea
  | .addDnEa r ea => encodeEa 13 (regBits r) 6 .L ea
  | .adda ea r => encodeEa 13 (regBits r) 7 .L ea
  | .addi v r => mkOp 0 3 2 0 (regBits r) :: longWords v
  | .addq q ea => encodeEa 5 q 2 .L ea
  | .addx y x => [mkOp 13 (regBits x) 6 0 (regBits y)]
  | .cmp ea r => encodeEa 11 (regBits r) 2 .L ea
  | .cmpa ea r => encodeEa 11 (regBits r) 7 .L ea
  | .cmpi v r => mkOp 0 6 2 0 (regBits r) :: longWords v
  | .neg r => [mkOp 4 2 2 0 (regBits r)]
  | .negx r => [mkOp 4 0 2 0 (regBits r)]
  | .subEaDn ea r => encodeEa 9 (regBits r) 2 .L ea
  | .subDnEa r ea => encodeEa 9 (regBits r) 6 .L ea
  | .suba ea r => encodeEa 9 (regBits r) 7 .L ea
  | .subi v r => mkOp 0 2 2 0 (regBits r) :: longWords v
  | .subq q ea => encodeEa 5 q 6 .L ea
  | .subx y x => [mkOp 9 (regBits x) 6 0 (regBits y)]
  | .andEaDn ea r => encodeEa 12 (regBits r) 2 .L ea
  | .andDnEa r ea => encodeEa 12 (regBits r) 6 .L ea
  | .andi v r => mkOp 0 1 2 0 (regBits r) :: longWords v
  | .eor r ea => encodeEa 11 (regBits r) 6 .L ea
  | .eori v r => mkOp 0 5 2 0 (regBits r) :: longWords v
  | .notDn r => [mkOp 4 3 2 0 (regBits r)]
  | .orEaDn ea r => encodeEa 8 (regBits r) 2 .L ea
  | .orDnEa r ea => encodeEa 8 (regBits r) 6 .L ea
  | .ori v r => mkOp 0 0 2 0 (regBits r) :: longWords v
  | .asrImm c r => [mkOp 14 c 2 0 (regBits r)]
  | .asrReg y x => [mkOp 14 (regBits y) 2 4 (regBits x)]
  | .aslImm c r => [mkOp 14 c 6 0 (regBits r)]
  | .aslReg y x => [mkOp 14 (regBits y) 6 4 (regBits x)]
  | .lsrImm c r => [mkOp 14 c 2 1 (regBits r)]
  | .lsrReg y x => [mkOp 14 (regBits y) 2 5 (regBits x)]
  | .lslImm c r => [mkOp 14 c 6 1 (regBits r)]
  | .lslReg y x => [mkOp 14 (regBits y) 6 5 (regBits x)]
  | .bra d => encodeBranch .T d
  | .bsr d => encodeBranch .F d
  | .bcc cc d => encodeBranch cc d
  | .jmp ea => encodeEa 4 7 3 .L ea
  | .jsr ea => encodeEa 4 7 2 .L ea
  | .rts => [mkOp 4 7 1 6 5]
  | .btstReg y ea => encodeEa 0 (regBits y) 4 .B ea
  | .btstImm n ea => encodeEa2 0 4 0 (bitNumberWord n) .B ea
  | .bchgReg y ea => encodeEa 0 (regBits y) 5 .B ea
  | .bchgImm n ea => encodeEa2 0 4 1 (bitNumberWord n) .B ea
  | .bclrReg y ea => encodeEa 0 (regBits y) 6 .B ea
  | .bclrImm n ea => encodeEa2 0 4 2 (bitNumberWord n) .B ea
  | .bsetReg y ea => encodeEa 0 (regBits y) 7 .B ea
  | .bsetImm n ea => encodeEa2 0 4 3 (bitNumberWord n) .B ea
  | .clrB ea => encodeEa 4 1 0 .B ea
  | .clrW ea => encodeEa 4 1 1 .W ea
  | .clrL ea => encodeEa 4 1 2 .L ea
  | .extW r => [mkOp 4 4 2 0 (regBits r)]
  | .extL r => [mkOp 4 4 3 0 (regBits r)]
  | .extbL r => [mkOp 4 4 7 0 (regBits r)]
  | .lea ea r => encodeEa 4 (regBits r) 7 .L ea
  | .link r d => [mkOp 4 7 1 2 (regBits r), d]
  | .moveB src dst => encodeMove 1 .B src dst
  | .moveW src dst => encodeMove 3 .W src dst
  | .moveL src dst => encodeMove 2 .L src dst
  | .moveaW src r => encodeMove 3 .W src (.an r)
  | .moveaL src r => encodeMove 2 .L src (.an r)
  | .moveFromCcr r => [mkOp 4 1 3 0 (regBits r)]
  | .moveToCcr src => encodeEa 4 2 3 .W src
  | .movemStore mask ea => encodeEa2 4 4 3 mask .L ea
  | .movemLoad mask ea => encodeEa2 4 6 3 mask .L ea
  | .moveq v r => [(7 : BitVec 4) ++ regBits r ++ (0 : BitVec 1) ++ v]
  | .pea ea => encodeEa 4 4 1 .L ea
  | .scc cc r => [(5 : BitVec 4) ++ cc.toBits ++ (3 : BitVec 2) ++ (0 : BitVec 3) ++ regBits r]
  | .swap r => [mkOp 4 4 1 0 (regBits r)]
  | .tstB ea => encodeEa 4 5 0 .B ea
  | .tstW ea => encodeEa 4 5 1 .W ea
  | .tstL ea => encodeEa 4 5 2 .L ea
  | .unlk r => [mkOp 4 7 1 3 (regBits r)]
  | .divsW ea r => encodeEa 8 (regBits r) 7 .W ea
  | .divsL ea r => encodeEa2 4 6 1 (longWord r true (regBits r)) .L ea
  | .divuW ea r => encodeEa 8 (regBits r) 3 .W ea
  | .divuL ea r => encodeEa2 4 6 1 (longWord r false (regBits r)) .L ea
  | .mulsW ea r => encodeEa 12 (regBits r) 7 .W ea
  | .mulsL ea r => encodeEa2 4 6 0 (longWord r true 0) .L ea
  | .muluW ea r => encodeEa 12 (regBits r) 3 .W ea
  | .muluL ea r => encodeEa2 4 6 0 (longWord r false 0) .L ea
  | .remsL ea w x => encodeEa2 4 6 1 (longWord x true (regBits w)) .L ea
  | .remuL ea w x => encodeEa2 4 6 1 (longWord x false (regBits w)) .L ea
  | .nop => [mkOp 4 7 1 6 1]
  | .trap v => [(0x4E4 : BitVec 12) ++ v]

/-! ### The opcode table's own numbering of an instruction's bits -/

/-- The three words of an instruction numbered as spec/opcode_table.json numbers them: bit 0 is the least significant
bit of the first word, a later word counts on from bit 16; the bits from `nbits` up are 0. -/
def tableWords (nbits w : Nat) : List Word16 :=
  let v := w % 2 ^ nbits
  [BitVec.ofNat 16 v, BitVec.ofNat 16 (v / 2 ^ 16), BitVec.ofNat 16 (v / 2 ^ 32)]

/-- The instruction the decoder reads from the bytes of an instruction whose table number is `w`. -/
def decodeTableWord (nbits w : Nat) : Option Instr :=
  match decodeBytes (bytesOfWords (tableWords nbits w)) with
  | .ok (i, _) => some i
  | .error _ => none

end Sys2Proof
end

