-- ==== Sys2Proof/Machine/Fetch.lean ====
section
/-! DEFINITION. Fetching an instruction (R43, R46, R82): one word after another, as many as the decoder asks for, so that an
AccessError of a later word comes before the refusal of an undecoded one (R263). -/

namespace Sys2Proof.Machine

/-- The word at an address, in big-endian order (R41). -/
def State.wordAt (s : State) (a : Addr) : Word16 := s.byteAt a ++ s.byteAt (a + 1)

/-- `FetchWord` (R46): AccessError where a byte of the word is not mapped. -/
def fetchWord (a : Addr) (s : State) : Result Word16 :=
  if (accessBytes .W a).all s.mapped then .ok (s.wordAt a) else .error (.raised (.accessError .fetch a) s)

/-- What a word that is no instruction of the card does: the model refuses it, or raises IllegalInstruction (R247,
log 15). -/
def undecodedWord (opword : Word16) (s : State) : Stop :=
  match s.config.undecoded with
  | .refuse => .refused (.undecoded s.pc opword)
  | .illegalInstruction => .raised (.illegalInstruction opword) s

/-- The words so far are decoded, and one more is fetched while the decoder finds too few; `n` more words at most. -/
def fetchFrom : Nat → List Word16 → State → Result Instr
  | n, ws, s =>
    match decode ws with
    | .ok (i, _) => .ok i
    | .error .truncated =>
      match n with
      | 0 => .error (undecodedWord (ws.headD 0) s)
      | n + 1 => do
        let w ← fetchWord (s.nextPc ws.length) s
        fetchFrom n (ws ++ [w]) s
    | .error _ => .error (undecodedWord (ws.headD 0) s)

/-- The instruction at the pc (R82): AddressError where the pc is odd (R43), else its words, three at most (R80). -/
def fetchInstr (s : State) : Result Instr :=
  if s.pc.getLsbD 0 then .error (.raised (.addressError s.pc) s) else fetchFrom 3 [] s

/-- Memory with words stored from an address on, in big-endian order (R41). -/
def State.placeWords (s : State) (a : Addr) : List Word16 → State
  | [] => s
  | w :: ws => ((s.setByte a (w.extractLsb' 8 8)).setByte (a + 1) (w.extractLsb' 0 8)).placeWords (a + 2) ws

end Sys2Proof.Machine
end

