-- ==== Sys2Proof/Machine/Step.lean ====
section
/-! DEFINITION. One step of the machine: an instruction is fetched and run. -/

namespace Sys2Proof.Machine

/-- One step (R82): the instruction at the pc, or the exception or refusal its fetch ends in. -/
def step (s : State) : Host.Outcome State Fault Refusal :=
  match fetchInstr s with
  | .ok i => exec i s
  | .error (.raised e t) => takeException e s t
  | .error (.refused q) => .refused q

/-- The state with an instruction, numbered as spec/opcode_table.json numbers its bits, stored at the pc: the next step
fetches it (log 18). -/
def State.withFetchWord (s : State) (nbits w : Nat) : State := s.placeWords s.pc (tableWords nbits w)

end Sys2Proof.Machine
end

