-- ==== Sys2Proof/Safety.lean ====
section
/-! DEFINITION. What the statements speak of: accesses that succeed, what an instruction leaves alone, the invariant of the
machine, and the end of a run (R264, R295). -/

namespace Sys2Proof.Machine

/-- A data access that raises nothing (R42, R44): aligned where `MisalignedData = fault`, every byte mapped. -/
abbrev State.readable (s : State) (size : Size) (a : Addr) : Prop :=
  (s.config.misalignedData = .fault → a.toNat % size.bytes = 0) ∧ (accessBytes size a).all (inRegions s.config.mapped) = true

/-- A store that is performed (R42, R45): as a read, and outside `CodeRegion`. -/
abbrev State.writable (s : State) (size : Size) (a : Addr) : Prop :=
  s.readable size a ∧ (accessBytes size a).any (inRegions s.config.codeRegion) = false

/-- The exception of a data access that is not `readable` (R42, R44, R45; the order of the two is log 13). -/
def accessException (s : State) (k : AccessKind) (size : Size) (a : Addr) : Exception :=
  if s.config.misalignedData = .fault ∧ a.toNat % size.bytes ≠ 0 then .addressError a else .accessError k a

/-- What is left alone from `s` to `t`: every data register outside `ds`, every address register outside `as`, every
byte of memory outside `bytes`, the upper byte of the status register, the vector base and the parameters. -/
structure Keeps (s t : State) (ds as : List Reg) (bytes : List Addr) : Prop where
  dreg : ∀ r, r ∉ ds → t.dreg r = s.dreg r
  areg : ∀ r, r ∉ as → t.areg r = s.areg r
  byteAt : ∀ b, b ∉ bytes → t.byteAt b = s.byteAt b
  sys : t.sys = s.sys
  vbr : t.vbr = s.vbr
  config : t.config = s.config

/-- The address registers an operand steps. -/
def stepped (ea : Ea) : List Reg := (steppedReg ea).toList

/-! ### The shapes of a result: the value written, the step of the operand, the next pc, and the frame -/

/-- A data register alone is written, no operand in memory. -/
structure WritesDn (r : Reg) (v : Word) (words : Nat) (s t : State) : Prop where
  value : t.dreg r = v
  pc : t.pc = s.nextPc words
  keeps : Keeps s t [r] [] []

/-- A data register is written, and the operand's address register stepped. -/
structure WritesDnFrom (size : Size) (ea : Ea) (r : Reg) (v : Word) (words : Nat) (s t : State) : Prop where
  value : t.dreg r = v
  step : t.a = (stepEa size ea s).a
  pc : t.pc = s.nextPc words
  keeps : Keeps s t [r] (stepped ea) []

/-- An address register is written after the operand's step; every other address register is as the step leaves it. -/
structure WritesAnFrom (size : Size) (ea : Ea) (r : Reg) (v : Word) (words : Nat) (s t : State) : Prop where
  value : t.areg r = v
  step : ∀ q, q ≠ r → t.areg q = (stepEa size ea s).areg q
  ccr : t.ccr = s.ccr
  pc : t.pc = s.nextPc words
  keeps : Keeps s t [] (r :: stepped ea) []

/-- Memory is written at one address, and the operand's address register stepped. -/
structure WritesMem (size : Size) (ea : Ea) (a : Addr) (v : Word) (words : Nat) (s t : State) : Prop where
  value : t.readMem size a = v
  step : t.a = (stepEa size ea s).a
  pc : t.pc = s.nextPc words
  keeps : Keeps s t [] (stepped ea) (accessBytes size a)

/-- Nothing is written but flags, and the operand's address register stepped. -/
structure WritesNone (size : Size) (ea : Ea) (words : Nat) (s t : State) : Prop where
  step : t.a = (stepEa size ea s).a
  pc : t.pc = s.nextPc words
  keeps : Keeps s t [] (stepped ea) []

/-- A long is pushed: SP is 4 lower, the long lies there. -/
structure Pushes (v : Word) (s t : State) : Prop where
  sp : t.sp = s.sp - 4
  value : t.readMem .L (s.sp - 4) = v
  ccr : t.ccr = s.ccr
  keeps : Keeps s t [] [7] (accessBytes .L (s.sp - 4))

/-! ### What flags report -/

/-- The flags of a result of R26: N its top bit, Z whether it is zero, V and C cleared, X as before. -/
structure ResultFlags (size : Size) (v : Word) (old f : Ccr) : Prop where
  x : f.x = old.x
  n : f.n = v.getLsbD (8 * size.bytes - 1)
  z : f.z = decide (v.toNat % 2 ^ (8 * size.bytes) = 0)
  v : f.v = false
  c : f.c = false

/-- N, V and C of the sum `d + s + k`, as the derived sentence of R27 has them: C is the unsigned overflow, V the signed
one. -/
structure SumFlags (s d : Word) (k : Bool) (f : Ccr) : Prop where
  n : f.n = (d + s + BitVec.ofNat 32 k.toNat).msb
  c : f.c = decide (2 ^ 32 ≤ d.toNat + s.toNat + k.toNat)
  v : f.v = decide (d.toInt + s.toInt + k.toNat < -2 ^ 31 ∨ 2 ^ 31 ≤ d.toInt + s.toInt + k.toNat)

/-- N, V and C of the difference `d - s - k`, as the derived sentence of R28 has them: C is the borrow, V the signed
overflow. -/
structure DifferenceFlags (s d : Word) (k : Bool) (f : Ccr) : Prop where
  n : f.n = (d - s - BitVec.ofNat 32 k.toNat).msb
  c : f.c = decide (d.toNat < s.toNat + k.toNat)
  v : f.v = decide (d.toInt - s.toInt - k.toNat < -2 ^ 31 ∨ 2 ^ 31 ≤ d.toInt - s.toInt - k.toNat)

/-- The flags after `d` is compared with `v`: those of the difference with X kept, and the conditions of R31 that order the
two, as the derived sentence of R135 has them. -/
structure Compares (v d : Word) (old f : Ccr) : Prop where
  difference : DifferenceFlags v d false f
  x : f.x = old.x
  equal : f.test .EQ = decide (d = v)
  lower : f.test .CS = decide (d.toNat < v.toNat)
  higher : f.test .HI = decide (v.toNat < d.toNat)
  less : f.test .LT = decide (d.toInt < v.toInt)
  greater : f.test .GT = decide (v.toInt < d.toInt)

/-! ### MOVEM's places -/

/-- Where register `R[i]` of a mask lies: 4 bytes for each selected register before it (R92, R211, R217). -/
def movemSlot (mask : BitVec 16) (a : Addr) (i : Nat) : Addr :=
  a + BitVec.ofNat 32 (4 * (List.range i).countP fun k => mask.getLsbD k)

/-- The bytes a MOVEM transfers. -/
def movemBytes (mask : BitVec 16) (a : Addr) : List Addr :=
  ((List.range 16).filter fun i => mask.getLsbD i).flatMap fun i => accessBytes .L (movemSlot mask a i)

/-! ### The machine as a whole -/

/-- The invariant of the machine: memory in its canonical form (R40, R51), the low 20 bits of VBR zero (R265). -/
abbrev State.Inv (s : State) : Prop := s.mem.wf ∧ s.vbr &&& 0xFFFFF = 0

/-- The operand whose read is the first data access of an instruction, with its size (R262). A MOVE whose source index
is open (R229) is left out. -/
def readsOperand : Instr → Option (Size × Ea)
  | .addEaDn ea _ | .subEaDn ea _ | .adda ea _ | .suba ea _ | .cmp ea _ | .cmpa ea _ => some (.L, ea)
  | .andEaDn ea _ | .orEaDn ea _ => some (.L, ea)
  | .addDnEa _ ea | .subDnEa _ ea | .andDnEa _ ea | .orDnEa _ ea | .eor _ ea | .addq _ ea | .subq _ ea => some (.L, ea)
  | .btstReg _ ea | .bchgReg _ ea | .bclrReg _ ea | .bsetReg _ ea => some (.B, ea)
  | .btstImm _ ea | .bchgImm _ ea | .bclrImm _ ea | .bsetImm _ ea => some (.B, ea)
  | .tstB ea => some (.B, ea)
  | .tstW ea => some (.W, ea)
  | .tstL ea => some (.L, ea)
  | .moveB src dst => if indexOpen src dst then none else some (.B, src)
  | .moveW src dst => if indexOpen src dst then none else some (.W, src)
  | .moveL src dst => if indexOpen src dst then none else some (.L, src)
  | .moveaW src _ => some (.W, src)
  | .moveaL src _ => some (.L, src)
  | .divsW ea _ | .divuW ea _ | .mulsW ea _ | .muluW ea _ => some (.W, ea)
  | .divsL ea _ | .divuL ea _ | .mulsL ea _ | .muluL ea _ | .remsL ea _ _ | .remuL ea _ _ => some (.L, ea)
  | _ => none

/-- A run of at most some steps that ends where, at the start of a step, the pc is `endPC` (R295), or at a fault or a
refusal (R264). -/
def runUntil (endPC : Addr) : Nat → State → Host.Outcome State Fault Refusal
  | 0, s => .next s
  | n + 1, s =>
    if s.pc = endPC then .next s
    else match step s with
      | .next t => runUntil endPC n t
      | .fault f => .fault f
      | .refused q => .refused q

end Sys2Proof.Machine
end

