-- ==== Sys2Proof/Certificates/Slice0/Obligations.lean ====
section
/-! DEFINITION. The statements about the machine, each with the rules of spec/ it comes from. Where a rule marks a passage as its
own general knowledge, as a decision D<n> of 92_eei_decisions.md or as derived, the statement that needs the passage is
of basis derived: it says what this spec says, not what the card prints. -/

open Sys2Proof Sys2Proof.Machine

/-! ### The machine as a whole -/

/-- R35, R291: the launch state of a configuration has its entry point and its stack pointer, bits 7..5 of the CCR zero, and
every byte of memory as nothing has written it; the entry point of the state after reset is even. The values of the
parameters and of the registers R35 leaves open are the model's choice (logs 1 to 6). -/
def Obligations.LaunchStateHoldsEntryAndStack : Prop :=
  (∀ c : Config, (State.launch c).pc = c.entryPC ∧ (State.launch c).sp = c.initialSP ∧
    (State.launch c).ccr.toByte.extractLsb' 5 3 = 0 ∧ (∀ a, (State.launch c).byteAt a = memoryFill) ∧
    (State.launch c).config = c) ∧
  State.reset.pc.toNat % 2 = 0

/-- R35, R291: the invariant (memory in its canonical form, the low 20 bits of VBR zero) holds of every launch state, the state
after reset among them. That VBR is zero at launch is the family's value (PRESUMED, log 4), and that memory lists nothing is
the model's choice of what unwritten memory reads as (DESIGN CHOICE, log 5). -/
def Obligations.LaunchStatesMeetInvariant : Prop := (∀ c : Config, (State.launch c).Inv) ∧ State.reset.Inv

/-- The invariant is kept by every step from every state: the canonical form of memory (R40, R51) and the zero bits of VBR
(R265). -/
def Obligations.StepKeepsInvariant : Prop := ∀ s t : State, s.Inv → step s = .next t → t.Inv

/-- R32, R265, R268: a step changes neither a parameter nor VBR, and the upper byte of SR only by taking an exception, which
sets S and clears T and goes to an address that stands in the vector table. That the supervisor model is taken from
R265 is log 9. -/
def Obligations.OnlyExceptionsChangeUpperStatusByte : Prop :=
  ∀ s t : State, step s = .next t → t.config = s.config ∧ t.vbr = s.vbr ∧
    (t.sys = s.sys ∨ s.config.trapModel = .supervisor ∧ t.sys = { s.sys with s := true, t := false } ∧
      ∃ e : Exception, t.pc = t.readMem .L (vectorAddr s.vbr e.vector))

/-- R32, R268: in the terminal model the upper byte of SR and VBR have no influence on a step: with other values of them the
step is the same, and it leaves them as they were. -/
def Obligations.TerminalStepIgnoresSupervisorState : Prop :=
  ∀ (s : State) (y : SysByte) (w : Word), s.config.trapModel = .terminal →
    step { s with sys := y, vbr := w } =
      match step s with
      | .next t => .next { t with sys := y, vbr := w }
      | .fault f => .fault f
      | .refused q => .refused q

/-- R41, R44, R45: a store followed by a load, in big-endian order and for mixed widths: the long stored at `a` reads back
whole, as its two words and as its four bytes, the most significant first; every byte outside the access reads as
before. -/
def Obligations.StoreThenLoadIsBigEndian : Prop :=
  ∀ (s : State) (a : Addr) (v : Word),
    (∀ size : Size, (s.writeMem size a v).readMem size a = size.trunc v ∧
      ∀ b, b ∉ accessBytes size a → (s.writeMem size a v).byteAt b = s.byteAt b) ∧
    (s.writeMem .L a v).readMem .W a = v >>> 16 ∧ (s.writeMem .L a v).readMem .W (a + 2) = v &&& 0xFFFF ∧
    ∀ k : Nat, k < 4 → (s.writeMem .L a v).readMem .B (a + BitVec.ofNat 32 k) = (v >>> (8 * (3 - k))) &&& 0xFF

/-! ### Decoding and fetching -/

/-- R95 with R81 to R94: decoding the encoding of a well-formed instruction gives it back, with every operand at every value
its encoding admits and whatever words stand after it. -/
def Obligations.DecodeOfEncodeIsIdentity : Prop :=
  ∀ (i : Instr) (ws : List Word16), i.wf = true → decode (encode i ++ ws) = .ok (i, ws)

/-- R95 to R97: words that decode give a well-formed instruction and are its encoding, one to three words (R80). Only the
upper byte of a byte immediate is not read (R86): there the opword, and the low byte of the immediate's word, are those of
the encoding. -/
def Obligations.DecodedWordsAreTheEncoding : Prop :=
  ∀ (ws rest : List Word16) (i : Instr), decode ws = .ok (i, rest) → i.wf = true ∧
    1 ≤ (encode i).length ∧ (encode i).length ≤ 3 ∧ ws.length = (encode i).length + rest.length ∧
    ((∀ v ea, i ≠ .moveB (.imm v) ea ∧ i ≠ .tstB (.imm v)) → ws = encode i ++ rest) ∧
    ∀ v ea, (i = .moveB (.imm v) ea ∨ i = .tstB (.imm v)) →
      ∃ opword x : Word16, ws = opword :: x :: rest ∧ encode i = [opword, x &&& 0xFF] ∧ v.toNat = x.toNat % 2 ^ 8

/-- R98: the opword determines the length of an instruction. -/
def Obligations.OpwordDeterminesLength : Prop :=
  ∀ i j : Instr, i.wf = true → j.wf = true → (encode i).head? = (encode j).head? →
    (encode i).length = (encode j).length

/-- Words written out from the encodings of R95 decode to the instructions they stand for: one of each family. -/
def Obligations.SpecWordsDecode : Prop :=
  decode [0xD098] = .ok (.addEaDn (.postinc 0) 0, []) ∧
  decode [0x0682, 0x8000, 0x0001] = .ok (.addi 0x80000001 2, []) ∧
  decode [0xB390] = .ok (.eor 1 (.ind 0), []) ∧
  decode [0xE2A0] = .ok (.asrReg 1 0, []) ∧
  decode [0x6600, 0x0102] = .ok (.bcc .NE (.word 0x0102), []) ∧
  decode [0x4EF0, 0x1C02] = .ok (.jmp (.index 0 ⟨false, 1, .x4, 2⟩), []) ∧
  decode [0x08D8, 0x0003] = .ok (.bsetImm 3 (.postinc 0), []) ∧
  decode [0x2368, 0x0004, 0x0008] = .ok (.moveL (.disp 0 4) (.disp 1 8), []) ∧
  decode [0x48E8, 0x8001, 0x0004] = .ok (.movemStore 0x8001 (.disp 0 4), []) ∧
  decode [0x4C41, 0x0802] = .ok (.remsL (.dn 1) 2 0, []) ∧
  decode [0x4E4F] = .ok (.trap 15, [])

/-- R82: where the pc is even, the three words at it decode to an instruction, and every byte of that instruction's words is
mapped, a step is the instruction's meaning at that same state: nothing is added around it. -/
def Obligations.StepRunsDecodedInstruction : Prop :=
  ∀ (s : State) (i : Instr) (rest : List Word16), s.pc.getLsbD 0 = false →
    decode [s.wordAt s.pc, s.wordAt (s.pc + 2), s.wordAt (s.pc + 4)] = .ok (i, rest) →
    (∀ k : Nat, k < 2 * (3 - rest.length) → s.mapped (s.pc + BitVec.ofNat 32 k) = true) →
    step s = exec i s

/-- R247: where the words at an even pc are mapped and no instruction of the card, the step is refused with the pc and the
opword, or IllegalInstruction is raised where the configuration chooses R247's alternative. -/
def Obligations.UndecodedWordsAreRefused : Prop :=
  ∀ (s : State) (e : DecodeError), s.pc.getLsbD 0 = false →
    decode [s.wordAt s.pc, s.wordAt (s.pc + 2), s.wordAt (s.pc + 4)] = .error e →
    (∀ k : Nat, k < 6 → s.mapped (s.pc + BitVec.ofNat 32 k) = true) →
    step s = match s.config.undecoded with
      | .refuse => .refused (.undecoded s.pc (s.wordAt s.pc))
      | .illegalInstruction => takeException (.illegalInstruction (s.wordAt s.pc)) s s

/-- R43, R46, R82, R263: an odd pc raises AddressError and fetches nothing; at an even pc an unmapped byte of the opword
raises AccessError for a fetch. In the terminal model the run is over. -/
def Obligations.FetchFaults : Prop :=
  ∀ s : State,
    (s.pc.getLsbD 0 = true → step s = takeException (.addressError s.pc) s s ∧
      (s.config.trapModel = .terminal → step s = .fault (.trap (.addressError s.pc) s.pc))) ∧
    (s.pc.getLsbD 0 = false → ¬ (s.mapped s.pc = true ∧ s.mapped (s.pc + 1) = true) →
      step s = takeException (.accessError .fetch s.pc) s s ∧
      (s.config.trapModel = .terminal → step s = .fault (.trap (.accessError .fetch s.pc) s.pc)))

/-! ### Exceptions -/

/-- R260 to R265: taking an exception whose frame and vector are accessible sets S and clears T, pushes at SP rounded down to
a multiple of 4 a long with the format of the rounding, the vector number and the saved SR, and above it the saved pc,
and goes to the address in the vector table; nothing else changes. The numbers are those of R261, the saved pc that of the
instruction, of the next one for TRAP. In the supervisor model an exception raised so leads to that entry, from the state
before the instruction or at the raise (a free choice: log 11). R265 is general knowledge of the spec (log 9). -/
def Obligations.ExceptionEntryBuildsFrame : Prop :=
  (∀ (e : Exception) (pc0 : Addr) (s : State),
    s.writable .L (frameAddr s.sp) → s.writable .L (frameAddr s.sp + 4) → s.readable .L (vectorAddr s.vbr e.vector) →
    ∃ t, enterException e pc0 s = .ok t ∧
      t.sp.toNat % 4 = 0 ∧ t.sp + 8 + BitVec.ofNat 32 (s.sp.toNat % 4) = s.sp ∧
      ((t.readMem .L t.sp).extractLsb' 28 4).toNat = 4 + s.sp.toNat % 4 ∧
      (t.readMem .L t.sp).extractLsb' 18 8 = e.vector ∧
      (t.readMem .L t.sp).extractLsb' 0 16 = s.srWord ∧
      t.readMem .L (t.sp + 4) = e.savedPc pc0 ∧
      t.pc = t.readMem .L (vectorAddr s.vbr e.vector) ∧
      (s.vbr &&& 0xFFFFF = 0 → vectorAddr s.vbr e.vector = s.vbr + BitVec.ofNat 32 (4 * e.vector.toNat)) ∧
      t.sys = { s.sys with s := true, t := false } ∧ t.ccr = s.ccr ∧ t.vbr = s.vbr ∧ t.config = s.config ∧
      (∀ r, t.dreg r = s.dreg r) ∧ (∀ r, r ≠ 7 → t.areg r = s.areg r) ∧
      ∀ b, b ∉ accessBytes .L t.sp → b ∉ accessBytes .L (t.sp + 4) → t.byteAt b = s.byteAt b) ∧
  (∀ (k : AccessKind) (a pc0 : Addr) (o : Word16) (n : BitVec 4) (e : Exception) (v : Nat),
    (e, v) ∈ [(Exception.accessError k a, 2), (.addressError a, 3), (.illegalInstruction o, 4), (.divideByZero, 5),
      (.trap n, 32 + n.toNat)] →
    e.vector.toNat = v ∧ e.savedPc pc0 = if 32 ≤ v then pc0 + 2 else pc0) ∧
  ∀ (e : Exception) (s s1 : State), s.config.trapModel = .supervisor →
    ∃ u, (∃ k, u = { s with freeCount := k } ∨ u = { s1 with freeCount := k }) ∧ u = stateAtRaise s s1 ∧
      (u.writable .L (frameAddr u.sp) → u.writable .L (frameAddr u.sp + 4) →
        u.readable .L (vectorAddr u.vbr e.vector) →
        ∃ t, takeException e s s1 = .next t ∧ enterException e s.pc u = .ok t)

/-- R265, R266: the return undoes the entry: it pops the frame, restores SR, every register and SP with its rounding, and
goes to the saved pc; memory outside the frame is as before the exception. -/
def Obligations.ReturnUndoesExceptionEntry : Prop :=
  ∀ (e : Exception) (pc0 : Addr) (s t : State), enterException e pc0 s = .ok t →
    ∃ u, returnFromException t = .ok u ∧ u.pc = e.savedPc pc0 ∧ u.sys = s.sys ∧ u.ccr = s.ccr ∧
      (∀ r, u.dreg r = s.dreg r) ∧ (∀ r, u.areg r = s.areg r) ∧ u.vbr = s.vbr ∧ u.config = s.config ∧
      ∀ b, b ∉ accessBytes .L (frameAddr s.sp) → b ∉ accessBytes .L (frameAddr s.sp + 4) → u.byteAt b = s.byteAt b

/-- R265: a fault while a fault is taken halts the processor: where, from the state at the raise, a long of the frame or the
vector cannot be accessed; so at an odd pc whose frame would lie in unmapped memory. The state at the raise is a free
choice (log 11). R54 refuses stores into `CodeRegion`; that the push of a frame is such a store, and that a long both
inaccessible and in `CodeRegion` halts and is not refused, is the model's reading (DEDUCED, log 14). That TRAP is no
fault, so that a fault met while TRAP is taken is itself taken, is too (DEDUCED, log 12). R265 is general knowledge of
the spec (log 9). -/
def Obligations.FaultDuringFaultHalts : Prop :=
  (∀ (e : Exception) (s s1 u : State), s.config.trapModel = .supervisor → (∀ n, e ≠ .trap n) → u = stateAtRaise s s1 →
    (¬ u.readable .L (frameAddr u.sp) ∨
      u.writable .L (frameAddr u.sp) ∧ ¬ u.readable .L (frameAddr u.sp + 4) ∨
      u.writable .L (frameAddr u.sp) ∧ u.writable .L (frameAddr u.sp + 4) ∧
        ¬ u.readable .L (vectorAddr u.vbr e.vector) →
      takeException e s s1 = .fault (.halted e s.pc)) ∧
    (u.readable .L (frameAddr u.sp) → ¬ u.writable .L (frameAddr u.sp) →
      takeException e s s1 = .refused (.storeIntoCode (frameAddr u.sp))) ∧
    (u.writable .L (frameAddr u.sp) → u.readable .L (frameAddr u.sp + 4) → ¬ u.writable .L (frameAddr u.sp + 4) →
      takeException e s s1 = .refused (.storeIntoCode (frameAddr u.sp + 4)))) ∧
  (∀ s : State, s.config.trapModel = .supervisor → s.pc.getLsbD 0 = true → ¬ s.readable .L (frameAddr s.sp) →
    step s = .fault (.halted (.addressError s.pc) s.pc)) ∧
  ∀ (s : State) (n : BitVec 4) (k : AccessKind) (a : Addr), s.config.trapModel = .supervisor →
    (k = .write ∧ a = frameAddr s.sp ∨
      k = .write ∧ a = frameAddr s.sp + 4 ∧ s.writable .L (frameAddr s.sp) ∨
      k = .read ∧ a = vectorAddr s.vbr (Exception.trap n).vector ∧ s.writable .L (frameAddr s.sp) ∧
        s.writable .L (frameAddr s.sp + 4)) →
    ¬ s.readable .L a →
    ∃ t, exec (.trap n) s = takeException (accessException s k .L a) s t ∧ t.sp = frameAddr s.sp ∧ t.pc = s.pc ∧
      t.sys = { s.sys with s := true, t := false }

/-- R42, R44, R262: an instruction whose memory operand cannot be read raises, before anything else, AccessError of a read, or
AddressError where the access is misaligned and `MisalignedData = fault` (where both hold, AddressError, the model's choice:
log 13; which effects stand at the exception is open: log 11); in the terminal model the run ends so. So too a MOVE
whose source index is open (R229), where neither of its two addresses can be read; UNLK; and MOVEM at the first register
whose place cannot be read, those before it loaded. -/
def Obligations.OperandReadFaults : Prop :=
  (∀ (i : Instr) (s s1 : State) (size : Size) (ea : Ea) (a : Addr), readsOperand i = some (size, ea) →
    eaAddr size ea s = .ok (a, s1) → ¬ s.readable size a →
    exec i s = takeException (accessException s .read size a) s s1 ∧
    (s.config.trapModel = .terminal → exec i s = .fault (.trap (accessException s .read size a) s.pc))) ∧
  (∀ (s s1 s2 : State) (size : Size) (mk : Ea → Ea → Instr) (src dst : Ea) (a b : Addr),
    (size, mk) ∈ [(Size.B, Instr.moveB), (.W, .moveW), (.L, .moveL)] → eaAddrIn s size src s = .ok (a, s1) →
    eaAddrIn (stepEa size dst s) size src s = .ok (b, s2) → ¬ s.readable size a → ¬ s.readable size b →
    ∃ c, (c = a ∨ indexOpen src dst = true ∧ c = b) ∧
      exec (mk src dst) s = takeException (accessException s .read size c) s s1) ∧
  (∀ (s : State) (r : Reg), ¬ s.readable .L (s.areg r) →
    exec (.unlk r) s = takeException (accessException s .read .L (s.areg r)) s (s.setA 7 (s.areg r))) ∧
  ∀ (s s1 : State) (mask : BitVec 16) (ea : Ea) (a : Addr) (i : Fin 16), ea.ok .movem .L = true →
    eaAddr .L ea s = .ok (a, s1) → mask.getLsbD i = true →
    (∀ j : Fin 16, j < i → mask.getLsbD j = true → s.readable .L (movemSlot mask a j)) →
    ¬ s.readable .L (movemSlot mask a i) →
    ∃ t, exec (.movemLoad mask ea) s = takeException (accessException s .read .L (movemSlot mask a i)) s t ∧
      t.mem = s.mem ∧ t.pc = s.pc ∧ t.ccr = s.ccr ∧
      ∀ j : Fin 16, t.rreg j = if j < i ∧ mask.getLsbD j = true then s.readMem .L (movemSlot mask a j) else s.rreg j

/-- R45, R54, R262: a store that cannot be performed, of every storing instruction: AccessError of a write, or AddressError,
where a byte is unmapped or the access misaligned under `MisalignedData = fault`; the refusal where it touches `CodeRegion`.
CLR; the read-modify-write forms, whose read has succeeded; MOVE, with two addresses where its index is open (R229); the
pushes of BSR, JSR, PEA and LINK; MOVEM at the first register it cannot store, those before it stored. In the terminal
model the exception ends the run. The order of the three is the model's choice (log 13, log 14), and so is which effects
stand at the exception (log 11). -/
def Obligations.StoreFaults : Prop :=
  (∀ (e : Exception) (s s1 : State), s.config.trapModel = .terminal → takeException e s s1 = .fault (.trap e s.pc)) ∧
  (∀ (s s1 : State) (size : Size) (mk : Ea → Instr) (ea : Ea) (a : Addr),
    (size, mk) ∈ [(Size.B, Instr.clrB), (.W, .clrW), (.L, .clrL)] → eaAddr size ea s = .ok (a, s1) →
    (¬ s.readable size a → exec (mk ea) s = takeException (accessException s .write size a) s s1) ∧
    (s.readable size a → ¬ s.writable size a → exec (mk ea) s = .refused (.storeIntoCode a))) ∧
  (∀ (s s1 : State) (size : Size) (i : Instr) (ea : Ea) (a : Addr) (r : Reg) (q : BitVec 3) (n : BitVec 8),
    (i, size) ∈ [(Instr.addDnEa r ea, Size.L), (.subDnEa r ea, .L), (.andDnEa r ea, .L), (.orDnEa r ea, .L), (.eor r ea, .L),
      (.addq q ea, .L), (.subq q ea, .L), (.bchgReg r ea, .B), (.bchgImm n ea, .B), (.bclrReg r ea, .B), (.bclrImm n ea, .B),
      (.bsetReg r ea, .B), (.bsetImm n ea, .B)] →
    eaAddr size ea s = .ok (a, s1) → s.readable size a → ¬ s.writable size a → exec i s = .refused (.storeIntoCode a)) ∧
  (∀ (s s1 s2 s3 s4 : State) (size : Size) (mk : Ea → Ea → Instr) (src dst : Ea) (v w : Word) (a b : Addr),
    (size, mk) ∈ [(Size.B, Instr.moveB), (.W, .moveW), (.L, .moveL)] → readEaIn s size src s = .ok (v, s1) →
    readEaIn (stepEa size dst s) size src s = .ok (w, s2) → eaAddr size dst s1 = .ok (a, s3) →
    eaAddrIn s size dst s1 = .ok (b, s4) →
    (¬ s.readable size a → ¬ s.readable size b → ∃ c k, (c = a ∨ indexOpen dst src = true ∧ c = b) ∧
      exec (mk src dst) s = takeException (accessException s .write size c) s { s3 with freeCount := k }) ∧
    (s.readable size a → ¬ s.writable size a → s.readable size b → ¬ s.writable size b →
      ∃ c, (c = a ∨ indexOpen dst src = true ∧ c = b) ∧ exec (mk src dst) s = .refused (.storeIntoCode c))) ∧
  (∀ (s : State) (d : BranchDisp),
    (¬ s.readable .L (s.sp - 4) →
      exec (.bsr d) s = takeException (accessException s .write .L (s.sp - 4)) s (s.setA 7 (s.sp - 4))) ∧
    (s.readable .L (s.sp - 4) → ¬ s.writable .L (s.sp - 4) → exec (.bsr d) s = .refused (.storeIntoCode (s.sp - 4)))) ∧
  (∀ (s : State) (ea : Ea) (r : Reg) (d16 : BitVec 16) (i : Instr), ea.ok .control .L = true →
    i ∈ [Instr.jsr ea, .pea ea, .link r d16] →
    (¬ s.readable .L (s.sp - 4) → ∃ k, exec i s =
      takeException (accessException s .write .L (s.sp - 4)) s { s.setA 7 (s.sp - 4) with freeCount := k }) ∧
    (s.readable .L (s.sp - 4) → ¬ s.writable .L (s.sp - 4) → exec i s = .refused (.storeIntoCode (s.sp - 4)))) ∧
  ∀ (s s1 : State) (mask : BitVec 16) (ea : Ea) (a : Addr) (i : Fin 16), ea.ok .movem .L = true →
    eaAddr .L ea s = .ok (a, s1) → mask.getLsbD i = true →
    (∀ j : Fin 16, j < i → mask.getLsbD j = true → s.writable .L (movemSlot mask a j)) →
    (¬ s.readable .L (movemSlot mask a i) →
      ∃ t, exec (.movemStore mask ea) s = takeException (accessException s .write .L (movemSlot mask a i)) s t ∧
        t.d = s.d ∧ t.a = s.a ∧ t.pc = s.pc ∧ t.ccr = s.ccr ∧
        (∀ j : Fin 16, j < i → mask.getLsbD j = true → t.readMem .L (movemSlot mask a j) = s.rreg j) ∧
        ∀ b, (∀ j : Fin 16, j < i → mask.getLsbD j = true → b ∉ accessBytes .L (movemSlot mask a j)) →
          t.byteAt b = s.byteAt b) ∧
    (s.readable .L (movemSlot mask a i) → ¬ s.writable .L (movemSlot mask a i) →
      exec (.movemStore mask ea) s = .refused (.storeIntoCode (movemSlot mask a i)))

/-! ### Integer arithmetic -/

/-- R120, R122, R130, R132 with the flags of R27 to R29: ADD and SUB into a data register, from any source that can be read,
and ADDI and SUBI. The meaning of C and V as unsigned and signed overflow is the derived sentence of R27 and R28. -/
def Obligations.AddAndSubtractIntoDataRegister : Prop :=
  (∀ (s s1 : State) (ea : Ea) (r : Reg) (v : Word), readEa .L ea s = .ok (v, s1) →
    (∃ t, exec (.addEaDn ea r) s = .next t ∧ WritesDnFrom .L ea r (s.dreg r + v) (1 + ea.extWords .L) s t ∧
      SumFlags v (s.dreg r) false t.ccr ∧ t.ccr.x = t.ccr.c ∧ t.ccr.z = decide (s.dreg r + v = 0)) ∧
    ∃ t, exec (.subEaDn ea r) s = .next t ∧ WritesDnFrom .L ea r (s.dreg r - v) (1 + ea.extWords .L) s t ∧
      DifferenceFlags v (s.dreg r) false t.ccr ∧ t.ccr.x = t.ccr.c ∧ t.ccr.z = decide (s.dreg r - v = 0)) ∧
  ∀ (s : State) (r : Reg) (v : Word),
    (∃ t, exec (.addi v r) s = .next t ∧ WritesDn r (s.dreg r + v) 3 s t ∧
      SumFlags v (s.dreg r) false t.ccr ∧ t.ccr.x = t.ccr.c ∧ t.ccr.z = decide (s.dreg r + v = 0)) ∧
    ∃ t, exec (.subi v r) s = .next t ∧ WritesDn r (s.dreg r - v) 3 s t ∧
      DifferenceFlags v (s.dreg r) false t.ccr ∧ t.ccr.x = t.ccr.c ∧ t.ccr.z = decide (s.dreg r - v = 0)

/-- R120, R130, R66: ADD and SUB into memory, at the address of the operand, formed once; the flags as in the register
forms (the derived sentences of R27 and R28). -/
def Obligations.AddAndSubtractIntoMemory : Prop :=
  ∀ (s s1 : State) (ea : Ea) (r : Reg) (a : Addr), eaAddr .L ea s = .ok (a, s1) → s.writable .L a →
    (∃ t, exec (.addDnEa r ea) s = .next t ∧
      WritesMem .L ea a (s.readMem .L a + s.dreg r) (1 + ea.extWords .L) s t ∧
      SumFlags (s.dreg r) (s.readMem .L a) false t.ccr ∧ t.ccr.x = t.ccr.c ∧
      t.ccr.z = decide (s.readMem .L a + s.dreg r = 0)) ∧
    ∃ t, exec (.subDnEa r ea) s = .next t ∧
      WritesMem .L ea a (s.readMem .L a - s.dreg r) (1 + ea.extWords .L) s t ∧
      DifferenceFlags (s.dreg r) (s.readMem .L a) false t.ccr ∧ t.ccr.x = t.ccr.c ∧
      t.ccr.z = decide (s.readMem .L a - s.dreg r = 0)

/-- R123, R133, R87: ADDQ and SUBQ of 1 to 8 (the field 000 means 8) on a data register and on memory, with flags, and on an
address register, where no flag changes. -/
def Obligations.QuickAddAndSubtract : Prop :=
  ∀ (s : State) (q : BitVec 3) (k : Word), k = (if q = 0 then 8 else q.setWidth 32) →
    (∀ r : Reg,
      (∃ t, exec (.addq q (.dn r)) s = .next t ∧ WritesDn r (s.dreg r + k) 1 s t ∧ SumFlags k (s.dreg r) false t.ccr ∧
        t.ccr.x = t.ccr.c ∧ t.ccr.z = decide (s.dreg r + k = 0)) ∧
      (∃ t, exec (.subq q (.dn r)) s = .next t ∧ WritesDn r (s.dreg r - k) 1 s t ∧
        DifferenceFlags k (s.dreg r) false t.ccr ∧ t.ccr.x = t.ccr.c ∧ t.ccr.z = decide (s.dreg r - k = 0)) ∧
      (∃ t, exec (.addq q (.an r)) s = .next t ∧ WritesAnFrom .L (.an r) r (s.areg r + k) 1 s t) ∧
      ∃ t, exec (.subq q (.an r)) s = .next t ∧ WritesAnFrom .L (.an r) r (s.areg r - k) 1 s t) ∧
    ∀ (ea : Ea) (a : Addr) (s1 : State), eaAddr .L ea s = .ok (a, s1) → s.writable .L a →
      (∃ t, exec (.addq q ea) s = .next t ∧ WritesMem .L ea a (s.readMem .L a + k) (1 + ea.extWords .L) s t ∧
        SumFlags k (s.readMem .L a) false t.ccr ∧ t.ccr.x = t.ccr.c ∧ t.ccr.z = decide (s.readMem .L a + k = 0)) ∧
      ∃ t, exec (.subq q ea) s = .next t ∧ WritesMem .L ea a (s.readMem .L a - k) (1 + ea.extWords .L) s t ∧
        DifferenceFlags k (s.readMem .L a) false t.ccr ∧ t.ccr.x = t.ccr.c ∧ t.ccr.z = decide (s.readMem .L a - k = 0)

/-- R124, R134, R29: ADDX and SUBX take the extend flag in, and clear Z on a non-zero result and otherwise keep it. -/
def Obligations.ExtendedAddAndSubtract : Prop :=
  ∀ (s : State) (y x : Reg), let k := BitVec.ofNat 32 s.ccr.x.toNat
    (∃ t, exec (.addx y x) s = .next t ∧ WritesDn x (s.dreg x + s.dreg y + k) 1 s t ∧
      SumFlags (s.dreg y) (s.dreg x) s.ccr.x t.ccr ∧ t.ccr.x = t.ccr.c ∧
      t.ccr.z = (s.ccr.z && decide (s.dreg x + s.dreg y + k = 0))) ∧
    ∃ t, exec (.subx y x) s = .next t ∧ WritesDn x (s.dreg x - s.dreg y - k) 1 s t ∧
      DifferenceFlags (s.dreg y) (s.dreg x) s.ccr.x t.ccr ∧ t.ccr.x = t.ccr.c ∧
      t.ccr.z = (s.ccr.z && decide (s.dreg x - s.dreg y - k = 0))

/-- R128, R129: NEG, 0x4480, and NEGX, 0x4080, with the register in bits 2..0, and the meaning those rules give their
flags. -/
def Obligations.NegateAndNegateWithExtend : Prop :=
  ∀ (s : State) (r : Reg),
    encode (.neg r) = [BitVec.ofNat 16 (0x4480 + r.val)] ∧ encode (.negx r) = [BitVec.ofNat 16 (0x4080 + r.val)] ∧
    (∃ t, exec (.neg r) s = .next t ∧ WritesDn r (-s.dreg r) 1 s t ∧
      t.ccr = ⟨decide (s.dreg r ≠ 0), (-s.dreg r).msb, decide (s.dreg r = 0), decide (s.dreg r = 0x80000000),
        decide (s.dreg r ≠ 0)⟩) ∧
    ∃ t v, exec (.negx r) s = .next t ∧ v = -s.dreg r - BitVec.ofNat 32 s.ccr.x.toNat ∧ WritesDn r v 1 s t ∧
      t.ccr = ⟨s.ccr.x || decide (s.dreg r ≠ 0), v.msb, s.ccr.z && decide (v = 0), (s.dreg r).msb && v.msb,
        s.ccr.x || decide (s.dreg r ≠ 0)⟩

/-- R121, R131, R229: ADDA and SUBA write the whole address register and no flag; where the source steps that register itself
its final value is open, and only that. -/
def Obligations.AddressAddAndSubtract : Prop :=
  ∀ (s s1 : State) (ea : Ea) (r : Reg) (v : Word), readEa .L ea s = .ok (v, s1) →
    (steps ea r = false →
      (∃ t, exec (.adda ea r) s = .next t ∧ WritesAnFrom .L ea r (s.areg r + v) (1 + ea.extWords .L) s t) ∧
      ∃ t, exec (.suba ea r) s = .next t ∧ WritesAnFrom .L ea r (s.areg r - v) (1 + ea.extWords .L) s t) ∧
    (steps ea r = true →
      (∃ t w, exec (.adda ea r) s = .next t ∧ WritesAnFrom .L ea r w (1 + ea.extWords .L) s t) ∧
      ∃ t w, exec (.suba ea r) s = .next t ∧ WritesAnFrom .L ea r w (1 + ea.extWords .L) s t)

/-- R125 to R127, R135: after CMP, CMPA and CMPI the conditions of R31 order destination and source, unsigned and signed; X is
kept and nothing is stored (the orders are the derived sentence of R135). Where CMPA's source steps the register
compared, the value compared is open (R229). -/
def Obligations.ComparesOrderTheirOperands : Prop :=
  (∀ (s s1 : State) (ea : Ea) (r : Reg) (v : Word), readEa .L ea s = .ok (v, s1) →
    (∃ t, exec (.cmp ea r) s = .next t ∧ WritesNone .L ea (1 + ea.extWords .L) s t ∧ Compares v (s.dreg r) s.ccr t.ccr) ∧
    (steps ea r = false →
      ∃ t, exec (.cmpa ea r) s = .next t ∧ WritesNone .L ea (1 + ea.extWords .L) s t ∧ Compares v (s.areg r) s.ccr t.ccr) ∧
    (steps ea r = true →
      ∃ t d, exec (.cmpa ea r) s = .next t ∧ WritesNone .L ea (1 + ea.extWords .L) s t ∧ Compares v d s.ccr t.ccr)) ∧
  ∀ (s : State) (r : Reg) (v : Word),
    ∃ t, exec (.cmpi v r) s = .next t ∧ WritesNone .L (.dn r) 3 s t ∧ Compares v (s.dreg r) s.ccr t.ccr

/-! ### Logic -/

/-- R150, R155: AND and OR into a data register, bit for bit, from any source that can be read. -/
def Obligations.AndOrIntoDataRegister : Prop :=
  ∀ (s s1 : State) (ea : Ea) (r : Reg) (v : Word), readEa .L ea s = .ok (v, s1) →
    (∃ t, exec (.andEaDn ea r) s = .next t ∧ WritesDnFrom .L ea r (t.dreg r) (1 + ea.extWords .L) s t ∧
      (∀ i, (t.dreg r).getLsbD i = ((s.dreg r).getLsbD i && v.getLsbD i)) ∧ ResultFlags .L (t.dreg r) s.ccr t.ccr) ∧
    ∃ t, exec (.orEaDn ea r) s = .next t ∧ WritesDnFrom .L ea r (t.dreg r) (1 + ea.extWords .L) s t ∧
      (∀ i, (t.dreg r).getLsbD i = ((s.dreg r).getLsbD i || v.getLsbD i)) ∧ ResultFlags .L (t.dreg r) s.ccr t.ccr

/-- R151 to R154, R156: ANDI, ORI, EORI, EOR and NOT on a data register, bit for bit. -/
def Obligations.LogicOnRegisters : Prop :=
  ∀ (s : State) (r y : Reg) (v : Word) (i : Instr) (w : Word) (words : Nat) (f : Bool → Bool → Bool),
    (i, w, words, f) ∈ [(Instr.andi v r, v, 3, and), (.ori v r, v, 3, or), (.eori v r, v, 3, Bool.xor),
      (.eor y (.dn r), s.dreg y, 1, Bool.xor), (.notDn r, 0, 1, fun d _ => !d)] →
    ∃ t, exec i s = .next t ∧ WritesDn r (t.dreg r) words s t ∧
      (∀ j, j < 32 → (t.dreg r).getLsbD j = f ((s.dreg r).getLsbD j) (w.getLsbD j)) ∧
      ResultFlags .L (t.dreg r) s.ccr t.ccr

/-- R150, R152, R155, R66: AND, OR and EOR into memory, bit for bit, at the address of the operand, formed once. -/
def Obligations.LogicIntoMemory : Prop :=
  ∀ (s s1 : State) (ea : Ea) (r : Reg) (a : Addr) (i : Instr) (f : Bool → Bool → Bool),
    (i, f) ∈ [(Instr.andDnEa r ea, and), (.orDnEa r ea, or), (.eor r ea, Bool.xor)] →
    eaAddr .L ea s = .ok (a, s1) → s.writable .L a →
    ∃ t, exec i s = .next t ∧ WritesMem .L ea a (t.readMem .L a) (1 + ea.extWords .L) s t ∧
      (∀ j, j < 32 → (t.readMem .L a).getLsbD j = f ((s.readMem .L a).getLsbD j) ((s.dreg r).getLsbD j)) ∧
      ResultFlags .L (t.readMem .L a) s.ccr t.ccr

/-! ### Shifts -/

/-- R165, R166, R168: ASL and LSL, by an immediate 1 to 8 or a register modulo 64: the result is the operand times two to
the count, modulo 2^32; C and X are the last bit shifted out, 0 for a count above 32; a count of 0 clears C and keeps X;
V is always cleared. -/
def Obligations.LeftShifts : Prop :=
  ∀ (s : State) (c : BitVec 3) (y x : Reg) (i : Instr) (n : Nat),
    (i, n) ∈ [(Instr.aslImm c x, if c = 0 then 8 else c.toNat), (.lslImm c x, if c = 0 then 8 else c.toNat),
      (.aslReg y x, (s.dreg y).toNat % 64), (.lslReg y x, (s.dreg y).toNat % 64)] →
    ∃ t, exec i s = .next t ∧ WritesDn x (t.dreg x) 1 s t ∧
      (t.dreg x).toNat = (s.dreg x).toNat * 2 ^ n % 2 ^ 32 ∧
      t.ccr.c = (decide (1 ≤ n ∧ n ≤ 32) && (s.dreg x).getLsbD (32 - n)) ∧
      t.ccr.x = (if n = 0 then s.ccr.x else t.ccr.c) ∧
      t.ccr.n = (t.dreg x).getLsbD 31 ∧ t.ccr.z = decide (t.dreg x = 0) ∧ t.ccr.v = false

/-- R165, R167, R169: ASR and LSR: the operand, signed for ASR and unsigned for LSR, divided by two to the count and rounded
down; C and X are the last bit shifted out, from a count of 33 on the sign for ASR and 0 for LSR. -/
def Obligations.RightShifts : Prop :=
  ∀ (s : State) (c : BitVec 3) (y x : Reg) (n : Nat),
    (∀ i : Instr,
      (i, n) ∈ [(Instr.asrImm c x, if c = 0 then 8 else c.toNat), (.asrReg y x, (s.dreg y).toNat % 64)] →
      ∃ t, exec i s = .next t ∧ WritesDn x (t.dreg x) 1 s t ∧
        (t.dreg x).toInt = Int.fdiv (s.dreg x).toInt (2 ^ n) ∧
        t.ccr.c = (decide (n ≠ 0) && (s.dreg x).getLsbD (min (n - 1) 31)) ∧
        t.ccr.x = (if n = 0 then s.ccr.x else t.ccr.c) ∧
        t.ccr.n = (t.dreg x).getLsbD 31 ∧ t.ccr.z = decide (t.dreg x = 0) ∧ t.ccr.v = false) ∧
    ∀ i : Instr,
      (i, n) ∈ [(Instr.lsrImm c x, if c = 0 then 8 else c.toNat), (.lsrReg y x, (s.dreg y).toNat % 64)] →
      ∃ t, exec i s = .next t ∧ WritesDn x (t.dreg x) 1 s t ∧
        (t.dreg x).toNat = (s.dreg x).toNat / 2 ^ n ∧
        t.ccr.c = (decide (1 ≤ n ∧ n ≤ 32) && (s.dreg x).getLsbD (n - 1)) ∧
        t.ccr.x = (if n = 0 then s.ccr.x else t.ccr.c) ∧
        t.ccr.n = (t.dreg x).getLsbD 31 ∧ t.ccr.z = decide (t.dreg x = 0) ∧ t.ccr.v = false

/-! ### Control transfer -/

/-- R175, R176, R88: Bcc and BRA go to the address of the opword plus 2 plus the signed displacement, in both forms, or past
their words; nothing but the pc changes, and an odd target is not checked (R181). -/
def Obligations.BranchesTransferToTheirTarget : Prop :=
  ∀ (s : State) (d : BranchDisp) (k : Int), k = (match d with
      | .byte b => b.toInt
      | .word w => w.toInt) →
    (∃ t, exec (.bra d) s = .next t ∧ t.pc = s.pc + 2 + BitVec.ofInt 32 k ∧ t.ccr = s.ccr ∧ Keeps s t [] [] []) ∧
    ∀ cc : Cond, ∃ t, exec (.bcc cc d) s = .next t ∧
      t.pc = (if s.ccr.test cc then s.pc + 2 + BitVec.ofInt 32 k else s.pc + 2 + BitVec.ofNat 32 (2 * d.extWords)) ∧
      t.ccr = s.ccr ∧ Keeps s t [] [] []

/-- R177, R23: BSR pushes the address after its words and branches as BRA does. -/
def Obligations.BsrPushesReturnAddress : Prop :=
  ∀ (s : State) (d : BranchDisp) (k : Int), k = (match d with
      | .byte b => b.toInt
      | .word w => w.toInt) →
    s.writable .L (s.sp - 4) →
    ∃ t, exec (.bsr d) s = .next t ∧ t.pc = s.pc + 2 + BitVec.ofInt 32 k ∧
      Pushes (s.pc + 2 + BitVec.ofNat 32 (2 * d.extWords)) s t

/-- R178, R204, R62 to R65: JMP goes to the effective address and LEA writes it to an address register, in the seven control
modes; memory there is not read, nothing is checked, no flag changes. The address is computed as those rules say. -/
def Obligations.JumpAndLoadAddress : Prop :=
  ∀ (s : State) (ea : Ea) (a : Addr), ea.ok .control .L = true → a = (match ea with
      | .ind q => s.areg q
      | .disp q d => s.areg q + BitVec.ofInt 32 d.toInt
      | .index q x => s.areg q + BitVec.ofInt 32 x.d8.toInt +
          BitVec.ofNat 32 ((if x.isAddr then s.areg x.reg else s.dreg x.reg).toNat *
            (match x.scale with | .x1 => 1 | .x2 => 2 | .x4 => 4))
      | .pcDisp d => s.pc + 2 + BitVec.ofInt 32 d.toInt
      | .pcIndex x => s.pc + 2 + BitVec.ofInt 32 x.d8.toInt +
          BitVec.ofNat 32 ((if x.isAddr then s.areg x.reg else s.dreg x.reg).toNat *
            (match x.scale with | .x1 => 1 | .x2 => 2 | .x4 => 4))
      | .absW w => BitVec.ofInt 32 w.toInt
      | .absL l => l
      | _ => 0) →
    eaAddr .L ea s = .ok (a, s) ∧
    (∃ t, exec (.jmp ea) s = .next t ∧ t.pc = a ∧ t.ccr = s.ccr ∧ Keeps s t [] [] []) ∧
    ∀ r : Reg, ∃ t, exec (.lea ea r) s = .next t ∧ WritesAnFrom .L ea r a (1 + ea.extWords .L) s t

/-- R179, R214, R229: JSR pushes the address after its words and goes to the effective address; PEA pushes the effective
address. It is formed from the old SP, but with a mode based on A7 it is open whether from the old or the new one. -/
def Obligations.JsrAndPeaPush : Prop :=
  ∀ (s s1 s2 : State) (ea : Ea) (a b : Addr), ea.ok .control .L = true → s.writable .L (s.sp - 4) →
    eaAddr .L ea s = .ok (a, s1) → eaAddr .L ea (s.setA 7 (s.sp - 4)) = .ok (b, s2) →
    (∃ t, exec (.jsr ea) s = .next t ∧ Pushes (s.nextPc (1 + ea.extWords .L)) s t ∧
      (t.pc = a ∨ basedOnSp ea = true ∧ t.pc = b)) ∧
    ∃ t c, exec (.pea ea) s = .next t ∧ Pushes c s t ∧ t.pc = s.nextPc (1 + ea.extWords .L) ∧
      (c = a ∨ basedOnSp ea = true ∧ c = b)

/-- R180: RTS, 0x4E75: the long at SP is the new pc, SP is 4 higher, nothing else changes; where that long cannot be read,
AccessError is raised, or AddressError if `MisalignedData = fault` and SP is not a multiple of 4. -/
def Obligations.RtsPopsThePc : Prop :=
  encode .rts = [0x4E75] ∧
  ∀ s : State,
    (s.readable .L s.sp → ∃ t, exec .rts s = .next t ∧ t.pc = s.readMem .L s.sp ∧ t.sp = s.sp + 4 ∧
      t.ccr = s.ccr ∧ Keeps s t [] [7] []) ∧
    (¬ s.readable .L s.sp → ∃ e : Exception, exec .rts s = takeException e s s ∧
      (e = .accessError .read s.sp ∧ (accessBytes .L s.sp).all s.mapped = false ∨
        e = .addressError s.sp ∧ s.config.misalignedData = .fault ∧ s.sp.toNat % 4 ≠ 0))

/-! ### Bit manipulation -/

/-- R190 to R194 on a data register: the bit number modulo 32, from a register or the second word, is tested into Z as it was,
and inverted, cleared, set or left; no other bit and no other flag changes. -/
def Obligations.BitsOfDataRegisters : Prop :=
  ∀ (s : State) (r y : Reg) (n : BitVec 8) (i : Instr) (k words : Nat) (f : Bool → Bool),
    (i, k, words, f) ∈ [(Instr.bchgReg y (.dn r), (s.dreg y).toNat, 1, not), (.bchgImm n (.dn r), n.toNat, 2, not),
      (.bclrReg y (.dn r), (s.dreg y).toNat, 1, fun _ => false), (.bclrImm n (.dn r), n.toNat, 2, fun _ => false),
      (.bsetReg y (.dn r), (s.dreg y).toNat, 1, fun _ => true), (.bsetImm n (.dn r), n.toNat, 2, fun _ => true),
      (.btstReg y (.dn r), (s.dreg y).toNat, 1, id), (.btstImm n (.dn r), n.toNat, 2, id)] →
    ∃ t, exec i s = .next t ∧ WritesDn r (t.dreg r) words s t ∧
      (∀ j, j < 32 → (t.dreg r).getLsbD j =
        if j = k % 32 then f ((s.dreg r).getLsbD j) else (s.dreg r).getLsbD j) ∧
      t.ccr = { s.ccr with z := !(s.dreg r).getLsbD (k % 32) }

/-- R190 to R194, R66 on memory: one byte, the bit number modulo 8; BTST needs the byte readable, the others writable. -/
def Obligations.BitsOfMemoryBytes : Prop :=
  ∀ (s s1 : State) (ea : Ea) (a : Addr) (y : Reg) (n : BitVec 8) (i : Instr) (k words : Nat),
    eaAddr .B ea s = .ok (a, s1) →
    (∀ f : Bool → Bool,
      (i, k, words, f) ∈ [(Instr.bchgReg y ea, (s.dreg y).toNat, 1, not), (.bchgImm n ea, n.toNat, 2, not),
        (.bclrReg y ea, (s.dreg y).toNat, 1, fun _ => false), (.bclrImm n ea, n.toNat, 2, fun _ => false),
        (.bsetReg y ea, (s.dreg y).toNat, 1, fun _ => true), (.bsetImm n ea, n.toNat, 2, fun _ => true)] →
      s.writable .B a →
      ∃ t, exec i s = .next t ∧ WritesMem .B ea a (t.readMem .B a) (words + ea.extWords .B) s t ∧
        (∀ j, j < 8 → (t.byteAt a).getLsbD j =
          if j = k % 8 then f ((s.byteAt a).getLsbD j) else (s.byteAt a).getLsbD j) ∧
        t.ccr = { s.ccr with z := !(s.byteAt a).getLsbD (k % 8) }) ∧
    ((i, k, words) ∈ [(Instr.btstReg y ea, (s.dreg y).toNat, 1), (.btstImm n ea, n.toNat, 2)] →
      s.readable .B a →
      ∃ t, exec i s = .next t ∧ WritesNone .B ea (words + ea.extWords .B) s t ∧
        t.ccr = { s.ccr with z := !(s.byteAt a).getLsbD (k % 8) })

/-! ### Data movement -/

/-- R200, R22: CLR clears the low byte, word or long of a data register and keeps the rest, or stores zero at the operand's
address without reading it; N, V and C are cleared, Z set, X kept. -/
def Obligations.ClearWritesZero : Prop :=
  ∀ (s : State) (size : Size) (mk : Ea → Instr), (size, mk) ∈ [(Size.B, Instr.clrB), (.W, .clrW), (.L, .clrL)] →
    (∀ r : Reg, ∃ t, exec (mk (.dn r)) s = .next t ∧ WritesDn r (t.dreg r) 1 s t ∧
      (t.dreg r).toNat = (s.dreg r).toNat / 2 ^ (8 * size.bytes) * 2 ^ (8 * size.bytes) ∧
      t.ccr = ⟨s.ccr.x, false, true, false, false⟩) ∧
    ∀ (ea : Ea) (a : Addr) (s1 : State), eaAddr size ea s = .ok (a, s1) → s.writable size a →
      ∃ t, exec (mk ea) s = .next t ∧ WritesMem size ea a 0 (1 + ea.extWords size) s t ∧
        t.ccr = ⟨s.ccr.x, false, true, false, false⟩

/-- R201 to R203: EXT.W, 0x4880, EXT.L, 0x48C0, and EXTB.L, 0x49C0, with the register in bits 2..0, sign-extend; EXT.W keeps
the upper word. The opmodes 000, 100, 101 and 110 of the pattern with EA mode 000 are refused. -/
def Obligations.SignExtensions : Prop :=
  ∀ (s : State) (r : Reg),
    encode (.extW r) = [BitVec.ofNat 16 (0x4880 + r.val)] ∧ encode (.extL r) = [BitVec.ofNat 16 (0x48C0 + r.val)] ∧
    encode (.extbL r) = [BitVec.ofNat 16 (0x49C0 + r.val)] ∧
    (∀ k ∈ [0x4800, 0x4900, 0x4940, 0x4980], decode [BitVec.ofNat 16 (k + r.val)] = .error .undecodedOpword) ∧
    (∃ t, exec (.extW r) s = .next t ∧ WritesDn r (t.dreg r) 1 s t ∧
      ((t.dreg r).setWidth 16).toInt = ((s.dreg r).setWidth 8).toInt ∧
      (t.dreg r).toNat / 2 ^ 16 = (s.dreg r).toNat / 2 ^ 16 ∧ ResultFlags .W (t.dreg r) s.ccr t.ccr) ∧
    (∃ t, exec (.extL r) s = .next t ∧ WritesDn r (t.dreg r) 1 s t ∧
      (t.dreg r).toInt = ((s.dreg r).setWidth 16).toInt ∧ ResultFlags .L (t.dreg r) s.ccr t.ccr) ∧
    ∃ t, exec (.extbL r) s = .next t ∧ WritesDn r (t.dreg r) 1 s t ∧
      (t.dreg r).toInt = ((s.dreg r).setWidth 8).toInt ∧ ResultFlags .L (t.dreg r) s.ccr t.ccr

/-- R205, R219, R229: LINK pushes an address register, points it at the saved value and allocates; UNLK undoes it whatever
SP has become. With A7 itself the value pushed and the final SP of LINK, and the final SP of UNLK, are open. -/
def Obligations.LinkAndUnlink : Prop :=
  ∀ (s : State) (r : Reg) (d16 : BitVec 16),
    (r ≠ 7 →
      (s.writable .L (s.sp - 4) → ∃ t, exec (.link r d16) s = .next t ∧ t.readMem .L (s.sp - 4) = s.areg r ∧
        t.areg r = s.sp - 4 ∧ t.sp = s.sp - 4 + BitVec.ofInt 32 d16.toInt ∧ t.ccr = s.ccr ∧ t.pc = s.pc + 4 ∧
        Keeps s t [] [r, 7] (accessBytes .L (s.sp - 4))) ∧
      (s.readable .L (s.areg r) → ∃ t, exec (.unlk r) s = .next t ∧ t.areg r = s.readMem .L (s.areg r) ∧
        t.sp = s.areg r + 4 ∧ t.ccr = s.ccr ∧ t.pc = s.pc + 2 ∧ Keeps s t [] [r, 7] [])) ∧
    (r = 7 →
      (s.writable .L (s.sp - 4) → ∃ t, exec (.link r d16) s = .next t ∧ t.ccr = s.ccr ∧ t.pc = s.pc + 4 ∧
        Keeps s t [] [7] (accessBytes .L (s.sp - 4))) ∧
      (s.readable .L s.sp → ∃ t, exec (.unlk r) s = .next t ∧ t.ccr = s.ccr ∧ t.pc = s.pc + 2 ∧ Keeps s t [] [7] []))

/-- R206, R22: MOVE into a data register, in three sizes, from any source that can be read: the low part is the value, the rest
is kept; N and Z are those of the value moved. -/
def Obligations.MoveIntoDataRegister : Prop :=
  ∀ (s s1 : State) (size : Size) (mk : Ea → Ea → Instr) (src : Ea) (r : Reg) (v : Word),
    (size, mk) ∈ [(Size.B, Instr.moveB), (.W, .moveW), (.L, .moveL)] → readEa size src s = .ok (v, s1) →
    ∃ t, exec (mk src (.dn r)) s = .next t ∧ WritesDnFrom size src r (t.dreg r) (1 + src.extWords size) s t ∧
      (t.dreg r).toNat = (s.dreg r).toNat / 2 ^ (8 * size.bytes) * 2 ^ (8 * size.bytes) + v.toNat ∧
      ResultFlags size v s.ccr t.ccr

/-- R206, R67: MOVE into memory: the source is read, with its step, before the destination's address is formed. The cases of
R229 are stated by themselves. -/
def Obligations.MoveIntoMemory : Prop :=
  ∀ (s s1 s2 : State) (size : Size) (mk : Ea → Ea → Instr) (src dst : Ea) (v : Word) (a : Addr),
    (size, mk) ∈ [(Size.B, Instr.moveB), (.W, .moveW), (.L, .moveL)] →
    storesSteppedSource size src dst = false → indexOpen src dst = false → indexOpen dst src = false →
    readEa size src s = .ok (v, s1) → eaAddr size dst s1 = .ok (a, s2) → s.writable size a →
    ∃ t, exec (mk src dst) s = .next t ∧ t.readMem size a = v ∧ ResultFlags size v s.ccr t.ccr ∧
      t.a = (stepEa size dst (stepEa size src s)).a ∧ t.pc = s.nextPc (1 + src.extWords size + dst.extWords size) ∧
      Keeps s t [] (stepped src ++ stepped dst) (accessBytes size a)

/-- R229: MOVE in its open cases runs to the end, with every other effect as defined. Through its own step an address register
stores some value, with that value's flags; an index register that the other operand steps is read before or after. -/
def Obligations.OpenMovesComplete : Prop :=
  (∀ (s s1 : State) (y : Reg) (dst : Ea) (a : Addr), steps dst y = true → eaAddr .L dst s = .ok (a, s1) → s.writable .L a →
    ∃ t v, exec (.moveL (.an y) dst) s = .next t ∧ WritesMem .L dst a v 1 s t ∧ ResultFlags .L v s.ccr t.ccr) ∧
  ∀ (s : State) (size : Size) (mk : Ea → Ea → Instr) (src dst : Ea),
    (size, mk) ∈ [(Size.B, Instr.moveB), (.W, .moveW), (.L, .moveL)] →
    (∀ (s1 s2 s3 : State) (v : Word) (a b : Addr), indexOpen dst src = true → readEa size src s = .ok (v, s1) →
      eaAddrIn s size dst s1 = .ok (a, s2) → eaAddrIn s1 size dst s1 = .ok (b, s3) → s.writable size a → s.writable size b →
      ∃ t c, (c = a ∨ c = b) ∧ exec (mk src dst) s = .next t ∧
        WritesMem size src c v (1 + src.extWords size + dst.extWords size) s t ∧ ResultFlags size v s.ccr t.ccr) ∧
    ∀ (s1 s2 s3 : State) (v w : Word) (a : Addr), indexOpen src dst = true → readEaIn s size src s = .ok (v, s1) →
      readEaIn (stepEa size dst s) size src s = .ok (w, s2) → eaAddr size dst s = .ok (a, s3) → s.writable size a →
      ∃ t u, (u = v ∨ u = w) ∧ exec (mk src dst) s = .next t ∧
        WritesMem size dst a u (1 + src.extWords size + dst.extWords size) s t ∧ ResultFlags size u s.ccr t.ccr

/-- R207, R22: MOVEA writes the whole address register, a word sign-extended, and no flag; a loaded value wins over the
source's own step of that register. -/
def Obligations.MoveaWritesWholeRegister : Prop :=
  ∀ (s s1 : State) (src : Ea) (r : Reg) (v : Word),
    (readEa .W src s = .ok (v, s1) → ∃ t, exec (.moveaW src r) s = .next t ∧
      WritesAnFrom .W src r (BitVec.ofInt 32 (v.setWidth 16).toInt) (1 + src.extWords .W) s t) ∧
    (readEa .L src s = .ok (v, s1) → ∃ t, exec (.moveaL src r) s = .next t ∧
      WritesAnFrom .L src r v (1 + src.extWords .L) s t)

/-- R209, R210, R25: MOVE from CCR, 0x42C0 with the register in bits 2..0, gives the low word X N Z V C in bits 4..0 and zeros above; MOVE to CCR, 0x44C0
with a data register or 0x44FC with an immediate word, loads the five flags from bits 4..0 and ignores the rest. -/
def Obligations.CcrMoves : Prop :=
  (∀ r : Reg, encode (.moveFromCcr r) = [BitVec.ofNat 16 (0x42C0 + r.val)] ∧
    encode (.moveToCcr (.dn r)) = [BitVec.ofNat 16 (0x44C0 + r.val)]) ∧
  (∀ v : Word16, encode (.moveToCcr (.imm (v.setWidth 32))) = [0x44FC, v]) ∧
  ∀ (s : State),
    (∀ r : Reg, ∃ t, exec (.moveFromCcr r) s = .next t ∧ WritesDn r (t.dreg r) 1 s t ∧ t.ccr = s.ccr ∧
      (t.dreg r).toNat = (s.dreg r).toNat / 2 ^ 16 * 2 ^ 16 + (16 * s.ccr.x.toNat + 8 * s.ccr.n.toNat +
        4 * s.ccr.z.toNat + 2 * s.ccr.v.toNat + s.ccr.c.toNat)) ∧
    ∀ (src : Ea) (v : Word) (s1 : State), src.ok .ccrSource .W = true → readEa .W src s = .ok (v, s1) →
      ∃ t, exec (.moveToCcr src) s = .next t ∧ t.pc = s.nextPc (1 + src.extWords .W) ∧ Keeps s t [] [] [] ∧
        v.toNat % 32 = 16 * t.ccr.x.toNat + 8 * t.ccr.n.toNat + 4 * t.ccr.z.toNat + 2 * t.ccr.v.toNat + t.ccr.c.toNat

/-- R211, R92, R217: MOVEM to memory stores each register the mask selects, D0 to D7 then A0 to A7, at ascending addresses from
the effective address on; no register and no flag changes, and the base register is stored as it is. -/
def Obligations.MovemStoresInOrder : Prop :=
  ∀ (s s1 : State) (mask : BitVec 16) (ea : Ea) (a : Addr), ea.ok .movem .L = true → eaAddr .L ea s = .ok (a, s1) →
    (∀ i : Fin 16, mask.getLsbD i = true → s.writable .L (movemSlot mask a i)) →
    ∃ t, exec (.movemStore mask ea) s = .next t ∧ t.ccr = s.ccr ∧ t.pc = s.nextPc (2 + ea.extWords .L) ∧
      Keeps s t [] [] (movemBytes mask a) ∧
      ∀ q : Reg, (mask.getLsbD q.val = true → t.readMem .L (movemSlot mask a q.val) = s.dreg q) ∧
        (mask.getLsbD (8 + q.val) = true → t.readMem .L (movemSlot mask a (8 + q.val)) = s.areg q)

/-- R212, R92, R217, R229: MOVEM from memory loads each register the mask selects from its place and changes no other; the
address is computed once. A selected base register ends with an open value. -/
def Obligations.MovemLoadsInOrder : Prop :=
  ∀ (s s1 : State) (mask : BitVec 16) (ea : Ea) (a : Addr), ea.ok .movem .L = true → eaAddr .L ea s = .ok (a, s1) →
    (∀ i : Fin 16, mask.getLsbD i = true → s.readable .L (movemSlot mask a i)) →
    ∃ t, exec (.movemLoad mask ea) s = .next t ∧ t.ccr = s.ccr ∧ t.pc = s.nextPc (2 + ea.extWords .L) ∧
      Keeps s t ((List.finRange 8).filter fun q => mask.getLsbD q.val)
        ((List.finRange 8).filter fun q => mask.getLsbD (8 + q.val)) [] ∧
      ∀ q : Reg, (mask.getLsbD q.val = true → t.dreg q = s.readMem .L (movemSlot mask a q.val)) ∧
        (mask.getLsbD (8 + q.val) = true → baseReg ea ≠ some q →
          t.areg q = s.readMem .L (movemSlot mask a (8 + q.val)))

/-- R213, R26: MOVEQ, 0x7000 with the register in bits 11..9 and the data in bits 7..0: the data, sign-extended to a long, replaces
the register; N and Z are the long's, V and C are cleared, X is kept. -/
def Obligations.MoveqLoadsSignExtendedByte : Prop :=
  ∀ (s : State) (v : BitVec 8) (r : Reg),
    (encode (.moveq v r)).map BitVec.toNat = [0x7000 + 512 * r.val + v.toNat] ∧
    (∀ w : Word16, opNibble w = 7 → w.getLsbD 8 = true → decode [w] = .error .undecodedOpword) ∧
    ∃ t, exec (.moveq v r) s = .next t ∧ WritesDn r (t.dreg r) 1 s t ∧ (t.dreg r).toInt = v.toInt ∧
      ResultFlags .L (t.dreg r) s.ccr t.ccr

/-- R215, R22: Scc, 0x50C0 with the condition in bits 11..8 and the register in bits 2..0, all sixteen conditions: the low byte is 0xFF
or 0, the rest of the register and the flags are kept. -/
def Obligations.SetOnConditionWritesByte : Prop :=
  ∀ (s : State) (cc : Cond) (r : Reg),
    (encode (.scc cc r)).map BitVec.toNat = [0x50C0 + 256 * cc.toBits.toNat + r.val] ∧
    ∃ t, exec (.scc cc r) s = .next t ∧ WritesDn r (t.dreg r) 1 s t ∧ t.ccr = s.ccr ∧
      (t.dreg r).toNat = (s.dreg r).toNat / 256 * 256 + (if s.ccr.test cc then 255 else 0)

/-- R31: the sixteen conditions, by their encoding, as functions of N, Z, V and C of the flags; X takes part in none. -/
def Obligations.ConditionsFollowTheTable : Prop :=
  ∀ f : Ccr,
    (∀ (k : BitVec 4) (b : Bool),
      (k, b) ∈ [((0 : BitVec 4), true), (1, false), (2, !f.c && !f.z), (3, f.c || f.z), (4, !f.c), (5, f.c), (6, !f.z), (7, f.z),
        (8, !f.v), (9, f.v), (10, !f.n), (11, f.n), (12, f.n == f.v), (13, f.n != f.v), (14, !f.z && f.n == f.v),
        (15, f.z || f.n != f.v)] → f.test (Cond.ofBits k) = b) ∧
    ∀ (cc : Cond) (b : Bool), { f with x := b }.test cc = f.test cc

/-- R216, R26: SWAP, 0x4840 with the register in bits 2..0: the words change places; N and Z are those of the whole long. -/
def Obligations.SwapExchangesWords : Prop :=
  ∀ (s : State) (r : Reg),
    encode (.swap r) = [BitVec.ofNat 16 (0x4840 + r.val)] ∧
    ∃ t, exec (.swap r) s = .next t ∧ WritesDn r (t.dreg r) 1 s t ∧
      (t.dreg r).toNat = (s.dreg r).toNat % 2 ^ 16 * 2 ^ 16 + (s.dreg r).toNat / 2 ^ 16 ∧
      ResultFlags .L (t.dreg r) s.ccr t.ccr

/-- R218: TST in three sizes, from any source that can be read: N and Z of the value, V and C cleared, nothing written. And
R61 to R66, what that source is, for every instruction that reads one: the low part of a data or address register, the
immediate, or the memory at the operand's address; `(An)+` has its address before the step and `-(An)` after it, the step
is the operand's size in bytes, for a byte through A7 the parameter `A7ByteStep`, and no other mode steps a register. -/
def Obligations.TestSetsFlagsOnly : Prop :=
  (∀ (s s1 : State) (size : Size) (mk : Ea → Instr) (ea : Ea) (v : Word),
    (size, mk) ∈ [(Size.B, Instr.tstB), (.W, .tstW), (.L, .tstL)] → readEa size ea s = .ok (v, s1) →
    ∃ t, exec (mk ea) s = .next t ∧ WritesNone size ea (1 + ea.extWords size) s t ∧ ResultFlags size v s.ccr t.ccr) ∧
  ∀ (s : State) (size : Size),
    (∀ (r : Reg) (x : Word) (ea : Ea), (ea, x) ∈ [(Ea.dn r, s.dreg r), (.an r, s.areg r), (.imm x, x)] →
      ∃ v, readEa size ea s = .ok (v, s) ∧ v.toNat = x.toNat % 2 ^ (8 * size.bytes)) ∧
    (∀ (ea : Ea) (a : Addr) (s1 : State), eaAddr size ea s = .ok (a, s1) → s.readable size a →
      readEa size ea s = .ok (s.readMem size a, s1)) ∧
    (∀ (r : Reg) (k : Word), k = (match size with
        | .B => if r = 7 ∧ s.config.a7ByteStep = .two then 2 else 1
        | .W => 2
        | .L => 4) →
      eaAddr size (.postinc r) s = .ok (s.areg r, stepEa size (.postinc r) s) ∧
      eaAddr size (.predec r) s = .ok (s.areg r - k, stepEa size (.predec r) s) ∧
      stepEa size (.postinc r) s = s.setA r (s.areg r + k) ∧ stepEa size (.predec r) s = s.setA r (s.areg r - k)) ∧
    (∀ ea : Ea, EaClass.control.allows ea.kind = true → ∃ a, eaAddr size ea s = .ok (a, s) ∧ eaAddr .L ea s = .ok (a, s)) ∧
    ∀ ea : Ea, (∀ r, ea ≠ .postinc r ∧ ea ≠ .predec r) → stepEa size ea s = s

/-! ### Multiply, divide, remainder -/

/-- R234 to R237: the word multiplies give the exact product of the low words, the long ones the low 32 bits of the product,
which signed and unsigned agree on; N and Z are the result's, V and C cleared. -/
def Obligations.MultipliesGiveTheProduct : Prop :=
  ∀ (s s1 : State) (ea : Ea) (r : Reg) (v : Word),
    (readEa .W ea s = .ok (v, s1) →
      (∃ t, exec (.mulsW ea r) s = .next t ∧ WritesDnFrom .W ea r (t.dreg r) (1 + ea.extWords .W) s t ∧
        (t.dreg r).toInt = ((s.dreg r).setWidth 16).toInt * (v.setWidth 16).toInt ∧
        ResultFlags .L (t.dreg r) s.ccr t.ccr) ∧
      ∃ t, exec (.muluW ea r) s = .next t ∧ WritesDnFrom .W ea r (t.dreg r) (1 + ea.extWords .W) s t ∧
        (t.dreg r).toNat = ((s.dreg r).setWidth 16).toNat * (v.setWidth 16).toNat ∧
        ResultFlags .L (t.dreg r) s.ccr t.ccr) ∧
    (readEa .L ea s = .ok (v, s1) → ∀ i ∈ [Instr.mulsL ea r, .muluL ea r],
      ∃ t, exec i s = .next t ∧ WritesDnFrom .L ea r (t.dreg r) (2 + ea.extWords .L) s t ∧
        (t.dreg r).toNat = (s.dreg r).toNat * v.toNat % 2 ^ 32 ∧ ResultFlags .L (t.dreg r) s.ccr t.ccr)

/-- R230, R232, R240: the word divides, where the quotient fits 16 bits: the register holds the remainder above the quotient, the
dividend is quotient times divisor plus remainder, the remainder is smaller than the divisor and has the dividend's
sign or is zero; N and Z are the quotient's, V and C cleared. -/
def Obligations.WordDividesGiveQuotientAndRemainder : Prop :=
  ∀ (s s1 : State) (ea : Ea) (r : Reg) (v : Word), readEa .W ea s = .ok (v, s1) → v ≠ 0 →
    (∀ n m : Int, n = (s.dreg r).toInt → m = (v.setWidth 16).toInt → -2 ^ 15 ≤ n.tdiv m → n.tdiv m < 2 ^ 15 →
      ∃ t, ∃ q k : Int, exec (.divsW ea r) s = .next t ∧ WritesDnFrom .W ea r (t.dreg r) (1 + ea.extWords .W) s t ∧
        ((t.dreg r).setWidth 16).toInt = q ∧ ((t.dreg r >>> 16).setWidth 16).toInt = k ∧
        n = q * m + k ∧ k.natAbs < m.natAbs ∧ (k = 0 ∨ k.sign = n.sign) ∧
        t.ccr = ⟨s.ccr.x, decide (q < 0), decide (q = 0), false, false⟩) ∧
    ∀ n m : Nat, n = (s.dreg r).toNat → m = (v.setWidth 16).toNat → n / m < 2 ^ 16 →
      ∃ t, ∃ q k : Nat, exec (.divuW ea r) s = .next t ∧ WritesDnFrom .W ea r (t.dreg r) (1 + ea.extWords .W) s t ∧
        (t.dreg r).toNat % 2 ^ 16 = q ∧ (t.dreg r).toNat / 2 ^ 16 = k ∧ n = q * m + k ∧ k < m ∧
        t.ccr = ⟨s.ccr.x, decide (2 ^ 15 ≤ q), decide (q = 0), false, false⟩

/-- R231, R233, R240: the long divides give the quotient, rounded toward zero; the one overflow of DIVS.L is -2^31 by -1, and DIVU.L
has none. -/
def Obligations.LongDividesGiveTheQuotient : Prop :=
  ∀ (s s1 : State) (ea : Ea) (r : Reg) (v : Word), readEa .L ea s = .ok (v, s1) → v ≠ 0 →
    (¬ (s.dreg r = 0x80000000 ∧ v = 0xFFFFFFFF) →
      ∃ t, ∃ q k : Int, exec (.divsL ea r) s = .next t ∧ WritesDnFrom .L ea r (t.dreg r) (2 + ea.extWords .L) s t ∧
        (t.dreg r).toInt = q ∧ (s.dreg r).toInt = q * v.toInt + k ∧ k.natAbs < v.toInt.natAbs ∧
        (k = 0 ∨ k.sign = (s.dreg r).toInt.sign) ∧
        t.ccr = ⟨s.ccr.x, decide (q < 0), decide (q = 0), false, false⟩) ∧
    ∃ t, ∃ q k : Nat, exec (.divuL ea r) s = .next t ∧ WritesDnFrom .L ea r (t.dreg r) (2 + ea.extWords .L) s t ∧
      (t.dreg r).toNat = q ∧ (s.dreg r).toNat = q * v.toNat + k ∧ k < v.toNat ∧
      t.ccr = ⟨s.ccr.x, decide (2 ^ 31 ≤ q), decide (q = 0), false, false⟩

/-- R238, R239, R240: REMS.L and REMU.L write the remainder to Dw and leave the dividend in Dx; N and Z are the quotient's or the
remainder's, as the parameter `RemFlags` has it. -/
def Obligations.RemaindersGiveTheRemainder : Prop :=
  ∀ (s s1 : State) (ea : Ea) (w x : Reg) (v : Word), w ≠ x → readEa .L ea s = .ok (v, s1) → v ≠ 0 →
    (¬ (s.dreg x = 0x80000000 ∧ v = 0xFFFFFFFF) →
      ∃ t, ∃ q k : Int, exec (.remsL ea w x) s = .next t ∧ WritesDnFrom .L ea w (t.dreg w) (2 + ea.extWords .L) s t ∧
        (t.dreg w).toInt = k ∧ (s.dreg x).toInt = q * v.toInt + k ∧ k.natAbs < v.toInt.natAbs ∧
        (k = 0 ∨ k.sign = (s.dreg x).toInt.sign) ∧ t.dreg x = s.dreg x ∧
        t.ccr = match s.config.remFlags with
          | .quotient => ⟨s.ccr.x, decide (q < 0), decide (q = 0), false, false⟩
          | .remainder => ⟨s.ccr.x, decide (k < 0), decide (k = 0), false, false⟩) ∧
    ∃ t, ∃ q k : Nat, exec (.remuL ea w x) s = .next t ∧ WritesDnFrom .L ea w (t.dreg w) (2 + ea.extWords .L) s t ∧
      (t.dreg w).toNat = k ∧ (s.dreg x).toNat = q * v.toNat + k ∧ k < v.toNat ∧ t.dreg x = s.dreg x ∧
      t.ccr = match s.config.remFlags with
        | .quotient => ⟨s.ccr.x, decide (2 ^ 31 ≤ q), decide (q = 0), false, false⟩
        | .remainder => ⟨s.ccr.x, decide (2 ^ 31 ≤ k), decide (k = 0), false, false⟩

/-- R230 to R232, R238, R240: a quotient that does not fit sets V, clears C and writes no register; N and Z are cleared under
`DivOverflowNZ = cleared` and open under `any`. -/
def Obligations.DivideOverflowWritesNoRegister : Prop :=
  ∀ (s s1 : State) (ea : Ea) (w x : Reg) (v : Word) (i : Instr) (size : Size) (words : Nat),
    readEa size ea s = .ok (v, s1) → v ≠ 0 →
    (i = .divsW ea x ∧ size = .W ∧ words = 1 ∧ ((s.dreg x).toInt.tdiv (v.setWidth 16).toInt < -2 ^ 15 ∨
        2 ^ 15 ≤ (s.dreg x).toInt.tdiv (v.setWidth 16).toInt) ∨
      i = .divuW ea x ∧ size = .W ∧ words = 1 ∧ 2 ^ 16 ≤ (s.dreg x).toNat / (v.setWidth 16).toNat ∨
      (i = .divsL ea x ∨ i = .remsL ea w x) ∧ size = .L ∧ words = 2 ∧ s.dreg x = 0x80000000 ∧ v = 0xFFFFFFFF) →
    ∃ t, exec i s = .next t ∧ WritesNone size ea (words + ea.extWords size) s t ∧ t.ccr.x = s.ccr.x ∧
      t.ccr.v = true ∧ t.ccr.c = false ∧
      (s.config.divOverflowNZ = .cleared → t.ccr.n = false ∧ t.ccr.z = false)

/-- R230 to R233, R238 to R240: every divide and remainder raises DivideByZero (vector 5, the pc of the divide saved) where the source
read is zero; whether a step of the source stands is open (log 11). -/
def Obligations.DivideByZeroIsRaised : Prop :=
  (∀ pc0, Exception.divideByZero.vector = 5 ∧ Exception.divideByZero.savedPc pc0 = pc0) ∧
  ∀ (s s1 : State) (ea : Ea) (w x : Reg) (i : Instr) (size : Size),
    (i, size) ∈ [(Instr.divsW ea x, Size.W), (.divuW ea x, .W), (.divsL ea x, .L), (.divuL ea x, .L), (.remsL ea w x, .L),
      (.remuL ea w x, .L)] →
    readEa size ea s = .ok (0, s1) →
    exec i s = takeException .divideByZero s s1 ∧
    (s.config.trapModel = .terminal → exec i s = .fault (.trap .divideByZero s.pc))

/-! ### System -/

/-- R245: NOP, 0x4E71: no register, flag or memory location changes; pc advances by 2. -/
def Obligations.NopOnlyAdvances : Prop :=
  encode .nop = [0x4E71] ∧
  ∀ s : State, ∃ t, exec .nop s = .next t ∧ t.pc = s.pc + 2 ∧ t.ccr = s.ccr ∧ Keeps s t [] [] []

/-- R246, R260, R264, R265: TRAP #n raises exception vector 32 + n and saves the address of the next instruction: in the terminal
model the run ends; in the supervisor model, its frame and vector accessible, the handler runs next. -/
def Obligations.TrapEntersItsHandler : Prop :=
  ∀ (s : State) (n : BitVec 4),
    (Exception.trap n).vector.toNat = 32 + n.toNat ∧
    (s.config.trapModel = .terminal → exec (.trap n) s = .fault (.trap (.trap n) s.pc)) ∧
    (s.config.trapModel = .supervisor → s.writable .L (frameAddr s.sp) → s.writable .L (frameAddr s.sp + 4) →
      s.readable .L (vectorAddr s.vbr (Exception.trap n).vector) →
      ∃ t, exec (.trap n) s = .next t ∧ t.pc = t.readMem .L (vectorAddr s.vbr (Exception.trap n).vector) ∧
        t.sp = frameAddr s.sp ∧ t.readMem .L (t.sp + 4) = s.pc + 2 ∧
        (t.readMem .L t.sp).extractLsb' 18 8 = (Exception.trap n).vector ∧
        (t.readMem .L t.sp).extractLsb' 0 16 = s.srWord ∧ t.sys = { s.sys with s := true, t := false } ∧
        t.ccr = s.ccr ∧ t.vbr = s.vbr ∧ t.config = s.config ∧ (∀ r, t.dreg r = s.dreg r) ∧
        (∀ r, r ≠ 7 → t.areg r = s.areg r) ∧
        ∀ b, b ∉ accessBytes .L t.sp → b ∉ accessBytes .L (t.sp + 4) → t.byteAt b = s.byteAt b)
end

