-- ==== Sys2Proof/Laws/Decode.lean ====
section
/-! SUPPORT. The fields of an encoded opword, and the operand words that the decoder reads back. -/

namespace Sys2Proof

/-! ### Fields of an opword -/

@[simp] theorem opNibble_mkOp (n : BitVec 4) (r o m e : BitVec 3) : opNibble (mkOp n r o m e) = n := by
  apply BitVec.eq_of_getLsbD_eq; intro i hi
  simp only [opNibble, mkOp, BitVec.getLsbD_append, BitVec.getLsbD_extractLsb']
  simp [hi, show ¬ 12 + i < 3 by omega, show ¬ 12 + i - 3 < 3 by omega,
    show ¬ 12 + i - 3 - 3 < 3 by omega, show ¬ 12 + i - 3 - 3 - 3 < 3 by omega, show 12 + i - 3 - 3 - 3 - 3 = i by omega]

@[simp] theorem opReg_mkOp (n : BitVec 4) (r o m e : BitVec 3) : opReg (mkOp n r o m e) = r := by
  apply BitVec.eq_of_getLsbD_eq; intro i hi
  simp only [opReg, mkOp, BitVec.getLsbD_append, BitVec.getLsbD_extractLsb']
  simp [hi, show ¬ 9 + i < 3 by omega, show ¬ 9 + i - 3 < 3 by omega,
    show ¬ 9 + i - 3 - 3 < 3 by omega, show 9 + i - 3 - 3 - 3 = i by omega]

@[simp] theorem opMode_mkOp (n : BitVec 4) (r o m e : BitVec 3) : opMode (mkOp n r o m e) = o := by
  apply BitVec.eq_of_getLsbD_eq; intro i hi
  simp only [opMode, mkOp, BitVec.getLsbD_append, BitVec.getLsbD_extractLsb']
  simp [hi, show ¬ 6 + i < 3 by omega, show ¬ 6 + i - 3 < 3 by omega,
    show 6 + i - 3 - 3 = i by omega]

@[simp] theorem opEaMode_mkOp (n : BitVec 4) (r o m e : BitVec 3) : opEaMode (mkOp n r o m e) = m := by
  apply BitVec.eq_of_getLsbD_eq; intro i hi
  simp only [opEaMode, mkOp, BitVec.getLsbD_append, BitVec.getLsbD_extractLsb']
  simp [hi, show ¬ 3 + i < 3 by omega, show 3 + i - 3 = i by omega]

@[simp] theorem opEaReg_mkOp (n : BitVec 4) (r o m e : BitVec 3) : opEaReg (mkOp n r o m e) = e := by
  apply BitVec.eq_of_getLsbD_eq; intro i hi
  simp only [opEaReg, mkOp, BitVec.getLsbD_append, BitVec.getLsbD_extractLsb']
  simp [hi]

@[simp] theorem regOf_regBits (r : Reg) : regOf (regBits r) = r := rfl
@[simp] theorem regBits_regOf (b : BitVec 3) : regBits (regOf b) = b := rfl
@[simp] theorem scaleOf_scaleBits (x : Scale) : scaleOf (scaleBits x) = some x := by cases x <;> rfl
@[simp] theorem Cond.ofBits_toBits (c : Cond) : Cond.ofBits c.toBits = c := by cases c <;> rfl
@[simp] theorem Cond.toBits_ofBits (b : BitVec 4) : (Cond.ofBits b).toBits = b := by revert b; decide

/-! ### Operand words -/

@[simp] theorem nextWord_cons (w : Word16) (ws : List Word16) : nextWord (w :: ws) = .ok (w, ws) := rfl

@[simp] theorem nextLong_longWords (v : Word) (ws : List Word16) : nextLong (longWords v ++ ws) = .ok (v, ws) := by
  have : v.extractLsb' 16 16 ++ v.extractLsb' 0 16 = v := by
    apply BitVec.eq_of_getLsbD_eq; intro i hi
    by_cases h : i < 16
    · simp only [BitVec.getLsbD_append, BitVec.getLsbD_extractLsb']
      simp [h]
    · simp only [BitVec.getLsbD_append, BitVec.getLsbD_extractLsb']
      simp [h, show i - 16 < 16 by omega, show 16 + (i - 16) = i by omega]
  simp [nextLong, longWords, bind, Except.bind, this]

@[simp] theorem decodeIndexWord_encode (x : IndexWord) : decodeIndexWord (encodeIndexWord x) = .ok x := by
  obtain ⟨d, r, sc, d8⟩ := x
  have h1 : (encodeIndexWord ⟨d, r, sc, d8⟩).getLsbD 11 = true := by
    simp only [encodeIndexWord, BitVec.getLsbD_append]; simp
  have h2 : (encodeIndexWord ⟨d, r, sc, d8⟩).getLsbD 8 = false := by
    simp only [encodeIndexWord, BitVec.getLsbD_append]; simp
  have h3 : (encodeIndexWord ⟨d, r, sc, d8⟩).getLsbD 15 = d := by
    simp only [encodeIndexWord, BitVec.getLsbD_append]; simp
  have h4 : (encodeIndexWord ⟨d, r, sc, d8⟩).extractLsb' 9 2 = scaleBits sc := by
    apply BitVec.eq_of_getLsbD_eq; intro i hi
    have : i = 0 ∨ i = 1 := by omega
    rcases this with rfl | rfl <;>
      (simp only [encodeIndexWord, BitVec.getLsbD_append, BitVec.getLsbD_extractLsb']; simp)
  have h5 : (encodeIndexWord ⟨d, r, sc, d8⟩).extractLsb' 12 3 = regBits r := by
    apply BitVec.eq_of_getLsbD_eq; intro i hi
    have : i = 0 ∨ i = 1 ∨ i = 2 := by omega
    rcases this with rfl | rfl | rfl <;>
      (simp only [encodeIndexWord, BitVec.getLsbD_append, BitVec.getLsbD_extractLsb']; simp)
  have h6 : (encodeIndexWord ⟨d, r, sc, d8⟩).extractLsb' 0 8 = d8 := by
    apply BitVec.eq_of_getLsbD_eq; intro i hi
    simp only [encodeIndexWord, BitVec.getLsbD_append, BitVec.getLsbD_extractLsb']
    simp [hi]
  simp only [decodeIndexWord, h1, h2, h3, h4, h5, h6, Bool.not_false, Bool.and_true, if_true, scaleOf_scaleBits,
    regOf_regBits]

@[simp] theorem eaKindOf_bits (ea : Ea) : eaKindOf (eaModeBits ea) (eaRegBits ea) = some ea.kind := by
  cases ea <;> rfl

/-- The decoder reads an encoded operand back, with whatever words stand after it. -/
@[simp] theorem eaOperand_encode (z : Size) (ea : Ea) (ws : List Word16) (h : ea.fits z = true) :
    eaOperand z ea.kind (eaRegBits ea) (encodeEaWords z ea ++ ws) = .ok (ea, ws) := by
  cases ea <;> simp [Ea.kind, eaRegBits, eaOperand, encodeEaWords, bind, Except.bind]
  case imm v =>
    have h' : z.trunc v = v := by simpa [Ea.fits] using h
    cases z
    · have : (v.extractLsb' 0 8).setWidth 32 = v := by
        rw [← h']
        apply BitVec.eq_of_getLsbD_eq; intro i hi
        by_cases h8 : i < 8 <;> simp [Size.trunc, h8, hi]
      simpa [eaOperand, encodeEaWords, bind, Except.bind] using this
    · have : (v.extractLsb' 0 16).setWidth 32 = v := by
        rw [← h']
        apply BitVec.eq_of_getLsbD_eq; intro i hi
        by_cases h16 : i < 16 <;> simp [Size.trunc, h16, hi]
      simpa [eaOperand, encodeEaWords, bind, Except.bind] using this
    · simp [nextLong_longWords]

/-- An operand adds as many words as R85 and R86 give its mode. -/
@[simp] theorem encodeEaWords_length (z : Size) (ea : Ea) : (encodeEaWords z ea).length = ea.extWords z := by
  cases ea <;> first | rfl | (cases z <;> rfl)

/-- The mode of an encoded operand is in the class that allows its kind. -/
theorem eaKindIn_bits {c : EaClass} {ea : Ea} (h : c.allows ea.kind = true) :
    eaKindIn c (eaModeBits ea) (eaRegBits ea) = .ok ea.kind := by
  simp [eaKindIn, h]

/-- One effective address, encoded and decoded. -/
theorem withEa_encode {c : EaClass} {z : Size} (n : BitVec 4) (r o : BitVec 3) {ea : Ea} (ws : List Word16) (f : Ea → Instr)
    (h : ea.ok c z = true) :
    withEa c z (mkOp n r o (eaModeBits ea) (eaRegBits ea)) (encodeEaWords z ea ++ ws) f = .ok (f ea, ws) := by
  obtain ⟨h1, h2⟩ := Bool.and_eq_true_iff.1 h
  simp [withEa, eaKindIn_bits h1, bind, Except.bind, eaOperand_encode z ea ws h2]

end Sys2Proof
end

