-- ==== Sys2Proof/Laws/State.lean ====
section
/-! SUPPORT. One lemma for each field and each update of the state, true by rfl, and the same for the accessors, so that no
proof unfolds a record update. -/

namespace Sys2Proof.Machine

/-! ### `setD` -/

@[simp] theorem State.setD_d (s : State) (r : Reg) (v : Word) : (s.setD r v).d = s.d.set r v := rfl
@[simp] theorem State.setD_a (s : State) (r : Reg) (v : Word) : (s.setD r v).a = s.a := rfl
@[simp] theorem State.setD_pc (s : State) (r : Reg) (v : Word) : (s.setD r v).pc = s.pc := rfl
@[simp] theorem State.setD_ccr (s : State) (r : Reg) (v : Word) : (s.setD r v).ccr = s.ccr := rfl
@[simp] theorem State.setD_sys (s : State) (r : Reg) (v : Word) : (s.setD r v).sys = s.sys := rfl
@[simp] theorem State.setD_vbr (s : State) (r : Reg) (v : Word) : (s.setD r v).vbr = s.vbr := rfl
@[simp] theorem State.setD_mem (s : State) (r : Reg) (v : Word) : (s.setD r v).mem = s.mem := rfl
@[simp] theorem State.setD_config (s : State) (r : Reg) (v : Word) : (s.setD r v).config = s.config := rfl
@[simp] theorem State.setD_freeCount (s : State) (r : Reg) (v : Word) : (s.setD r v).freeCount = s.freeCount := rfl

@[simp] theorem State.setD_areg (s : State) (r : Reg) (v : Word) (q : Reg) : (s.setD r v).areg q = s.areg q := rfl
@[simp] theorem State.setD_sp (s : State) (r : Reg) (v : Word) : (s.setD r v).sp = s.sp := rfl
@[simp] theorem State.setD_byteAt (s : State) (r : Reg) (v : Word) (y : Addr) : (s.setD r v).byteAt y = s.byteAt y := rfl
@[simp] theorem State.setD_readMem (s : State) (r : Reg) (v : Word) (z : Size) (y : Addr) :
    (s.setD r v).readMem z y = s.readMem z y := rfl
@[simp] theorem State.setD_mapped (s : State) (r : Reg) (v : Word) (y : Addr) : (s.setD r v).mapped y = s.mapped y := rfl
@[simp] theorem State.setD_touchesCode (s : State) (r : Reg) (v : Word) (z : Size) (y : Addr) :
    (s.setD r v).touchesCode z y = s.touchesCode z y := rfl
@[simp] theorem State.setD_dataFault (s : State) (r : Reg) (v : Word) (k' : AccessKind) (z : Size) (y : Addr) :
    (s.setD r v).dataFault k' z y = s.dataFault k' z y := rfl
@[simp] theorem State.setD_stepOf (s : State) (r : Reg) (v : Word) (z : Size) (q : Reg) :
    (s.setD r v).stepOf z q = s.stepOf z q := rfl
@[simp] theorem State.setD_nextPc (s : State) (r : Reg) (v : Word) (n : Nat) : (s.setD r v).nextPc n = s.nextPc n := rfl
@[simp] theorem State.setD_pcBase (s : State) (r : Reg) (v : Word) : (s.setD r v).pcBase = s.pcBase := rfl
@[simp] theorem State.setD_freeWord (s : State) (r : Reg) (v : Word) (n : Nat) : (s.setD r v).freeWord n = s.freeWord n := rfl
@[simp] theorem State.setD_freeBit (s : State) (r : Reg) (v : Word) (n : Nat) : (s.setD r v).freeBit n = s.freeBit n := rfl

/-! ### `setA` -/

@[simp] theorem State.setA_d (s : State) (r : Reg) (v : Word) : (s.setA r v).d = s.d := rfl
@[simp] theorem State.setA_a (s : State) (r : Reg) (v : Word) : (s.setA r v).a = s.a.set r v := rfl
@[simp] theorem State.setA_pc (s : State) (r : Reg) (v : Word) : (s.setA r v).pc = s.pc := rfl
@[simp] theorem State.setA_ccr (s : State) (r : Reg) (v : Word) : (s.setA r v).ccr = s.ccr := rfl
@[simp] theorem State.setA_sys (s : State) (r : Reg) (v : Word) : (s.setA r v).sys = s.sys := rfl
@[simp] theorem State.setA_vbr (s : State) (r : Reg) (v : Word) : (s.setA r v).vbr = s.vbr := rfl
@[simp] theorem State.setA_mem (s : State) (r : Reg) (v : Word) : (s.setA r v).mem = s.mem := rfl
@[simp] theorem State.setA_config (s : State) (r : Reg) (v : Word) : (s.setA r v).config = s.config := rfl
@[simp] theorem State.setA_freeCount (s : State) (r : Reg) (v : Word) : (s.setA r v).freeCount = s.freeCount := rfl

@[simp] theorem State.setA_dreg (s : State) (r : Reg) (v : Word) (q : Reg) : (s.setA r v).dreg q = s.dreg q := rfl
@[simp] theorem State.setA_byteAt (s : State) (r : Reg) (v : Word) (y : Addr) : (s.setA r v).byteAt y = s.byteAt y := rfl
@[simp] theorem State.setA_readMem (s : State) (r : Reg) (v : Word) (z : Size) (y : Addr) :
    (s.setA r v).readMem z y = s.readMem z y := rfl
@[simp] theorem State.setA_mapped (s : State) (r : Reg) (v : Word) (y : Addr) : (s.setA r v).mapped y = s.mapped y := rfl
@[simp] theorem State.setA_touchesCode (s : State) (r : Reg) (v : Word) (z : Size) (y : Addr) :
    (s.setA r v).touchesCode z y = s.touchesCode z y := rfl
@[simp] theorem State.setA_dataFault (s : State) (r : Reg) (v : Word) (k' : AccessKind) (z : Size) (y : Addr) :
    (s.setA r v).dataFault k' z y = s.dataFault k' z y := rfl
@[simp] theorem State.setA_stepOf (s : State) (r : Reg) (v : Word) (z : Size) (q : Reg) :
    (s.setA r v).stepOf z q = s.stepOf z q := rfl
@[simp] theorem State.setA_nextPc (s : State) (r : Reg) (v : Word) (n : Nat) : (s.setA r v).nextPc n = s.nextPc n := rfl
@[simp] theorem State.setA_pcBase (s : State) (r : Reg) (v : Word) : (s.setA r v).pcBase = s.pcBase := rfl
@[simp] theorem State.setA_freeWord (s : State) (r : Reg) (v : Word) (n : Nat) : (s.setA r v).freeWord n = s.freeWord n := rfl
@[simp] theorem State.setA_freeBit (s : State) (r : Reg) (v : Word) (n : Nat) : (s.setA r v).freeBit n = s.freeBit n := rfl

/-! ### `setPc` -/

@[simp] theorem State.setPc_d (s : State) (v : Addr) : (s.setPc v).d = s.d := rfl
@[simp] theorem State.setPc_a (s : State) (v : Addr) : (s.setPc v).a = s.a := rfl
@[simp] theorem State.setPc_pc (s : State) (v : Addr) : (s.setPc v).pc = v := rfl
@[simp] theorem State.setPc_ccr (s : State) (v : Addr) : (s.setPc v).ccr = s.ccr := rfl
@[simp] theorem State.setPc_sys (s : State) (v : Addr) : (s.setPc v).sys = s.sys := rfl
@[simp] theorem State.setPc_vbr (s : State) (v : Addr) : (s.setPc v).vbr = s.vbr := rfl
@[simp] theorem State.setPc_mem (s : State) (v : Addr) : (s.setPc v).mem = s.mem := rfl
@[simp] theorem State.setPc_config (s : State) (v : Addr) : (s.setPc v).config = s.config := rfl
@[simp] theorem State.setPc_freeCount (s : State) (v : Addr) : (s.setPc v).freeCount = s.freeCount := rfl

@[simp] theorem State.setPc_dreg (s : State) (v : Addr) (q : Reg) : (s.setPc v).dreg q = s.dreg q := rfl
@[simp] theorem State.setPc_areg (s : State) (v : Addr) (q : Reg) : (s.setPc v).areg q = s.areg q := rfl
@[simp] theorem State.setPc_sp (s : State) (v : Addr) : (s.setPc v).sp = s.sp := rfl
@[simp] theorem State.setPc_byteAt (s : State) (v : Addr) (y : Addr) : (s.setPc v).byteAt y = s.byteAt y := rfl
@[simp] theorem State.setPc_readMem (s : State) (v : Addr) (z : Size) (y : Addr) :
    (s.setPc v).readMem z y = s.readMem z y := rfl
@[simp] theorem State.setPc_mapped (s : State) (v : Addr) (y : Addr) : (s.setPc v).mapped y = s.mapped y := rfl
@[simp] theorem State.setPc_touchesCode (s : State) (v : Addr) (z : Size) (y : Addr) :
    (s.setPc v).touchesCode z y = s.touchesCode z y := rfl
@[simp] theorem State.setPc_dataFault (s : State) (v : Addr) (k' : AccessKind) (z : Size) (y : Addr) :
    (s.setPc v).dataFault k' z y = s.dataFault k' z y := rfl
@[simp] theorem State.setPc_stepOf (s : State) (v : Addr) (z : Size) (q : Reg) :
    (s.setPc v).stepOf z q = s.stepOf z q := rfl
@[simp] theorem State.setPc_freeWord (s : State) (v : Addr) (n : Nat) : (s.setPc v).freeWord n = s.freeWord n := rfl
@[simp] theorem State.setPc_freeBit (s : State) (v : Addr) (n : Nat) : (s.setPc v).freeBit n = s.freeBit n := rfl

/-! ### `setCcr` -/

@[simp] theorem State.setCcr_d (s : State) (c : Ccr) : (s.setCcr c).d = s.d := rfl
@[simp] theorem State.setCcr_a (s : State) (c : Ccr) : (s.setCcr c).a = s.a := rfl
@[simp] theorem State.setCcr_pc (s : State) (c : Ccr) : (s.setCcr c).pc = s.pc := rfl
@[simp] theorem State.setCcr_ccr (s : State) (c : Ccr) : (s.setCcr c).ccr = c := rfl
@[simp] theorem State.setCcr_sys (s : State) (c : Ccr) : (s.setCcr c).sys = s.sys := rfl
@[simp] theorem State.setCcr_vbr (s : State) (c : Ccr) : (s.setCcr c).vbr = s.vbr := rfl
@[simp] theorem State.setCcr_mem (s : State) (c : Ccr) : (s.setCcr c).mem = s.mem := rfl
@[simp] theorem State.setCcr_config (s : State) (c : Ccr) : (s.setCcr c).config = s.config := rfl
@[simp] theorem State.setCcr_freeCount (s : State) (c : Ccr) : (s.setCcr c).freeCount = s.freeCount := rfl

@[simp] theorem State.setCcr_dreg (s : State) (c : Ccr) (q : Reg) : (s.setCcr c).dreg q = s.dreg q := rfl
@[simp] theorem State.setCcr_areg (s : State) (c : Ccr) (q : Reg) : (s.setCcr c).areg q = s.areg q := rfl
@[simp] theorem State.setCcr_sp (s : State) (c : Ccr) : (s.setCcr c).sp = s.sp := rfl
@[simp] theorem State.setCcr_byteAt (s : State) (c : Ccr) (y : Addr) : (s.setCcr c).byteAt y = s.byteAt y := rfl
@[simp] theorem State.setCcr_readMem (s : State) (c : Ccr) (z : Size) (y : Addr) :
    (s.setCcr c).readMem z y = s.readMem z y := rfl
@[simp] theorem State.setCcr_mapped (s : State) (c : Ccr) (y : Addr) : (s.setCcr c).mapped y = s.mapped y := rfl
@[simp] theorem State.setCcr_touchesCode (s : State) (c : Ccr) (z : Size) (y : Addr) :
    (s.setCcr c).touchesCode z y = s.touchesCode z y := rfl
@[simp] theorem State.setCcr_dataFault (s : State) (c : Ccr) (k' : AccessKind) (z : Size) (y : Addr) :
    (s.setCcr c).dataFault k' z y = s.dataFault k' z y := rfl
@[simp] theorem State.setCcr_stepOf (s : State) (c : Ccr) (z : Size) (q : Reg) :
    (s.setCcr c).stepOf z q = s.stepOf z q := rfl
@[simp] theorem State.setCcr_nextPc (s : State) (c : Ccr) (n : Nat) : (s.setCcr c).nextPc n = s.nextPc n := rfl
@[simp] theorem State.setCcr_pcBase (s : State) (c : Ccr) : (s.setCcr c).pcBase = s.pcBase := rfl
@[simp] theorem State.setCcr_freeWord (s : State) (c : Ccr) (n : Nat) : (s.setCcr c).freeWord n = s.freeWord n := rfl
@[simp] theorem State.setCcr_freeBit (s : State) (c : Ccr) (n : Nat) : (s.setCcr c).freeBit n = s.freeBit n := rfl

/-! ### `setByte` -/

@[simp] theorem State.setByte_d (s : State) (x : Addr) (b : Byte) : (s.setByte x b).d = s.d := rfl
@[simp] theorem State.setByte_a (s : State) (x : Addr) (b : Byte) : (s.setByte x b).a = s.a := rfl
@[simp] theorem State.setByte_pc (s : State) (x : Addr) (b : Byte) : (s.setByte x b).pc = s.pc := rfl
@[simp] theorem State.setByte_ccr (s : State) (x : Addr) (b : Byte) : (s.setByte x b).ccr = s.ccr := rfl
@[simp] theorem State.setByte_sys (s : State) (x : Addr) (b : Byte) : (s.setByte x b).sys = s.sys := rfl
@[simp] theorem State.setByte_vbr (s : State) (x : Addr) (b : Byte) : (s.setByte x b).vbr = s.vbr := rfl
@[simp] theorem State.setByte_mem (s : State) (x : Addr) (b : Byte) : (s.setByte x b).mem = s.mem.set x.toNat b := rfl
@[simp] theorem State.setByte_config (s : State) (x : Addr) (b : Byte) : (s.setByte x b).config = s.config := rfl
@[simp] theorem State.setByte_freeCount (s : State) (x : Addr) (b : Byte) : (s.setByte x b).freeCount = s.freeCount := rfl

@[simp] theorem State.setByte_dreg (s : State) (x : Addr) (b : Byte) (q : Reg) : (s.setByte x b).dreg q = s.dreg q := rfl
@[simp] theorem State.setByte_areg (s : State) (x : Addr) (b : Byte) (q : Reg) : (s.setByte x b).areg q = s.areg q := rfl
@[simp] theorem State.setByte_sp (s : State) (x : Addr) (b : Byte) : (s.setByte x b).sp = s.sp := rfl
@[simp] theorem State.setByte_mapped (s : State) (x : Addr) (b : Byte) (y : Addr) : (s.setByte x b).mapped y = s.mapped y := rfl
@[simp] theorem State.setByte_touchesCode (s : State) (x : Addr) (b : Byte) (z : Size) (y : Addr) :
    (s.setByte x b).touchesCode z y = s.touchesCode z y := rfl
@[simp] theorem State.setByte_dataFault (s : State) (x : Addr) (b : Byte) (k' : AccessKind) (z : Size) (y : Addr) :
    (s.setByte x b).dataFault k' z y = s.dataFault k' z y := rfl
@[simp] theorem State.setByte_stepOf (s : State) (x : Addr) (b : Byte) (z : Size) (q : Reg) :
    (s.setByte x b).stepOf z q = s.stepOf z q := rfl
@[simp] theorem State.setByte_nextPc (s : State) (x : Addr) (b : Byte) (n : Nat) : (s.setByte x b).nextPc n = s.nextPc n := rfl
@[simp] theorem State.setByte_pcBase (s : State) (x : Addr) (b : Byte) : (s.setByte x b).pcBase = s.pcBase := rfl
@[simp] theorem State.setByte_freeWord (s : State) (x : Addr) (b : Byte) (n : Nat) : (s.setByte x b).freeWord n = s.freeWord n := rfl
@[simp] theorem State.setByte_freeBit (s : State) (x : Addr) (b : Byte) (n : Nat) : (s.setByte x b).freeBit n = s.freeBit n := rfl

/-! ### `spend` -/

@[simp] theorem State.spend_d (s : State) (k : Nat) : (s.spend k).d = s.d := rfl
@[simp] theorem State.spend_a (s : State) (k : Nat) : (s.spend k).a = s.a := rfl
@[simp] theorem State.spend_pc (s : State) (k : Nat) : (s.spend k).pc = s.pc := rfl
@[simp] theorem State.spend_ccr (s : State) (k : Nat) : (s.spend k).ccr = s.ccr := rfl
@[simp] theorem State.spend_sys (s : State) (k : Nat) : (s.spend k).sys = s.sys := rfl
@[simp] theorem State.spend_vbr (s : State) (k : Nat) : (s.spend k).vbr = s.vbr := rfl
@[simp] theorem State.spend_mem (s : State) (k : Nat) : (s.spend k).mem = s.mem := rfl
@[simp] theorem State.spend_config (s : State) (k : Nat) : (s.spend k).config = s.config := rfl
@[simp] theorem State.spend_freeCount (s : State) (k : Nat) : (s.spend k).freeCount = s.freeCount + k := rfl

@[simp] theorem State.spend_dreg (s : State) (k : Nat) (q : Reg) : (s.spend k).dreg q = s.dreg q := rfl
@[simp] theorem State.spend_areg (s : State) (k : Nat) (q : Reg) : (s.spend k).areg q = s.areg q := rfl
@[simp] theorem State.spend_sp (s : State) (k : Nat) : (s.spend k).sp = s.sp := rfl
@[simp] theorem State.spend_byteAt (s : State) (k : Nat) (y : Addr) : (s.spend k).byteAt y = s.byteAt y := rfl
@[simp] theorem State.spend_readMem (s : State) (k : Nat) (z : Size) (y : Addr) :
    (s.spend k).readMem z y = s.readMem z y := rfl
@[simp] theorem State.spend_mapped (s : State) (k : Nat) (y : Addr) : (s.spend k).mapped y = s.mapped y := rfl
@[simp] theorem State.spend_touchesCode (s : State) (k : Nat) (z : Size) (y : Addr) :
    (s.spend k).touchesCode z y = s.touchesCode z y := rfl
@[simp] theorem State.spend_dataFault (s : State) (k : Nat) (k' : AccessKind) (z : Size) (y : Addr) :
    (s.spend k).dataFault k' z y = s.dataFault k' z y := rfl
@[simp] theorem State.spend_stepOf (s : State) (k : Nat) (z : Size) (q : Reg) :
    (s.spend k).stepOf z q = s.stepOf z q := rfl
@[simp] theorem State.spend_nextPc (s : State) (k : Nat) (n : Nat) : (s.spend k).nextPc n = s.nextPc n := rfl
@[simp] theorem State.spend_pcBase (s : State) (k : Nat) : (s.spend k).pcBase = s.pcBase := rfl

/-! ### `setSr` -/

@[simp] theorem State.setSr_d (s : State) (w : Word16) : (s.setSr w).d = s.d := rfl
@[simp] theorem State.setSr_a (s : State) (w : Word16) : (s.setSr w).a = s.a := rfl
@[simp] theorem State.setSr_pc (s : State) (w : Word16) : (s.setSr w).pc = s.pc := rfl
@[simp] theorem State.setSr_ccr (s : State) (w : Word16) : (s.setSr w).ccr = Ccr.ofBits w := rfl
@[simp] theorem State.setSr_sys (s : State) (w : Word16) : (s.setSr w).sys = ⟨w.getLsbD 15, w.getLsbD 13, w.getLsbD 12, w.extractLsb' 8 3⟩ := rfl
@[simp] theorem State.setSr_vbr (s : State) (w : Word16) : (s.setSr w).vbr = s.vbr := rfl
@[simp] theorem State.setSr_mem (s : State) (w : Word16) : (s.setSr w).mem = s.mem := rfl
@[simp] theorem State.setSr_config (s : State) (w : Word16) : (s.setSr w).config = s.config := rfl
@[simp] theorem State.setSr_freeCount (s : State) (w : Word16) : (s.setSr w).freeCount = s.freeCount := rfl

@[simp] theorem State.setSr_dreg (s : State) (w : Word16) (q : Reg) : (s.setSr w).dreg q = s.dreg q := rfl
@[simp] theorem State.setSr_areg (s : State) (w : Word16) (q : Reg) : (s.setSr w).areg q = s.areg q := rfl
@[simp] theorem State.setSr_sp (s : State) (w : Word16) : (s.setSr w).sp = s.sp := rfl
@[simp] theorem State.setSr_byteAt (s : State) (w : Word16) (y : Addr) : (s.setSr w).byteAt y = s.byteAt y := rfl
@[simp] theorem State.setSr_readMem (s : State) (w : Word16) (z : Size) (y : Addr) :
    (s.setSr w).readMem z y = s.readMem z y := rfl
@[simp] theorem State.setSr_mapped (s : State) (w : Word16) (y : Addr) : (s.setSr w).mapped y = s.mapped y := rfl
@[simp] theorem State.setSr_touchesCode (s : State) (w : Word16) (z : Size) (y : Addr) :
    (s.setSr w).touchesCode z y = s.touchesCode z y := rfl
@[simp] theorem State.setSr_dataFault (s : State) (w : Word16) (k' : AccessKind) (z : Size) (y : Addr) :
    (s.setSr w).dataFault k' z y = s.dataFault k' z y := rfl
@[simp] theorem State.setSr_stepOf (s : State) (w : Word16) (z : Size) (q : Reg) :
    (s.setSr w).stepOf z q = s.stepOf z q := rfl
@[simp] theorem State.setSr_nextPc (s : State) (w : Word16) (n : Nat) : (s.setSr w).nextPc n = s.nextPc n := rfl
@[simp] theorem State.setSr_pcBase (s : State) (w : Word16) : (s.setSr w).pcBase = s.pcBase := rfl
@[simp] theorem State.setSr_freeWord (s : State) (w : Word16) (n : Nat) : (s.setSr w).freeWord n = s.freeWord n := rfl
@[simp] theorem State.setSr_freeBit (s : State) (w : Word16) (n : Nat) : (s.setSr w).freeBit n = s.freeBit n := rfl

/-! ### Registers read after a write -/

theorem State.setD_dreg (s : State) (r : Reg) (v : Word) (q : Reg) :
    (s.setD r v).dreg q = if q = r then v else s.dreg q := by
  simp only [State.dreg, State.setD, Fin.getElem_fin, Vector.getElem_set]
  by_cases h : q = r <;> simp [h, eq_comm]
  intro h'; exact absurd (Fin.ext h'.symm) (by simpa [eq_comm] using h)

theorem State.setA_areg (s : State) (r : Reg) (v : Word) (q : Reg) :
    (s.setA r v).areg q = if q = r then v else s.areg q := by
  simp only [State.areg, State.setA, Fin.getElem_fin, Vector.getElem_set]
  by_cases h : q = r <;> simp [h, eq_comm]
  intro h'; exact absurd (Fin.ext h'.symm) (by simpa [eq_comm] using h)

@[simp] theorem State.setD_dreg_self (s : State) (r : Reg) (v : Word) : (s.setD r v).dreg r = v := by
  simp [State.setD_dreg]

@[simp] theorem State.setA_areg_self (s : State) (r : Reg) (v : Word) : (s.setA r v).areg r = v := by
  simp [State.setA_areg]

@[simp] theorem State.setA_sp_self (s : State) (v : Word) : (s.setA 7 v).sp = v := State.setA_areg_self s 7 v

theorem State.setA_sp (s : State) (r : Reg) (v : Word) : (s.setA r v).sp = if r = 7 then v else s.sp := by
  simp [State.sp, State.setA_areg, eq_comm]

end Sys2Proof.Machine
end

