-- ==== Sys2Proof/Laws/Memory.lean ====
section
/-! SUPPORT. Memory: reading after writing, the canonical form that every write keeps, and the fields and bytes a store
leaves alone. -/

namespace Sys2Proof.Machine

/-! ### The list -/

theorem Memory.get_insert (m : Memory) (a c : Nat) (b : Byte) :
    (m.insert a b).get c = if c = a then b else m.get c := by
  induction m with
  | nil => simp [Memory.insert, Memory.get, eq_comm]
  | cons p m ih =>
    obtain ⟨k, v⟩ := p
    simp only [Memory.insert]
    split
    · simp only [Memory.get, ih]
      split <;> split <;> first | rfl | omega
    · split
      · simp only [Memory.get]
        split <;> split <;> first | rfl | omega | (split <;> first | rfl | omega)
      · simp only [Memory.get, eq_comm (a := c)]

theorem Memory.get_erase (m : Memory) (a c : Nat) :
    Memory.get (m.filter (fun p => p.1 ≠ a)) c = if c = a then memoryFill else m.get c := by
  induction m with
  | nil => simp [Memory.get]
  | cons p m ih =>
    obtain ⟨k, v⟩ := p
    by_cases h : k = a
    · subst h
      simp only [ne_eq, not_true_eq_false, decide_false, Bool.false_eq_true, not_false_eq_true, List.filter_cons_of_neg, ih,
        Memory.get]
      by_cases hc : c = k <;> simp [hc, eq_comm]
    · simp only [ne_eq, h, not_false_eq_true, decide_true, List.filter_cons_of_pos, Memory.get, ih]
      split
      · subst_vars; simp [h]
      · rfl

/-- A read after a write: the byte written at its address, every other byte as before. -/
theorem Memory.get_set (m : Memory) (a c : Nat) (b : Byte) : (m.set a b).get c = if c = a then b else m.get c := by
  unfold Memory.set
  split
  · rename_i h; rw [Memory.get_erase, h]
  · exact Memory.get_insert m a c b

theorem Memory.mem_insert {m : Memory} {a : Nat} {b : Byte} {p : Host.Cell} (h : p ∈ m.insert a b) :
    p = (a, b) ∨ p ∈ m := by
  induction m with
  | nil => simpa [Memory.insert] using h
  | cons q m ih =>
    obtain ⟨k, v⟩ := q
    simp only [Memory.insert] at h
    split at h
    · rcases List.mem_cons.1 h with h | h
      · exact .inr (h ▸ List.mem_cons_self ..)
      · exact (ih h).imp_right (List.mem_cons_of_mem _)
    · split at h
      · rcases List.mem_cons.1 h with h | h
        · exact .inl h
        · exact .inr (List.mem_cons_of_mem _ h)
      · rcases List.mem_cons.1 h with h | h
        · exact .inl h
        · exact .inr h

theorem Memory.insert_sorted {m : Memory} (a : Nat) (b : Byte) (h : m.Pairwise (fun p q => p.1 < q.1)) :
    (m.insert a b).Pairwise (fun p q => p.1 < q.1) := by
  induction m with
  | nil => simp [Memory.insert]
  | cons q m ih =>
    obtain ⟨k, v⟩ := q
    obtain ⟨h1, h2⟩ := List.pairwise_cons.1 h
    simp only [Memory.insert]
    split
    · rename_i hk
      refine List.pairwise_cons.2 ⟨fun p hp => ?_, ih h2⟩
      rcases Memory.mem_insert hp with hp | hp
      · simpa [hp] using hk
      · exact h1 p hp
    · split
      · rename_i hk; subst hk
        exact List.pairwise_cons.2 ⟨h1, h2⟩
      · have : a < k := by omega
        refine List.pairwise_cons.2 ⟨fun p hp => ?_, h⟩
        rcases List.mem_cons.1 hp with hp | hp
        · simpa [hp] using this
        · exact this.trans (h1 p hp)

/-- Every write keeps the canonical form. -/
theorem Memory.set_wf {m : Memory} {a : Nat} (b : Byte) (h : m.wf) (ha : a < 2 ^ 32) : (m.set a b).wf := by
  unfold Memory.set
  split
  · exact ⟨h.1.filter _, fun p hp => h.2 p (List.mem_of_mem_filter hp)⟩
  · rename_i hb
    refine ⟨Memory.insert_sorted a b h.1, fun p hp => ?_⟩
    rcases Memory.mem_insert hp with hp | hp
    · subst hp; exact ⟨ha, hb⟩
    · exact h.2 p hp

theorem Memory.get_of_notMem {m : Memory} {a : Nat} (h : ∀ p ∈ m, p.1 ≠ a) : m.get a = memoryFill := by
  induction m with
  | nil => rfl
  | cons p m ih =>
    obtain ⟨k, v⟩ := p
    have hk : k ≠ a := h (k, v) List.mem_cons_self
    simp only [Memory.get, hk, if_false]
    exact ih fun q hq => h q (List.mem_cons_of_mem _ hq)

/-! ### Bytes and stores -/

theorem State.setByte_byteAt (s : State) (x : Addr) (b : Byte) (y : Addr) :
    (s.setByte x b).byteAt y = if y = x then b else s.byteAt y := by
  simp only [State.byteAt, State.setByte_mem, Memory.get_set, BitVec.toNat_inj]

theorem State.setByte_wf {s : State} (x : Addr) (b : Byte) (h : s.mem.wf) : (s.setByte x b).mem.wf :=
  Memory.set_wf b h x.isLt

@[simp] theorem State.writeMem_d (s : State) (z : Size) (x : Addr) (v : Word) : (s.writeMem z x v).d = s.d := by cases z <;> rfl
@[simp] theorem State.writeMem_a (s : State) (z : Size) (x : Addr) (v : Word) : (s.writeMem z x v).a = s.a := by cases z <;> rfl
@[simp] theorem State.writeMem_pc (s : State) (z : Size) (x : Addr) (v : Word) : (s.writeMem z x v).pc = s.pc := by cases z <;> rfl
@[simp] theorem State.writeMem_ccr (s : State) (z : Size) (x : Addr) (v : Word) : (s.writeMem z x v).ccr = s.ccr := by
  cases z <;> rfl
@[simp] theorem State.writeMem_sys (s : State) (z : Size) (x : Addr) (v : Word) : (s.writeMem z x v).sys = s.sys := by
  cases z <;> rfl
@[simp] theorem State.writeMem_vbr (s : State) (z : Size) (x : Addr) (v : Word) : (s.writeMem z x v).vbr = s.vbr := by
  cases z <;> rfl
@[simp] theorem State.writeMem_config (s : State) (z : Size) (x : Addr) (v : Word) : (s.writeMem z x v).config = s.config := by
  cases z <;> rfl
@[simp] theorem State.writeMem_freeCount (s : State) (z : Size) (x : Addr) (v : Word) :
    (s.writeMem z x v).freeCount = s.freeCount := by cases z <;> rfl
@[simp] theorem State.writeMem_dreg (s : State) (z : Size) (x : Addr) (v : Word) (q : Reg) :
    (s.writeMem z x v).dreg q = s.dreg q := by cases z <;> rfl
@[simp] theorem State.writeMem_areg (s : State) (z : Size) (x : Addr) (v : Word) (q : Reg) :
    (s.writeMem z x v).areg q = s.areg q := by cases z <;> rfl
@[simp] theorem State.writeMem_sp (s : State) (z : Size) (x : Addr) (v : Word) : (s.writeMem z x v).sp = s.sp := by
  cases z <;> rfl
@[simp] theorem State.writeMem_mapped (s : State) (z : Size) (x : Addr) (v : Word) (y : Addr) :
    (s.writeMem z x v).mapped y = s.mapped y := by cases z <;> rfl
@[simp] theorem State.writeMem_touchesCode (s : State) (z : Size) (x : Addr) (v : Word) (z' : Size) (y : Addr) :
    (s.writeMem z x v).touchesCode z' y = s.touchesCode z' y := by cases z <;> rfl
@[simp] theorem State.writeMem_dataFault (s : State) (z : Size) (x : Addr) (v : Word) (k : AccessKind) (z' : Size) (y : Addr) :
    (s.writeMem z x v).dataFault k z' y = s.dataFault k z' y := by cases z <;> rfl
@[simp] theorem State.writeMem_nextPc (s : State) (z : Size) (x : Addr) (v : Word) (n : Nat) :
    (s.writeMem z x v).nextPc n = s.nextPc n := by cases z <;> rfl
@[simp] theorem State.writeMem_pcBase (s : State) (z : Size) (x : Addr) (v : Word) : (s.writeMem z x v).pcBase = s.pcBase := by
  cases z <;> rfl
@[simp] theorem State.writeMem_freeWord (s : State) (z : Size) (x : Addr) (v : Word) (n : Nat) :
    (s.writeMem z x v).freeWord n = s.freeWord n := by cases z <;> rfl
@[simp] theorem State.writeMem_freeBit (s : State) (z : Size) (x : Addr) (v : Word) (n : Nat) :
    (s.writeMem z x v).freeBit n = s.freeBit n := by cases z <;> rfl

/-- Every store keeps the canonical form. -/
theorem State.writeMem_wf {s : State} (z : Size) (x : Addr) (v : Word) (h : s.mem.wf) : (s.writeMem z x v).mem.wf := by
  cases z
  · exact State.setByte_wf _ _ h
  · exact State.setByte_wf _ _ (State.setByte_wf _ _ h)
  · exact State.setByte_wf _ _ (State.setByte_wf _ _ (State.setByte_wf _ _ (State.setByte_wf _ _ h)))

/-- A store leaves every byte outside its own alone. -/
theorem State.writeMem_byteAt_of_notMem (s : State) (z : Size) (x : Addr) (v : Word) (y : Addr)
    (h : y ∉ accessBytes z x) : (s.writeMem z x v).byteAt y = s.byteAt y := by
  cases z <;> simp_all [State.writeMem, accessBytes, State.setByte_byteAt]

/-- A read at the address and the size of a store answers the low bits of the value stored. -/
theorem State.writeMem_readMem_self (s : State) (z : Size) (x : Addr) (v : Word) :
    (s.writeMem z x v).readMem z x = z.trunc v := by
  have h1 : x ≠ x + 1 := by bv_omega
  have h2 : x ≠ x + 2 := by bv_omega
  have h3 : x ≠ x + 3 := by bv_omega
  have h4 : x + 1 ≠ x + 2 := by bv_omega
  have h5 : x + 1 ≠ x + 3 := by bv_omega
  have h6 : x + 2 ≠ x + 3 := by bv_omega
  cases z
  · simp only [State.writeMem, State.readMem, State.setByte_byteAt, Size.trunc, if_true]
    apply BitVec.eq_of_getLsbD_eq; intro i hi
    simp
  · simp only [State.writeMem, State.readMem, State.setByte_byteAt, Size.trunc, if_true, if_neg h1]
    apply BitVec.eq_of_getLsbD_eq; intro i hi
    simp only [BitVec.getLsbD_setWidth, BitVec.getLsbD_append, BitVec.getLsbD_extractLsb', hi, decide_true, Bool.true_and]
    by_cases h : i < 8
    · simp [h, show i < 16 by omega]
    · by_cases h' : i < 16
      · simp [h, h', show i - 8 < 8 by omega, show 8 + (i - 8) = i by omega]
      · simp [h, h', show ¬ i - 8 < 8 by omega]
  · simp only [State.writeMem, State.readMem, State.setByte_byteAt, Size.trunc, if_true, if_neg h1, if_neg h2, if_neg h3,
      if_neg h4, if_neg h5, if_neg h6]
    apply BitVec.eq_of_getLsbD_eq; intro i hi
    simp only [BitVec.getLsbD_append, BitVec.getLsbD_extractLsb']
    by_cases a1 : i < 8
    · simp [a1]
    · by_cases a2 : i < 16
      · simp [a1, show i - 8 < 8 by omega, show 8 + (i - 8) = i by omega]
      · by_cases a3 : i < 24
        · simp [a1, show ¬ i - 8 < 8 by omega, show i - 8 - 8 < 8 by omega, show 16 + (i - 8 - 8) = i by omega]
        · simp [a1, show ¬ i - 8 < 8 by omega, show ¬ i - 8 - 8 < 8 by omega, show i - 8 - 8 - 8 < 8 by omega,
            show 24 + (i - 8 - 8 - 8) = i by omega]

/-- A read looks at the bytes of its access alone. -/
theorem State.readMem_congr {s t : State} (z : Size) (x : Addr) (h : ∀ y ∈ accessBytes z x, t.byteAt y = s.byteAt y) :
    t.readMem z x = s.readMem z x := by
  cases z <;> simp_all [State.readMem, accessBytes]

/-- A read answers no more than its size. -/
theorem State.readMem_trunc (s : State) (z : Size) (x : Addr) : z.trunc (s.readMem z x) = s.readMem z x := by
  cases z <;> simp [State.readMem, Size.trunc]

/-- Memory right after reset has the canonical form. -/
theorem State.launch_mem_wf (c : Config) : (State.launch c).mem.wf := ⟨List.Pairwise.nil, by simp [State.launch]⟩

theorem State.reset_mem_wf : State.reset.mem.wf := State.launch_mem_wf _

end Sys2Proof.Machine
end

