-- ==== Sys2Proof/Laws/Ops.lean ====
section
/-! SUPPORT. What the shared operations can do, said once: memory accesses, pushes, taking an exception, returning from one,
and the outcome of a meaning; and `Carries`, what everything but an exception leaves alone. -/

namespace Sys2Proof.Machine

/-! ### Memory accesses -/

theorem readable_congr {s t : State} (h : t.config = s.config) (z : Size) (a : Addr) : t.readable z a ↔ s.readable z a := by
  simp only [State.readable, h]

theorem writable_congr {s t : State} (h : t.config = s.config) (z : Size) (a : Addr) : t.writable z a ↔ s.writable z a := by
  simp only [State.writable, State.readable, h]

theorem dataFault_eq_none_iff (s : State) (k : AccessKind) (z : Size) (a : Addr) :
    s.dataFault k z a = none ↔ s.readable z a := by
  unfold State.dataFault State.readable misaligned
  by_cases h1 : s.config.misalignedData = .fault <;> by_cases h2 : a.toNat % z.bytes = 0 <;> simp [h1, h2, State.mapped]

theorem dataFault_of_not_readable {s : State} (k : AccessKind) {z : Size} {a : Addr} (h : ¬ s.readable z a) :
    s.dataFault k z a = some (accessException s k z a) := by
  revert h
  unfold State.dataFault State.readable misaligned accessException
  by_cases h1 : s.config.misalignedData = .fault <;> by_cases h2 : a.toNat % z.bytes = 0 <;> simp [h1, h2, State.mapped]

theorem touchesCode_eq_false_iff (s : State) (z : Size) (a : Addr) :
    s.touchesCode z a = false ↔ (accessBytes z a).any (inRegions s.config.codeRegion) = false := Iff.rfl

theorem memRead_of_readable {s : State} {z : Size} {a : Addr} (h : s.readable z a) :
    memRead z a s = .ok (s.readMem z a) := by
  simp [memRead, (dataFault_eq_none_iff s .read z a).2 h]

theorem memRead_of_not_readable {s : State} {z : Size} {a : Addr} (h : ¬ s.readable z a) :
    memRead z a s = .error (.raised (accessException s .read z a) s) := by
  simp [memRead, dataFault_of_not_readable .read h]

/-- A read that answers a value met the conditions of R44, and the value is the bytes there. -/
theorem memRead_ok {s : State} {z : Size} {a : Addr} {v : Word} (h : memRead z a s = .ok v) :
    s.readable z a ∧ v = s.readMem z a := by
  by_cases hr : s.readable z a
  · rw [memRead_of_readable hr] at h; exact ⟨hr, (Except.ok.inj h).symm⟩
  · rw [memRead_of_not_readable hr] at h; cases h

theorem memWrite_of_writable {s : State} {z : Size} {a : Addr} (v : Word) (h : s.writable z a) :
    memWrite z a v s = .ok (s.writeMem z a v) := by
  simp [memWrite, (dataFault_eq_none_iff s .write z a).2 h.1, (touchesCode_eq_false_iff s z a).2 h.2]

theorem memWrite_of_not_readable {s : State} {z : Size} {a : Addr} (v : Word) (h : ¬ s.readable z a) :
    memWrite z a v s = .error (.raised (accessException s .write z a) s) := by
  simp [memWrite, dataFault_of_not_readable .write h]

theorem memWrite_of_code {s : State} {z : Size} {a : Addr} (v : Word) (h : s.readable z a) (hc : ¬ s.writable z a) :
    memWrite z a v s = .error (.refused (.storeIntoCode a)) := by
  have ht : s.touchesCode z a = true := by
    by_contra hf
    exact hc ⟨h, (touchesCode_eq_false_iff s z a).1 (by simpa using hf)⟩
  simp [memWrite, (dataFault_eq_none_iff s .write z a).2 h, ht]

/-- A store that answers a state met the conditions of R45, and the state is the one with the bytes written. -/
theorem memWrite_ok {s t : State} {z : Size} {a : Addr} {v : Word} (h : memWrite z a v s = .ok t) :
    s.writable z a ∧ t = s.writeMem z a v := by
  by_cases hw : s.writable z a
  · rw [memWrite_of_writable v hw] at h; exact ⟨hw, (Except.ok.inj h).symm⟩
  · by_cases hr : s.readable z a
    · rw [memWrite_of_code v hr hw] at h; cases h
    · rw [memWrite_of_not_readable v hr] at h; cases h

theorem pushLong_of_writable {s : State} (v : Word) (h : s.writable .L (s.sp - 4)) :
    pushLong v s = .ok ((s.setA 7 (s.sp - 4)).writeMem .L (s.sp - 4) v) := memWrite_of_writable v h

theorem pushLong_ok {s t : State} {v : Word} (h : pushLong v s = .ok t) :
    s.writable .L (s.sp - 4) ∧ t = (s.setA 7 (s.sp - 4)).writeMem .L (s.sp - 4) v := memWrite_ok h

/-! ### What everything but an exception leaves alone -/

/-- The parameters, the vector base and the upper byte of SR as before, memory still in its canonical form. -/
structure Carries (s t : State) : Prop where
  config : t.config = s.config
  vbr : t.vbr = s.vbr
  sys : t.sys = s.sys
  wf : s.mem.wf → t.mem.wf

theorem Carries.refl (s : State) : Carries s s := ⟨rfl, rfl, rfl, id⟩

theorem Carries.trans {s t u : State} (h : Carries s t) (h' : Carries t u) : Carries s u :=
  ⟨h'.config.trans h.config, h'.vbr.trans h.vbr, h'.sys.trans h.sys, fun w => h'.wf (h.wf w)⟩

theorem Carries.setD (s : State) (r : Reg) (v : Word) : Carries s (s.setD r v) := ⟨rfl, rfl, rfl, id⟩
theorem Carries.setDLow (s : State) (z : Size) (r : Reg) (v : Word) : Carries s (s.setDLow z r v) := ⟨rfl, rfl, rfl, id⟩
theorem Carries.setA (s : State) (r : Reg) (v : Word) : Carries s (s.setA r v) := ⟨rfl, rfl, rfl, id⟩
theorem Carries.setPc (s : State) (v : Addr) : Carries s (s.setPc v) := ⟨rfl, rfl, rfl, id⟩
theorem Carries.setCcr (s : State) (c : Ccr) : Carries s (s.setCcr c) := ⟨rfl, rfl, rfl, id⟩
theorem Carries.spend (s : State) (k : Nat) : Carries s (s.spend k) := ⟨rfl, rfl, rfl, id⟩
theorem Carries.writeMem (s : State) (z : Size) (a : Addr) (v : Word) : Carries s (s.writeMem z a v) :=
  ⟨by simp, by simp, by simp, State.writeMem_wf z a v⟩

theorem Carries.setR (s : State) (i : Fin 16) (v : Word) : Carries s (s.setR i v) := by
  unfold State.setR; split
  · exact Carries.setD ..
  · exact Carries.setA ..

/-- The state a result carries, if it has one: of a run to the end, or at the point of a `raise`. -/
inductive Reaches : Result State → State → Prop where
  | ok (t : State) : Reaches (.ok t) t
  | raised (e : Exception) (t : State) : Reaches (.error (.raised e t)) t

theorem Reaches.of_ok {s t : State} (h : Reaches (.ok s) t) : t = s := by cases h; rfl

theorem memRead_raised {s t : State} {z : Size} {a : Addr} {e : Exception} (h : memRead z a s = .error (.raised e t)) :
    t = s := by
  by_cases hr : s.readable z a
  · rw [memRead_of_readable hr] at h; cases h
  · rw [memRead_of_not_readable hr] at h; cases h; rfl

theorem memWrite_raised {s t : State} {z : Size} {a : Addr} {v : Word} {e : Exception}
    (h : memWrite z a v s = .error (.raised e t)) : t = s := by
  by_cases hr : s.readable z a
  · by_cases hw : s.writable z a
    · rw [memWrite_of_writable v hw] at h; cases h
    · rw [memWrite_of_code v hr hw] at h; cases h
  · rw [memWrite_of_not_readable v hr] at h; cases h; rfl

theorem memWrite_carries {s t : State} {z : Size} {a : Addr} {v : Word} (h : Reaches (memWrite z a v s) t) : Carries s t := by
  generalize hr : memWrite z a v s = r at h
  cases h with
  | ok t => rw [(memWrite_ok hr).2]; exact Carries.writeMem ..
  | raised e t => rw [memWrite_raised hr]; exact Carries.refl s

theorem pushLong_carries {s t : State} {v : Word} (h : Reaches (pushLong v s) t) : Carries s t :=
  (Carries.setA s 7 _).trans (memWrite_carries h)

/-! ### Sequencing -/

theorem Result.bind_ok {α β : Type} {x : Result α} {f : α → Result β} {b : β} (h : x >>= f = .ok b) :
    ∃ a, x = .ok a ∧ f a = .ok b := by
  cases x with
  | ok a => exact ⟨a, rfl, h⟩
  | error e => cases h

/-- What a sequence reaches, its first part raised or its second part reached. -/
theorem Result.bind_reaches {α : Type} {x : Result α} {f : α → Result State} {t : State} (h : Reaches (x >>= f) t) :
    (∃ e, x = .error (.raised e t)) ∨ ∃ a, x = .ok a ∧ Reaches (f a) t := by
  cases x with
  | ok a => exact .inr ⟨a, rfl, h⟩
  | error e => cases h; exact .inl ⟨_, rfl⟩

/-! ### Taking an exception -/

/-- What taking an exception can answer: the frame is at SP rounded down less 8, both its longs and the vector are
accessible, S is set and T cleared, the pc is the vector's. -/
theorem enterException_ok {e : Exception} {pc0 : Addr} {s t : State} (h : enterException e pc0 s = .ok t) :
    let sp := frameAddr s.sp
    let u := ((({ s with sys := { s.sys with s := true, t := false } }.spend 1).setA 7 sp).writeMem .L sp
      (frameWord (frameFormat s.sp) ((s.freeWord 0).setWidth 4) e.vector s.srWord)).writeMem .L (sp + 4) (e.savedPc pc0)
    s.writable .L sp ∧ s.writable .L (sp + 4) ∧ s.readable .L (vectorAddr s.vbr e.vector) ∧
      t = u.setPc (u.readMem .L (vectorAddr s.vbr e.vector)) := by
  obtain ⟨s2, h2, h⟩ := Result.bind_ok h
  obtain ⟨w2, rfl⟩ := memWrite_ok h2
  obtain ⟨s3, h3, h⟩ := Result.bind_ok h
  obtain ⟨w3, rfl⟩ := memWrite_ok h3
  obtain ⟨v, h4, h⟩ := Result.bind_ok h
  obtain ⟨w4, rfl⟩ := memRead_ok h4
  simp only [State.readable, State.writable, State.writeMem_config, State.setA_config, State.spend_config,
    State.writeMem_vbr, State.setA_vbr, State.spend_vbr] at w2 w3 w4
  exact ⟨w2, w3, w4, (Except.ok.inj h).symm⟩

theorem enterException_of_accessible {e : Exception} {pc0 : Addr} {s : State} (h1 : s.writable .L (frameAddr s.sp))
    (h2 : s.writable .L (frameAddr s.sp + 4)) (h3 : s.readable .L (vectorAddr s.vbr e.vector)) :
    ∃ t, enterException e pc0 s = .ok t := by
  unfold enterException
  dsimp only
  rw [memWrite_of_writable]
  · simp only [bind, Except.bind]
    rw [memWrite_of_writable]
    · simp only
      rw [memRead_of_readable]
      · exact ⟨_, rfl⟩
      · simpa only [State.readable, State.writeMem_config, State.setA_config, State.spend_config,
          State.writeMem_vbr, State.setA_vbr, State.spend_vbr] using h3
    · simpa only [State.readable, State.writable, State.writeMem_config, State.setA_config,
        State.spend_config] using h2
  · simpa only [State.readable, State.writable, State.setA_config, State.spend_config] using h1

/-- Where a long of the frame, or the vector, is the first that cannot be accessed, taking an exception stops with the
exception of that access; S is set, T cleared, SP at the frame, the pc not yet loaded. -/
theorem enterException_of_inaccessible {e : Exception} {pc0 : Addr} {s : State} {k : AccessKind} {a : Addr}
    (h : k = .write ∧ a = frameAddr s.sp ∨
      k = .write ∧ a = frameAddr s.sp + 4 ∧ s.writable .L (frameAddr s.sp) ∨
      k = .read ∧ a = vectorAddr s.vbr e.vector ∧ s.writable .L (frameAddr s.sp) ∧ s.writable .L (frameAddr s.sp + 4))
    (hr : ¬ s.readable .L a) :
    ∃ t, enterException e pc0 s = .error (.raised (accessException s k .L a) t) ∧ t.sp = frameAddr s.sp ∧ t.pc = s.pc ∧
      t.sys = { s.sys with s := true, t := false } := by
  set s1 := ({ s with sys := { s.sys with s := true, t := false } }.spend 1).setA 7 (frameAddr s.sp) with hs1
  set frame := frameWord (frameFormat s.sp) ((s.freeWord 0).setWidth 4) e.vector s.srWord with hf
  have hc : s1.config = s.config := rfl
  have hsp : s1.sp = frameAddr s.sp := State.setA_sp_self _ _
  rcases h with ⟨rfl, rfl⟩ | ⟨rfl, rfl, w1⟩ | ⟨rfl, rfl, w1, w2⟩
  · have h1 : ¬ s1.readable .L (frameAddr s.sp) := hr
    refine ⟨s1, ?_, hsp, rfl, rfl⟩
    simp only [enterException, bind, Except.bind, ← hs1, memWrite_of_not_readable _ h1]
    rfl
  · have h1 : s1.writable .L (frameAddr s.sp) := w1
    set s2 := s1.writeMem .L (frameAddr s.sp) frame with hs2
    have h2 : ¬ s2.readable .L (frameAddr s.sp + 4) := by
      rw [readable_congr (s := s) (by simp [hs2]; rfl)]; exact hr
    refine ⟨s2, ?_, by simpa [hs2] using hsp, by simp [hs2]; rfl, by simp [hs2]; rfl⟩
    simp only [enterException, bind, Except.bind, ← hs1, memWrite_of_writable _ h1, ← hf, ← hs2,
      memWrite_of_not_readable _ h2]
    simp [accessException, hs2, hc]
  · have h1 : s1.writable .L (frameAddr s.sp) := w1
    set s2 := s1.writeMem .L (frameAddr s.sp) frame with hs2
    have h2 : s2.writable .L (frameAddr s.sp + 4) := by
      rw [writable_congr (s := s) (by simp [hs2]; rfl)]; exact w2
    set s3 := s2.writeMem .L (frameAddr s.sp + 4) (e.savedPc pc0) with hs3
    have hv : s3.vbr = s.vbr := by simp [hs3, hs2]; rfl
    have h3 : ¬ s3.readable .L (vectorAddr s.vbr e.vector) := by
      rw [readable_congr (s := s) (by simp [hs3, hs2]; rfl)]; exact hr
    refine ⟨s3, ?_, by simpa [hs3, hs2] using hsp, by simp [hs3, hs2]; rfl, by simp [hs3, hs2]; rfl⟩
    simp only [enterException, bind, Except.bind, ← hs1, memWrite_of_writable _ h1, ← hf, ← hs2,
      memWrite_of_writable _ h2, ← hs3, hv, memRead_of_not_readable h3]
    simp [accessException, hs3, hs2, hc]

/-- What taking an exception, done or stopped halfway, can change of SR, VBR, the parameters and the memory's form. -/
theorem enterException_reaches {e : Exception} {pc0 : Addr} {s t : State} (h : Reaches (enterException e pc0 s) t) :
    t.config = s.config ∧ t.vbr = s.vbr ∧ t.sys = { s.sys with s := true, t := false } ∧ (s.mem.wf → t.mem.wf) := by
  have base : Carries { s with sys := { s.sys with s := true, t := false } }
      (({ s with sys := { s.sys with s := true, t := false } }.spend 1).setA 7 (frameAddr s.sp)) := ⟨rfl, rfl, rfl, id⟩
  have key : Carries { s with sys := { s.sys with s := true, t := false } } t := by
    rcases Result.bind_reaches h with ⟨_, h1⟩ | ⟨s2, h1, h⟩
    · rw [memWrite_raised h1]; exact base
    · have c1 := base.trans (memWrite_carries (h1 ▸ Reaches.ok s2))
      rcases Result.bind_reaches h with ⟨_, h2⟩ | ⟨s3, h2, h⟩
      · rw [memWrite_raised h2]; exact c1
      · have c2 := c1.trans (memWrite_carries (h2 ▸ Reaches.ok s3))
        rcases Result.bind_reaches h with ⟨_, h3⟩ | ⟨v, h3, h⟩
        · rw [memRead_raised h3]; exact c2
        · rw [h.of_ok]; exact c2.trans (Carries.setPc ..)
  exact ⟨key.config, key.vbr, key.sys, key.wf⟩

theorem stateAtRaise_carries {s0 s1 : State} (h : Carries s0 s1) : Carries s0 (stateAtRaise s0 s1) := by
  unfold stateAtRaise
  split
  · exact Carries.refl _
  · refine Carries.trans ?_ (Carries.spend _ 1)
    split
    · exact h
    · exact ⟨rfl, rfl, rfl, id⟩

@[simp] theorem stateAtRaise_self (s : State) : stateAtRaise s s = s := by simp [stateAtRaise]

/-- The state at a raise is the one before or the one at the `raise`, but for the count of free values. -/
theorem stateAtRaise_cases (s0 s1 : State) :
    ∃ k, stateAtRaise s0 s1 = { s0 with freeCount := k } ∨ stateAtRaise s0 s1 = { s1 with freeCount := k } := by
  unfold stateAtRaise
  split
  · exact ⟨s0.freeCount, .inl rfl⟩
  · split
    · exact ⟨s1.freeCount + 1, .inr rfl⟩
    · exact ⟨s1.freeCount + 1, .inl rfl⟩

/-- Where an exception leads to a next state, the machine is a supervisor one, and an exception was entered. -/
theorem takeException_next {e : Exception} {s0 s1 t : State} (h : takeException e s0 s1 = .next t) :
    s0.config.trapModel = .supervisor ∧
      (enterException e s0.pc (stateAtRaise s0 s1) = .ok t ∨
        ∃ n e' u, e = .trap n ∧ enterException e s0.pc (stateAtRaise s0 s1) = .error (.raised e' u) ∧
          enterException e' s0.pc (stateAtRaise (stateAtRaise s0 s1) u) = .ok t) := by
  unfold takeException at h
  split at h
  · cases h
  · rename_i hm
    refine ⟨hm, ?_⟩
    split at h
    · rename_i t' ht; cases h; exact .inl ht
    · cases h
    · rename_i e' u hu
      split at h
      · split at h
        · rename_i _ n _ _ hv; cases h; exact .inr ⟨n, e', u, rfl, hu, hv⟩
        · cases h
        · cases h
      · cases h

theorem takeException_terminal {e : Exception} {s0 s1 : State} (h : s0.config.trapModel = .terminal) :
    takeException e s0 s1 = .fault (.trap e s0.pc) := by
  simp [takeException, h]

/-! ### From a result to an outcome -/

@[simp] theorem finishAt_ok (s t : State) : finishAt s (.ok t) = .next t := rfl
@[simp] theorem finish_ok (s t : State) (n : Nat) : finish s n (.ok t) = .next (t.setPc (s.nextPc n)) := rfl
@[simp] theorem finishAt_raised (s t : State) (e : Exception) : finishAt s (.error (.raised e t)) = takeException e s t := rfl
@[simp] theorem finish_raised (s t : State) (e : Exception) (n : Nat) :
    finish s n (.error (.raised e t)) = takeException e s t := rfl

theorem finishAt_next {s t : State} {r : Result State} (h : finishAt s r = .next t) :
    r = .ok t ∨ ∃ e u, r = .error (.raised e u) ∧ takeException e s u = .next t := by
  rcases r with (⟨e, u⟩ | q) | u
  · exact .inr ⟨e, u, rfl, h⟩
  · cases h
  · cases h; exact .inl rfl

theorem finish_next {s t : State} {n : Nat} {r : Result State} (h : finish s n r = .next t) :
    (∃ u, r = .ok u ∧ t = u.setPc (s.nextPc n)) ∨ ∃ e u, r = .error (.raised e u) ∧ takeException e s u = .next t := by
  rcases r with (⟨e, u⟩ | q) | u
  · exact .inr ⟨e, u, rfl, h⟩
  · cases h
  · cases h; exact .inl ⟨u, rfl, rfl⟩

end Sys2Proof.Machine
end

