-- ==== Sys2Proof/Laws/Operands.lean ====
section
/-! SUPPORT. What the operands can do, said once: the state after an operand's address is the state with its register step;
a read answers what R66 says or raises with that state; a write stores, or writes its register. -/

namespace Sys2Proof.Machine

/-! ### The register step -/

@[simp] theorem stepEa_d (z : Size) (ea : Ea) (s : State) : (stepEa z ea s).d = s.d := by cases ea <;> rfl
@[simp] theorem stepEa_pc (z : Size) (ea : Ea) (s : State) : (stepEa z ea s).pc = s.pc := by cases ea <;> rfl
@[simp] theorem stepEa_ccr (z : Size) (ea : Ea) (s : State) : (stepEa z ea s).ccr = s.ccr := by cases ea <;> rfl
@[simp] theorem stepEa_sys (z : Size) (ea : Ea) (s : State) : (stepEa z ea s).sys = s.sys := by cases ea <;> rfl
@[simp] theorem stepEa_vbr (z : Size) (ea : Ea) (s : State) : (stepEa z ea s).vbr = s.vbr := by cases ea <;> rfl
@[simp] theorem stepEa_mem (z : Size) (ea : Ea) (s : State) : (stepEa z ea s).mem = s.mem := by cases ea <;> rfl
@[simp] theorem stepEa_config (z : Size) (ea : Ea) (s : State) : (stepEa z ea s).config = s.config := by cases ea <;> rfl
@[simp] theorem stepEa_freeCount (z : Size) (ea : Ea) (s : State) : (stepEa z ea s).freeCount = s.freeCount := by cases ea <;> rfl
@[simp] theorem stepEa_dreg (z : Size) (ea : Ea) (s : State) (q : Reg) : (stepEa z ea s).dreg q = s.dreg q := by
  cases ea <;> rfl
@[simp] theorem stepEa_byteAt (z : Size) (ea : Ea) (s : State) (y : Addr) : (stepEa z ea s).byteAt y = s.byteAt y := by
  cases ea <;> rfl
@[simp] theorem stepEa_readMem (z : Size) (ea : Ea) (s : State) (z' : Size) (y : Addr) :
    (stepEa z ea s).readMem z' y = s.readMem z' y := by cases ea <;> rfl
@[simp] theorem stepEa_nextPc (z : Size) (ea : Ea) (s : State) (n : Nat) : (stepEa z ea s).nextPc n = s.nextPc n := by
  cases ea <;> rfl
@[simp] theorem stepEa_freeWord (z : Size) (ea : Ea) (s : State) (n : Nat) : (stepEa z ea s).freeWord n = s.freeWord n := by
  cases ea <;> rfl
@[simp] theorem stepEa_freeBit (z : Size) (ea : Ea) (s : State) (n : Nat) : (stepEa z ea s).freeBit n = s.freeBit n := by
  cases ea <;> rfl
@[simp] theorem stepEa_readable (z : Size) (ea : Ea) (s : State) (z' : Size) (y : Addr) :
    (stepEa z ea s).readable z' y ↔ s.readable z' y := by cases ea <;> rfl
@[simp] theorem stepEa_writable (z : Size) (ea : Ea) (s : State) (z' : Size) (y : Addr) :
    (stepEa z ea s).writable z' y ↔ s.writable z' y := by cases ea <;> rfl

/-- Only the stepped register changes. -/
theorem stepEa_areg_of_not_steps {z : Size} {ea : Ea} {q : Reg} (s : State) (h : steppedReg ea ≠ some q) :
    (stepEa z ea s).areg q = s.areg q := by
  cases ea <;> simp_all [stepEa, steppedReg, State.setA_areg, eq_comm]

theorem Carries.stepEa (z : Size) (ea : Ea) (s : State) : Carries s (stepEa z ea s) :=
  ⟨by simp, by simp, by simp, by simp⟩

/-! ### Addresses -/

/-- Forming an address makes the operand's register step and does nothing else. -/
theorem eaAddrIn_ok {view s s1 : State} {z : Size} {ea : Ea} {a : Addr} (h : eaAddrIn view z ea s = .ok (a, s1)) :
    s1 = stepEa z ea s := by
  cases ea <;> simp only [eaAddrIn] at h <;> first | cases h; rfl | cases h

theorem eaAddr_ok {s s1 : State} {z : Size} {ea : Ea} {a : Addr} (h : eaAddr z ea s = .ok (a, s1)) : s1 = stepEa z ea s :=
  eaAddrIn_ok h

/-- Forming an address raises nothing. -/
theorem eaAddrIn_not_raised {view s t : State} {z : Size} {ea : Ea} {e : Exception} :
    eaAddrIn view z ea s ≠ .error (.raised e t) := by
  cases ea <;> simp [eaAddrIn]

/-! ### Reading -/

@[simp] theorem readEa_dn (z : Size) (r : Reg) (s : State) : readEa z (.dn r) s = .ok (z.trunc (s.dreg r), s) := rfl
@[simp] theorem readEa_an (z : Size) (r : Reg) (s : State) : readEa z (.an r) s = .ok (z.trunc (s.areg r), s) := rfl
@[simp] theorem readEa_imm (z : Size) (v : Word) (s : State) : readEa z (.imm v) s = .ok (z.trunc v, s) := rfl

/-- A memory operand is read at its address. -/
theorem readEaIn_mem {view s s1 : State} {z : Size} {ea : Ea} {a : Addr} (h : eaAddrIn view z ea s = .ok (a, s1)) :
    readEaIn view z ea s = (memRead z a s1).map fun v => (v, s1) := by
  cases ea <;> simp only [eaAddrIn] at h <;>
    first
    | (cases h; simp only [readEaIn, eaAddrIn, bind, Except.bind]; split <;> simp_all [Except.map])
    | cases h

/-- A read makes the operand's register step and changes nothing else. -/
theorem readEaIn_ok {view s s1 : State} {z : Size} {ea : Ea} {v : Word} (h : readEaIn view z ea s = .ok (v, s1)) :
    s1 = stepEa z ea s := by
  by_cases ha : ∃ a s2, eaAddrIn view z ea s = .ok (a, s2)
  · obtain ⟨a, s2, ha⟩ := ha
    rw [readEaIn_mem ha] at h
    cases hm : memRead z a s2 with
    | ok w => rw [hm] at h; cases h; exact eaAddrIn_ok ha
    | error e => rw [hm] at h; cases h
  · cases ea <;> simp_all [eaAddrIn, readEaIn, stepEa]

theorem readEa_ok {s s1 : State} {z : Size} {ea : Ea} {v : Word} (h : readEa z ea s = .ok (v, s1)) : s1 = stepEa z ea s :=
  readEaIn_ok h

theorem readEaIn_raised {view s t : State} {z : Size} {ea : Ea} {e : Exception}
    (h : readEaIn view z ea s = .error (.raised e t)) : t = stepEa z ea s := by
  by_cases ha : ∃ a s2, eaAddrIn view z ea s = .ok (a, s2)
  · obtain ⟨a, s2, ha⟩ := ha
    rw [readEaIn_mem ha] at h
    cases hm : memRead z a s2 with
    | ok w => rw [hm] at h; cases h
    | error f => rw [hm] at h; cases h; rw [memRead_raised hm]; exact eaAddrIn_ok ha
  · cases ea <;> simp_all [eaAddrIn, readEaIn]

theorem readEa_raised {s t : State} {z : Size} {ea : Ea} {e : Exception} (h : readEa z ea s = .error (.raised e t)) :
    t = stepEa z ea s := readEaIn_raised h

/-! ### Writing -/

@[simp] theorem writeEa_dn (z : Size) (r : Reg) (v : Word) (s : State) : writeEa z (.dn r) v s = .ok (s.setDLow z r v) := rfl

/-- A memory operand is written at its address. -/
theorem writeEaIn_mem {view s s1 : State} {z : Size} {ea : Ea} {a : Addr} {v : Word}
    (h : eaAddrIn view z ea s = .ok (a, s1)) : writeEaIn view z ea v s = memWrite z a v s1 := by
  cases ea <;> simp only [eaAddrIn] at h <;>
    first
    | (cases h; simp only [writeEaIn, eaAddrIn, bind, Except.bind])
    | cases h

theorem writeEaIn_carries {view s t : State} {z : Size} {ea : Ea} {v : Word} (h : Reaches (writeEaIn view z ea v s) t) :
    Carries s t := by
  by_cases ha : ∃ a s2, eaAddrIn view z ea s = .ok (a, s2)
  · obtain ⟨a, s2, ha⟩ := ha
    rw [writeEaIn_mem ha] at h
    exact (eaAddrIn_ok ha ▸ Carries.stepEa z ea s).trans (memWrite_carries h)
  · cases ea <;> simp [eaAddrIn, writeEaIn] at ha h
    · rw [h.of_ok]; exact Carries.setDLow ..
    · rw [h.of_ok]; exact Carries.setA ..
    · cases h

/-! ### The shapes that instructions share -/

theorem aluToDn_of_read {f : Alu} {s s1 : State} {ea : Ea} {r : Reg} {v : Word} (h : readEa .L ea s = .ok (v, s1)) :
    aluToDn f ea r s = .ok ((s1.setD r (f v (s.dreg r) s.ccr).1).setCcr (f v (s.dreg r) s.ccr).2) := by
  have hs := readEa_ok h
  subst hs
  simp [aluToDn, h, bind, Except.bind]

/-- A memory destination: read, then written back, at an address formed once (R66). -/
theorem aluToEa_of_access {f : Alu} {s s1 : State} {ea : Ea} {a : Addr} {v : Word} (h : eaAddr .L ea s = .ok (a, s1))
    (hw : s.writable .L a) :
    let p := f v (s.readMem .L a) s.ccr
    aluToEa f v ea s = .ok ((s1.writeMem .L a p.1).setCcr p.2) := by
  have hs := eaAddr_ok h
  subst hs
  have hr := memRead_of_readable (s := stepEa .L ea s) (z := .L) (a := a) (by simpa using hw.1)
  have ht : ∀ w, memWrite .L a w (stepEa .L ea s) = .ok ((stepEa .L ea s).writeMem .L a w) :=
    fun w => memWrite_of_writable w (by simpa using hw)
  cases ea <;> simp only [eaAddr, eaAddrIn] at h <;>
    first
    | (cases h; simp only [aluToEa, eaAddr, eaAddrIn, bind, Except.bind]
       simp only [stepEa] at hr ht
       simp only [hr, ht, stepEa, State.readMem, State.setA_byteAt, State.setA_ccr])
    | cases h

theorem aluToDn_carries {f : Alu} {s t : State} {ea : Ea} {r : Reg} (h : Reaches (aluToDn f ea r s) t) : Carries s t := by
  rcases Result.bind_reaches h with ⟨_, h1⟩ | ⟨⟨v, s1⟩, h1, h⟩
  · rw [readEa_raised h1]; exact Carries.stepEa ..
  · rw [h.of_ok]
    exact ((readEa_ok h1 ▸ Carries.stepEa _ ea s).trans (Carries.setD ..)).trans (Carries.setCcr ..)

theorem aluToEa_carries {f : Alu} {s t : State} {ea : Ea} {v : Word} (h : Reaches (aluToEa f v ea s) t) : Carries s t := by
  have mem : ∀ ea', Reaches (do
      let (a, s1) ← eaAddr .L ea' s
      let d ← memRead .L a s1
      let p := f v d s1.ccr
      let s2 ← memWrite .L a p.1 s1
      .ok (s2.setCcr p.2) : Result State) t → Carries s t := by
    intro ea' h
    rcases Result.bind_reaches h with ⟨_, h1⟩ | ⟨⟨a, s1⟩, h1, h⟩
    · exact absurd h1 eaAddrIn_not_raised
    have c1 : Carries s s1 := eaAddr_ok h1 ▸ Carries.stepEa ..
    rcases Result.bind_reaches h with ⟨_, h2⟩ | ⟨d, h2, h⟩
    · rw [memRead_raised h2]; exact c1
    rcases Result.bind_reaches h with ⟨_, h3⟩ | ⟨s2, h3, h⟩
    · rw [memWrite_raised h3]; exact c1
    · rw [h.of_ok]
      exact (c1.trans (memWrite_carries (h3 ▸ Reaches.ok s2))).trans (Carries.setCcr ..)
  cases ea
  case dn r => rw [Reaches.of_ok h]; exact (Carries.setD ..).trans (Carries.setCcr ..)
  all_goals exact mem _ h

theorem pushedAddr_ok {s s1 : State} {ea : Ea} {a : Addr} (h : pushedAddr ea s = .ok (a, s1)) (hc : EaClass.control.allows ea.kind) :
    s1 = s ∨ s1 = s.spend 1 := by
  unfold pushedAddr at h
  split at h
  · obtain ⟨⟨b, u⟩, _, h⟩ := Result.bind_ok h
    cases h; exact .inr rfl
  · refine .inl ?_
    rw [eaAddr_ok h]
    cases ea <;> first | rfl | simp [EaClass.allows, Ea.kind] at hc

/-- A free choice of the base, and no raise. -/
theorem pushedAddr_not_raised {s t : State} {ea : Ea} {e : Exception} : pushedAddr ea s ≠ .error (.raised e t) := by
  unfold pushedAddr
  split
  · intro h
    cases hx : eaAddr .L ea (if s.freeBit 0 then s else s.setA 7 (s.sp - 4)) with
    | ok p => rw [hx] at h; cases h
    | error q =>
      rw [hx] at h
      obtain rfl : q = .raised e t := Except.error.inj h
      exact eaAddrIn_not_raised hx
  · exact eaAddrIn_not_raised

end Sys2Proof.Machine
end

