-- ==== Sys2Proof/Laws/Moves.lean ====
section
/-! SUPPORT. What the transfers of MOVEM can do: the loads change registers alone, the stores the bytes of their longs alone;
the places of the longs, and the state after the transfers below an index. -/

namespace Sys2Proof.Machine

@[simp] theorem State.setR_mem (s : State) (i : Fin 16) (v : Word) : (s.setR i v).mem = s.mem := by
  unfold State.setR; split <;> rfl
@[simp] theorem State.setR_ccr (s : State) (i : Fin 16) (v : Word) : (s.setR i v).ccr = s.ccr := by
  unfold State.setR; split <;> rfl
@[simp] theorem State.setR_pc (s : State) (i : Fin 16) (v : Word) : (s.setR i v).pc = s.pc := by
  unfold State.setR; split <;> rfl
@[simp] theorem State.setR_config (s : State) (i : Fin 16) (v : Word) : (s.setR i v).config = s.config := by
  unfold State.setR; split <;> rfl
@[simp] theorem State.setR_freeCount (s : State) (i : Fin 16) (v : Word) : (s.setR i v).freeCount = s.freeCount := by
  unfold State.setR; split <;> rfl
@[simp] theorem State.setR_readMem (s : State) (i : Fin 16) (v : Word) (z : Size) (y : Addr) :
    (s.setR i v).readMem z y = s.readMem z y := by unfold State.setR; split <;> rfl
@[simp] theorem State.setR_readable (s : State) (i : Fin 16) (v : Word) (z : Size) (y : Addr) :
    (s.setR i v).readable z y ↔ s.readable z y := by unfold State.setR; split <;> rfl

/-- A register of MOVEM's order reads what was written to it, and no other changes (R217). -/
theorem State.setR_rreg (s : State) (i : Fin 16) (v : Word) (j : Fin 16) :
    (s.setR i v).rreg j = if j = i then v else s.rreg j := by
  unfold State.setR State.rreg
  by_cases hi : i.val < 8 <;> by_cases hj : j.val < 8 <;>
    simp only [hi, hj, dite_true, dite_false, State.setD_dreg, State.setA_areg, State.setD_areg, State.setA_dreg,
      Fin.ext_iff] <;> (try split) <;> (try split) <;> first | rfl | omega

/-- The stores of MOVEM change memory alone. -/
theorem storeRegs_carries {is : List (Fin 16)} {a : Addr} {s t : State} (h : Reaches (storeRegs is a s) t) :
    Carries s t ∧ t.d = s.d ∧ t.a = s.a ∧ t.pc = s.pc ∧ t.ccr = s.ccr ∧ t.freeCount = s.freeCount := by
  induction is generalizing a s with
  | nil => rw [h.of_ok]; exact ⟨Carries.refl _, rfl, rfl, rfl, rfl, rfl⟩
  | cons i is ih =>
    rcases Result.bind_reaches h with ⟨_, h1⟩ | ⟨s1, h1, h⟩
    · rw [memWrite_raised h1]; exact ⟨Carries.refl _, rfl, rfl, rfl, rfl, rfl⟩
    · obtain ⟨c, hd, ha, hp, hc, hf⟩ := ih h
      obtain ⟨_, rfl⟩ := memWrite_ok h1
      exact ⟨(Carries.writeMem ..).trans c, by simp [hd], by simp [ha], by simp [hp], by simp [hc], by simp [hf]⟩

/-- The loads of MOVEM change registers alone. -/
theorem loadRegs_carries {is : List (Fin 16)} {a : Addr} {s t : State} (h : Reaches (loadRegs is a s) t) :
    Carries s t ∧ t.mem = s.mem ∧ t.pc = s.pc ∧ t.ccr = s.ccr ∧ t.freeCount = s.freeCount := by
  induction is generalizing a s with
  | nil => rw [h.of_ok]; exact ⟨Carries.refl _, rfl, rfl, rfl, rfl⟩
  | cons i is ih =>
    rcases Result.bind_reaches h with ⟨_, h1⟩ | ⟨v, _, h⟩
    · rw [memRead_raised h1]; exact ⟨Carries.refl _, rfl, rfl, rfl, rfl⟩
    · obtain ⟨c, hm, hp, hc, hf⟩ := ih h
      exact ⟨(Carries.setR ..).trans c, by simp [hm], by simp [hp], by simp [hc], by simp [hf]⟩

/-! ### The places of a mask's registers (R92, R217) -/

theorem movemSlot_zero (mask : BitVec 16) (a : Addr) : movemSlot mask a 0 = a := by simp [movemSlot]

/-- The next place is 4 bytes on where the register is selected. -/
theorem movemSlot_succ (mask : BitVec 16) (a : Addr) (n : Nat) :
    movemSlot mask a (n + 1) = if mask.getLsbD n then movemSlot mask a n + 4 else movemSlot mask a n := by
  unfold movemSlot
  rw [List.range_succ, List.countP_append]
  simp only [List.countP_cons, List.countP_nil, Nat.zero_add]
  split
  · rw [Nat.mul_add, BitVec.ofNat_add]; simp [BitVec.add_assoc]
  · simp

/-- The long of a selected register and that of a later one share no byte. -/
theorem movemSlot_disjoint (mask : BitVec 16) (a : Addr) {m n : Nat} (hmn : m < n) (hn : n ≤ 16)
    (hm : mask.getLsbD m = true) : ∀ y ∈ accessBytes .L (movemSlot mask a m), y ∉ accessBytes .L (movemSlot mask a n) := by
  unfold movemSlot
  have hle : ∀ n, (List.range n).countP (fun k => mask.getLsbD k) ≤ n := fun n => by
    have := List.countP_le_length (p := fun k => mask.getLsbD k) (l := List.range n)
    simpa using this
  have hlt : (List.range m).countP (fun k => mask.getLsbD k) < (List.range n).countP (fun k => mask.getLsbD k) := by
    have : (List.range (m + 1)).countP (fun k => mask.getLsbD k) ≤ (List.range n).countP (fun k => mask.getLsbD k) :=
      (List.range_sublist.2 hmn).countP_le
    rw [List.range_succ, List.countP_append] at this
    simp [hm] at this
    omega
  have hq := hle n
  generalize (List.range m).countP (fun k => mask.getLsbD k) = p at *
  generalize (List.range n).countP (fun k => mask.getLsbD k) = q at *
  have ep : (BitVec.ofNat 32 (4 * p)).toNat = 4 * p := by simp; omega
  have eq : (BitVec.ofNat 32 (4 * q)).toNat = 4 * q := by simp; omega
  generalize BitVec.ofNat 32 (4 * p) = x at *
  generalize BitVec.ofNat 32 (4 * q) = y at *
  intro b hb hb'
  simp [accessBytes] at hb hb'
  bv_omega

/-- The selected registers from an index on. -/
def maskRegsFrom (mask : BitVec 16) (m : Nat) : List (Fin 16) :=
  (List.finRange 16).filter fun i => decide (m ≤ i.val) && mask.getLsbD i

theorem maskRegsFrom_zero (mask : BitVec 16) : maskRegsFrom mask 0 = maskRegs mask := by simp [maskRegsFrom, maskRegs]

theorem maskRegsFrom_sixteen (mask : BitVec 16) : maskRegsFrom mask 16 = [] := by
  simp only [maskRegsFrom, List.filter_eq_nil_iff]
  intro i _
  simp

theorem maskRegsFrom_of_lt (mask : BitVec 16) {m : Nat} (h : m < 16) :
    maskRegsFrom mask m = if mask.getLsbD m then ⟨m, h⟩ :: maskRegsFrom mask (m + 1) else maskRegsFrom mask (m + 1) := by
  have key : ∀ p : Fin 16 → Bool, (List.finRange 16).filter (fun i => decide (m ≤ i.val) && p i) =
      if p ⟨m, h⟩ then ⟨m, h⟩ :: (List.finRange 16).filter (fun i => decide (m + 1 ≤ i.val) && p i)
      else (List.finRange 16).filter (fun i => decide (m + 1 ≤ i.val) && p i) := by
    intro p
    rw [show List.finRange 16 = [0, 1, 2, 3, 4, 5, 6, 7, 8, 9, 10, 11, 12, 13, 14, 15] by decide]
    interval_cases m <;> simp [List.filter_cons]
  exact key fun i => mask.getLsbD i

/-! ### The state after the transfers below an index -/

/-- The selected registers below an index are loaded from their places, and nothing else has changed. -/
structure LoadedBelow (mask : BitVec 16) (a : Addr) (m : Nat) (s t : State) : Prop where
  mem : t.mem = s.mem
  config : t.config = s.config
  pc : t.pc = s.pc
  ccr : t.ccr = s.ccr
  rreg : ∀ j : Fin 16, t.rreg j = if j.val < m ∧ mask.getLsbD j = true then s.readMem .L (movemSlot mask a j) else s.rreg j

theorem LoadedBelow.zero (mask : BitVec 16) (a : Addr) (s : State) : LoadedBelow mask a 0 s s :=
  ⟨rfl, rfl, rfl, rfl, fun _ => by simp⟩

/-- The loads run as far as the places can be read. -/
theorem loadRegs_below {mask : BitVec 16} {a : Addr} {n : Nat} {s : State} (hn : n ≤ 16)
    (hr : ∀ j : Fin 16, j.val < n → mask.getLsbD j = true → s.readable .L (movemSlot mask a j)) {m : Nat} (hm : m ≤ n)
    {t : State} (h : LoadedBelow mask a m s t) : ∃ u, LoadedBelow mask a n s u ∧
      loadRegs (maskRegsFrom mask m) (movemSlot mask a m) t = loadRegs (maskRegsFrom mask n) (movemSlot mask a n) u := by
  induction hk : n - m generalizing m t with
  | zero =>
    obtain rfl : m = n := by omega
    exact ⟨t, h, rfl⟩
  | succ k ih =>
    have hm16 : m < 16 := by omega
    rw [maskRegsFrom_of_lt _ hm16]
    have hs := movemSlot_succ mask a m
    by_cases hmk : mask.getLsbD m = true
    · rw [if_pos hmk] at hs ⊢
      have hrd := hr ⟨m, hm16⟩ (by show m < n; omega) hmk
      rw [loadRegs, memRead_of_readable ((readable_congr h.config _ _).2 hrd)]
      simp only [bind, Except.bind]
      rw [← hs]
      have hv : t.readMem .L (movemSlot mask a m) = s.readMem .L (movemSlot mask a m) := by
        simp [State.readMem, State.byteAt, h.mem]
      refine ih (by omega) ⟨by simp [h.mem], by simp [h.config], by simp [h.pc], by simp [h.ccr], fun j => ?_⟩ (by omega)
      rw [State.setR_rreg, h.rreg, hv]
      by_cases hj : j = ⟨m, hm16⟩
      · subst hj; simp [hmk]
      · have : (j.val < m) = (j.val < m + 1) := by
          have : j.val ≠ m := fun h => hj (Fin.ext h)
          ext; omega
        rw [if_neg hj]; simp only [this]
    · rw [if_neg hmk] at hs ⊢
      rw [← hs]
      refine ih (by omega) ⟨h.mem, h.config, h.pc, h.ccr, fun j => ?_⟩ (by omega)
      rw [h.rreg]
      by_cases hj : j.val = m
      · simp [hj, hmk]
      · have : (j.val < m) = (j.val < m + 1) := by ext; omega
        simp only [this]

/-- The selected registers below an index are stored to their places, and nothing else has changed. -/
structure StoredBelow (mask : BitVec 16) (a : Addr) (m : Nat) (s t : State) : Prop where
  data : t.d = s.d
  addr : t.a = s.a
  config : t.config = s.config
  pc : t.pc = s.pc
  ccr : t.ccr = s.ccr
  value : ∀ j : Fin 16, j.val < m → mask.getLsbD j = true → t.readMem .L (movemSlot mask a j) = s.rreg j
  outside : ∀ b, (∀ j : Fin 16, j.val < m → mask.getLsbD j = true → b ∉ accessBytes .L (movemSlot mask a j)) →
    t.byteAt b = s.byteAt b

theorem StoredBelow.zero (mask : BitVec 16) (a : Addr) (s : State) : StoredBelow mask a 0 s s :=
  ⟨rfl, rfl, rfl, rfl, rfl, fun _ h => absurd h (by omega), fun _ _ => rfl⟩

/-- The stores run as far as the places can be written. -/
theorem storeRegs_below {mask : BitVec 16} {a : Addr} {n : Nat} {s : State} (hn : n ≤ 16)
    (hw : ∀ j : Fin 16, j.val < n → mask.getLsbD j = true → s.writable .L (movemSlot mask a j)) {m : Nat} (hm : m ≤ n)
    {t : State} (h : StoredBelow mask a m s t) : ∃ u, StoredBelow mask a n s u ∧
      storeRegs (maskRegsFrom mask m) (movemSlot mask a m) t = storeRegs (maskRegsFrom mask n) (movemSlot mask a n) u := by
  induction hk : n - m generalizing m t with
  | zero =>
    obtain rfl : m = n := by omega
    exact ⟨t, h, rfl⟩
  | succ k ih =>
    have hm16 : m < 16 := by omega
    rw [maskRegsFrom_of_lt _ hm16]
    have hs := movemSlot_succ mask a m
    by_cases hmk : mask.getLsbD m = true
    · rw [if_pos hmk] at hs ⊢
      have hwr := hw ⟨m, hm16⟩ (by show m < n; omega) hmk
      rw [storeRegs, memWrite_of_writable _ ((writable_congr h.config _ _).2 hwr)]
      simp only [bind, Except.bind]
      rw [← hs]
      have hv : t.rreg ⟨m, hm16⟩ = s.rreg ⟨m, hm16⟩ := by simp [State.rreg, State.dreg, State.areg, h.data, h.addr]
      refine ih (by omega) ⟨by simp [h.data], by simp [h.addr], by simp [h.config], by simp [h.pc], by simp [h.ccr],
        fun j hj hmj => ?_, fun b hb => ?_⟩ (by omega)
      · by_cases hjm : j.val = m
        · obtain rfl : j = ⟨m, hm16⟩ := Fin.ext hjm
          rw [State.writeMem_readMem_self, hv]; rfl
        · rw [← h.value j (by omega) hmj]
          exact State.readMem_congr _ _ fun y hy =>
            State.writeMem_byteAt_of_notMem _ _ _ _ _ (movemSlot_disjoint mask a (by omega) (by omega) hmj y hy)
      · rw [State.writeMem_byteAt_of_notMem _ _ _ _ _ (hb ⟨m, hm16⟩ (by show m < m + 1; omega) hmk)]
        exact h.outside b fun j hj => hb j (by omega)
    · rw [if_neg hmk] at hs ⊢
      rw [← hs]
      refine ih (by omega) ⟨h.data, h.addr, h.config, h.pc, h.ccr, fun j hj hmj => ?_, fun b hb => ?_⟩ (by omega)
      · refine h.value j ?_ hmj
        rcases Nat.lt_succ_iff_lt_or_eq.1 hj with h | h
        · exact h
        · rw [h] at hmj; exact absurd hmj hmk
      · exact h.outside b fun j hj => hb j (by omega)

end Sys2Proof.Machine
end

