-- ==== Sys2Proof/Laws/PerInstr.lean ====
section
/-! SUPPORT. For each instruction: a well-formed one is encoded in one, two or three words (R80), as many as R98 counts. -/

namespace Sys2Proof.Laws

theorem extWords_le_two (z : Size) (ea : Ea) : ea.extWords z ≤ 2 := by
  unfold Ea.extWords
  generalize ea.kind = k
  cases z <;> cases k <;> decide

theorem extWords_short {z : Size} {ea : Ea} (h : ea.ok .short z = true) : ea.extWords z ≤ 1 := by
  obtain ⟨h, _⟩ := Bool.and_eq_true_iff.1 h
  unfold Ea.extWords
  generalize ea.kind = k at h ⊢
  revert h
  cases z <;> cases k <;> decide

theorem extWords_movem {z : Size} {ea : Ea} (h : ea.ok .movem z = true) : ea.extWords z ≤ 1 := by
  obtain ⟨h, _⟩ := Bool.and_eq_true_iff.1 h
  unfold Ea.extWords
  generalize ea.kind = k at h ⊢
  revert h
  cases z <;> cases k <;> decide

@[simp] theorem extWords_an (z : Size) (r : Reg) : (Ea.an r).extWords z = 0 := rfl

/-- The operands of a MOVE that R208 pairs have at most two extension words together. -/
theorem extWords_movePair {z : Size} {src dst : Ea} (h : movePair src.kind dst.kind = true) :
    src.extWords z + dst.extWords z ≤ 2 := by
  unfold Ea.extWords
  generalize src.kind = k at h ⊢
  generalize dst.kind = l at h ⊢
  revert h
  cases z <;> cases k <;> cases l <;> decide

namespace EncodedLength

/-- A well-formed instruction is one, two or three words (R80). -/
def Statement (i : Instr) : Prop := i.wf = true → 1 ≤ (encode i).length ∧ (encode i).length ≤ 3

theorem of_ea (n : BitVec 4) (r o : BitVec 3) (z : Size) (ea : Ea) :
    1 ≤ (encodeEa n r o z ea).length ∧ (encodeEa n r o z ea).length ≤ 3 := by
  have := extWords_le_two z ea
  simp [encodeEa]; omega

theorem of_ea2 (n : BitVec 4) (r o : BitVec 3) (w : Word16) {z : Size} {ea : Ea} (h : ea.extWords z ≤ 1) :
    1 ≤ (encodeEa2 n r o w z ea).length ∧ (encodeEa2 n r o w z ea).length ≤ 3 := by
  simp [encodeEa2]; omega

theorem of_move (n : BitVec 4) {z : Size} {src dst : Ea} (h : src.extWords z + dst.extWords z ≤ 2) :
    1 ≤ (encodeMove n z src dst).length ∧ (encodeMove n z src dst).length ≤ 3 := by
  simp [encodeMove]; omega

theorem of_branch (cc : Cond) (d : BranchDisp) : 1 ≤ (encodeBranch cc d).length ∧ (encodeBranch cc d).length ≤ 3 := by
  cases d <;> simp [encodeBranch]

theorem addEaDn (ea : Ea) (r : Reg) : Statement (.addEaDn ea r) := fun _ => of_ea ..
theorem addDnEa (r : Reg) (ea : Ea) : Statement (.addDnEa r ea) := fun _ => of_ea ..
theorem adda (ea : Ea) (r : Reg) : Statement (.adda ea r) := fun _ => of_ea ..
theorem addi (v : Word) (r : Reg) : Statement (.addi v r) := fun _ => by simp [encode, longWords]
theorem addq (q : BitVec 3) (ea : Ea) : Statement (.addq q ea) := fun _ => of_ea ..
theorem addx (y : Reg) (x : Reg) : Statement (.addx y x) := fun _ => by simp [encode]
theorem cmp (ea : Ea) (r : Reg) : Statement (.cmp ea r) := fun _ => of_ea ..
theorem cmpa (ea : Ea) (r : Reg) : Statement (.cmpa ea r) := fun _ => of_ea ..
theorem cmpi (v : Word) (r : Reg) : Statement (.cmpi v r) := fun _ => by simp [encode, longWords]
theorem neg (r : Reg) : Statement (.neg r) := fun _ => by simp [encode]
theorem negx (r : Reg) : Statement (.negx r) := fun _ => by simp [encode]
theorem subEaDn (ea : Ea) (r : Reg) : Statement (.subEaDn ea r) := fun _ => of_ea ..
theorem subDnEa (r : Reg) (ea : Ea) : Statement (.subDnEa r ea) := fun _ => of_ea ..
theorem suba (ea : Ea) (r : Reg) : Statement (.suba ea r) := fun _ => of_ea ..
theorem subi (v : Word) (r : Reg) : Statement (.subi v r) := fun _ => by simp [encode, longWords]
theorem subq (q : BitVec 3) (ea : Ea) : Statement (.subq q ea) := fun _ => of_ea ..
theorem subx (y : Reg) (x : Reg) : Statement (.subx y x) := fun _ => by simp [encode]
theorem andEaDn (ea : Ea) (r : Reg) : Statement (.andEaDn ea r) := fun _ => of_ea ..
theorem andDnEa (r : Reg) (ea : Ea) : Statement (.andDnEa r ea) := fun _ => of_ea ..
theorem andi (v : Word) (r : Reg) : Statement (.andi v r) := fun _ => by simp [encode, longWords]
theorem eor (r : Reg) (ea : Ea) : Statement (.eor r ea) := fun _ => of_ea ..
theorem eori (v : Word) (r : Reg) : Statement (.eori v r) := fun _ => by simp [encode, longWords]
theorem notDn (r : Reg) : Statement (.notDn r) := fun _ => by simp [encode]
theorem orEaDn (ea : Ea) (r : Reg) : Statement (.orEaDn ea r) := fun _ => of_ea ..
theorem orDnEa (r : Reg) (ea : Ea) : Statement (.orDnEa r ea) := fun _ => of_ea ..
theorem ori (v : Word) (r : Reg) : Statement (.ori v r) := fun _ => by simp [encode, longWords]
theorem asrImm (c : BitVec 3) (r : Reg) : Statement (.asrImm c r) := fun _ => by simp [encode]
theorem asrReg (y : Reg) (x : Reg) : Statement (.asrReg y x) := fun _ => by simp [encode]
theorem aslImm (c : BitVec 3) (r : Reg) : Statement (.aslImm c r) := fun _ => by simp [encode]
theorem aslReg (y : Reg) (x : Reg) : Statement (.aslReg y x) := fun _ => by simp [encode]
theorem lsrImm (c : BitVec 3) (r : Reg) : Statement (.lsrImm c r) := fun _ => by simp [encode]
theorem lsrReg (y : Reg) (x : Reg) : Statement (.lsrReg y x) := fun _ => by simp [encode]
theorem lslImm (c : BitVec 3) (r : Reg) : Statement (.lslImm c r) := fun _ => by simp [encode]
theorem lslReg (y : Reg) (x : Reg) : Statement (.lslReg y x) := fun _ => by simp [encode]
theorem bra (d : BranchDisp) : Statement (.bra d) := fun _ => of_branch ..
theorem bsr (d : BranchDisp) : Statement (.bsr d) := fun _ => of_branch ..
theorem bcc (cc : Cond) (d : BranchDisp) : Statement (.bcc cc d) := fun _ => of_branch ..
theorem jmp (ea : Ea) : Statement (.jmp ea) := fun _ => of_ea ..
theorem jsr (ea : Ea) : Statement (.jsr ea) := fun _ => of_ea ..
theorem rts : Statement .rts := fun _ => by simp [encode]
theorem btstReg (y : Reg) (ea : Ea) : Statement (.btstReg y ea) := fun _ => of_ea ..
theorem btstImm (n : BitVec 8) (ea : Ea) : Statement (.btstImm n ea) := fun h => of_ea2 _ _ _ _ (extWords_short h)
theorem bchgReg (y : Reg) (ea : Ea) : Statement (.bchgReg y ea) := fun _ => of_ea ..
theorem bchgImm (n : BitVec 8) (ea : Ea) : Statement (.bchgImm n ea) := fun h => of_ea2 _ _ _ _ (extWords_short h)
theorem bclrReg (y : Reg) (ea : Ea) : Statement (.bclrReg y ea) := fun _ => of_ea ..
theorem bclrImm (n : BitVec 8) (ea : Ea) : Statement (.bclrImm n ea) := fun h => of_ea2 _ _ _ _ (extWords_short h)
theorem bsetReg (y : Reg) (ea : Ea) : Statement (.bsetReg y ea) := fun _ => of_ea ..
theorem bsetImm (n : BitVec 8) (ea : Ea) : Statement (.bsetImm n ea) := fun h => of_ea2 _ _ _ _ (extWords_short h)
theorem clrB (ea : Ea) : Statement (.clrB ea) := fun _ => of_ea ..
theorem clrW (ea : Ea) : Statement (.clrW ea) := fun _ => of_ea ..
theorem clrL (ea : Ea) : Statement (.clrL ea) := fun _ => of_ea ..
theorem extW (r : Reg) : Statement (.extW r) := fun _ => by simp [encode]
theorem extL (r : Reg) : Statement (.extL r) := fun _ => by simp [encode]
theorem extbL (r : Reg) : Statement (.extbL r) := fun _ => by simp [encode]
theorem lea (ea : Ea) (r : Reg) : Statement (.lea ea r) := fun _ => of_ea ..
theorem link (r : Reg) (d16 : BitVec 16) : Statement (.link r d16) := fun _ => by simp [encode]
theorem moveB (src : Ea) (dst : Ea) : Statement (.moveB src dst) := fun h => of_move _ (extWords_movePair (Bool.and_eq_true_iff.1 h).2)
theorem moveW (src : Ea) (dst : Ea) : Statement (.moveW src dst) := fun h => of_move _ (extWords_movePair (Bool.and_eq_true_iff.1 h).2)
theorem moveL (src : Ea) (dst : Ea) : Statement (.moveL src dst) := fun h => of_move _ (extWords_movePair (Bool.and_eq_true_iff.1 h).2)
theorem moveaW (src : Ea) (r : Reg) : Statement (.moveaW src r) := fun _ => of_move _ (by simpa using extWords_le_two .W src)
theorem moveaL (src : Ea) (r : Reg) : Statement (.moveaL src r) := fun _ => of_move _ (by simpa using extWords_le_two .L src)
theorem moveFromCcr (r : Reg) : Statement (.moveFromCcr r) := fun _ => by simp [encode]
theorem moveToCcr (src : Ea) : Statement (.moveToCcr src) := fun _ => of_ea ..
theorem movemStore (mask : BitVec 16) (ea : Ea) : Statement (.movemStore mask ea) := fun h => of_ea2 _ _ _ _ (extWords_movem h)
theorem movemLoad (mask : BitVec 16) (ea : Ea) : Statement (.movemLoad mask ea) := fun h => of_ea2 _ _ _ _ (extWords_movem h)
theorem moveq (v : BitVec 8) (r : Reg) : Statement (.moveq v r) := fun _ => by simp [encode]
theorem pea (ea : Ea) : Statement (.pea ea) := fun _ => of_ea ..
theorem scc (cc : Cond) (r : Reg) : Statement (.scc cc r) := fun _ => by simp [encode]
theorem swap (r : Reg) : Statement (.swap r) := fun _ => by simp [encode]
theorem tstB (ea : Ea) : Statement (.tstB ea) := fun _ => of_ea ..
theorem tstW (ea : Ea) : Statement (.tstW ea) := fun _ => of_ea ..
theorem tstL (ea : Ea) : Statement (.tstL ea) := fun _ => of_ea ..
theorem unlk (r : Reg) : Statement (.unlk r) := fun _ => by simp [encode]
theorem divsW (ea : Ea) (r : Reg) : Statement (.divsW ea r) := fun _ => of_ea ..
theorem divsL (ea : Ea) (r : Reg) : Statement (.divsL ea r) := fun h => of_ea2 _ _ _ _ (extWords_short h)
theorem divuW (ea : Ea) (r : Reg) : Statement (.divuW ea r) := fun _ => of_ea ..
theorem divuL (ea : Ea) (r : Reg) : Statement (.divuL ea r) := fun h => of_ea2 _ _ _ _ (extWords_short h)
theorem mulsW (ea : Ea) (r : Reg) : Statement (.mulsW ea r) := fun _ => of_ea ..
theorem mulsL (ea : Ea) (r : Reg) : Statement (.mulsL ea r) := fun h => of_ea2 _ _ _ _ (extWords_short h)
theorem muluW (ea : Ea) (r : Reg) : Statement (.muluW ea r) := fun _ => of_ea ..
theorem muluL (ea : Ea) (r : Reg) : Statement (.muluL ea r) := fun h => of_ea2 _ _ _ _ (extWords_short h)
theorem remsL (ea : Ea) (w : Reg) (x : Reg) : Statement (.remsL ea w x) := fun h => of_ea2 _ _ _ _ (extWords_short (Bool.and_eq_true_iff.1 h).1)
theorem remuL (ea : Ea) (w : Reg) (x : Reg) : Statement (.remuL ea w x) := fun h => of_ea2 _ _ _ _ (extWords_short (Bool.and_eq_true_iff.1 h).1)
theorem nop : Statement .nop := fun _ => by simp [encode]
theorem trap (v : BitVec 4) : Statement (.trap v) := fun _ => by simp [encode]

end EncodedLength

end Sys2Proof.Laws
end

