-- ==== Sys2Proof/Tests/Slice0.lean ====
section
/-! SUPPORT. Tests of the model's own: the checks of `WellFormed`, decoding, single steps from the vectors of
95_test_vectors.md, and for every statement with hypotheses a witness that meets them. -/

open Sys2Proof Sys2Proof.Machine

namespace Sys2Proof.Tests

/-! ### A small state -/

/-- One entry of a vector's start or end state. -/
inductive Put where
  | d (r : Reg) (v : Word)
  | a (r : Reg) (v : Word)
  | pc (v : Addr)
  | ccr (xnzvc : BitVec 5)
  | long (a : Addr) (v : Word)
  | word (a : Addr) (v : Word)
  | byte (a : Addr) (v : Word)

/-- A state with an entry made. -/
def put (s : State) : Put → State
  | .d r v => s.setD r v
  | .a r v => s.setA r v
  | .pc v => s.setPc v
  | .ccr f => s.setCcr (Ccr.ofBits f)
  | .long a v => s.writeMem .L a v
  | .word a v => s.writeMem .W a v
  | .byte a v => s.writeMem .B a v

/-- The configuration of the vectors: the program at 0x1000, data at 0x2000, a stack below 0x8000. -/
def vectorConfig : Config :=
  { Config.recommended with mapped := [⟨0x1000, 16⟩, ⟨0x2000, 256⟩, ⟨0x7F00, 272⟩], codeRegion := [⟨0x1000, 16⟩] }

/-- A vector's start state. -/
def start (ws : List Word16) (ps : List Put) : State := ps.foldl put ((State.launch vectorConfig).placeWords 0x1000 ws)

/-- Does one step from the start state give the end state, everything not named unchanged? -/
def runs (ws : List Word16) (ps qs : List Put) : Bool :=
  match step (start ws ps) with
  | .next t => t = qs.foldl put (start ws ps)
  | _ => false

/-- Does one step from the start state end in this exception? -/
def traps (ws : List Word16) (ps : List Put) (e : Exception) : Bool :=
  match step (start ws ps) with
  | .fault f => f = .trap e 0x1000
  | _ => false

/-! ### Decoding: a word or words of each constructor, as R95 and 95_test_vectors.md write them -/

-- V2: ADD.L D1,D0
theorem test_decode_addEaDn : decode [0xD081] = .ok (.addEaDn (.dn 1) 0, []) := by decide
-- V7: ADD.L D0,-(A0)
theorem test_decode_addDnEa : decode [0xD1A0] = .ok (.addDnEa 0 (.predec 0), []) := by decide
-- V9: ADDA.L A1,A1
theorem test_decode_adda : decode [0xD3C9] = .ok (.adda (.an 1) 1, []) := by decide
-- V10: ADDI.L #$80000000,D2
theorem test_decode_addi : decode [0x0682, 0x8000, 0x0000] = .ok (.addi 0x80000000 2, []) := by decide
-- V12: ADDQ.L #8,D3
theorem test_decode_addq : decode [0x5083] = .ok (.addq 0x0 (.dn 3), []) := by decide
-- V17: ADDX.L D1,D0
theorem test_decode_addx : decode [0xD181] = .ok (.addx 1 0, []) := by decide
-- V21: CMP.L D1,D0
theorem test_decode_cmp : decode [0xB081] = .ok (.cmp (.dn 1) 0, []) := by decide
-- V23: CMPA.L A1,A0
theorem test_decode_cmpa : decode [0xB1C9] = .ok (.cmpa (.an 1) 0, []) := by decide
-- V24: CMPI.L #5,D0
theorem test_decode_cmpi : decode [0x0C80, 0x0000, 0x0005] = .ok (.cmpi 0x00000005 0, []) := by decide
-- V28: NEG.L D0
theorem test_decode_neg : decode [0x4480] = .ok (.neg 0, []) := by decide
-- V30: NEGX.L D0
theorem test_decode_negx : decode [0x4080] = .ok (.negx 0, []) := by decide
-- V34: SUB.L D1,D0
theorem test_decode_subEaDn : decode [0x9081] = .ok (.subEaDn (.dn 1) 0, []) := by decide
-- V35: SUB.L D0,(A0)
theorem test_decode_subDnEa : decode [0x9190] = .ok (.subDnEa 0 (.ind 0), []) := by decide
-- V37: SUBA.L D0,A1
theorem test_decode_suba : decode [0x93C0] = .ok (.suba (.dn 0) 1, []) := by decide
-- V38: SUBI.L #1,D0
theorem test_decode_subi : decode [0x0480, 0x0000, 0x0001] = .ok (.subi 0x00000001 0, []) := by decide
-- V40: SUBQ.L #8,D0
theorem test_decode_subq : decode [0x5180] = .ok (.subq 0x0 (.dn 0), []) := by decide
-- V43: SUBX.L D1,D0
theorem test_decode_subx : decode [0x9181] = .ok (.subx 1 0, []) := by decide
-- V48: AND.L #$0000FFFF,D0
theorem test_decode_andEaDn : decode [0xC0BC, 0x0000, 0xFFFF] = .ok (.andEaDn (.imm 0x0000ffff) 0, []) := by decide
-- V47: AND.L D0,(A0)
theorem test_decode_andDnEa : decode [0xC190] = .ok (.andDnEa 0 (.ind 0), []) := by decide
-- V49: ANDI.L #$000000FF,D0
theorem test_decode_andi : decode [0x0280, 0x0000, 0x00FF] = .ok (.andi 0x000000ff 0, []) := by decide
-- V51: EOR.L D0,D0
theorem test_decode_eor : decode [0xB180] = .ok (.eor 0 (.dn 0), []) := by decide
-- V53: EORI.L #$80000000,D7
theorem test_decode_eori : decode [0x0A87, 0x8000, 0x0000] = .ok (.eori 0x80000000 7, []) := by decide
-- V55: NOT.L D0
theorem test_decode_notDn : decode [0x4680] = .ok (.notDn 0, []) := by decide
-- V57: OR.L (A0),D0
theorem test_decode_orEaDn : decode [0x8090] = .ok (.orEaDn (.ind 0) 0, []) := by decide
-- V58: OR.L D0,(A0)
theorem test_decode_orDnEa : decode [0x8190] = .ok (.orDnEa 0 (.ind 0), []) := by decide
-- V59: ORI.L #$00000001,D0
theorem test_decode_ori : decode [0x0080, 0x0000, 0x0001] = .ok (.ori 0x00000001 0, []) := by decide
-- V70: ASR.L #8,D0
theorem test_decode_asrImm : decode [0xE080] = .ok (.asrImm 0x0 0, []) := by decide
-- V74: ASR.L D1,D0
theorem test_decode_asrReg : decode [0xE2A0] = .ok (.asrReg 1 0, []) := by decide
-- V61: ASL.L #1,D0
theorem test_decode_aslImm : decode [0xE380] = .ok (.aslImm 0x1 0, []) := by decide
-- V66: ASL.L D1,D0
theorem test_decode_aslReg : decode [0xE3A0] = .ok (.aslReg 1 0, []) := by decide
-- V81: LSR.L #8,D0
theorem test_decode_lsrImm : decode [0xE088] = .ok (.lsrImm 0x0 0, []) := by decide
-- V83: LSR.L D1,D0
theorem test_decode_lsrReg : decode [0xE2A8] = .ok (.lsrReg 1 0, []) := by decide
-- V76: LSL.L #1,D0
theorem test_decode_lslImm : decode [0xE388] = .ok (.lslImm 0x1 0, []) := by decide
-- V78: LSL.L D1,D0
theorem test_decode_lslReg : decode [0xE3A8] = .ok (.lslReg 1 0, []) := by decide
-- V102: BRA.B *
theorem test_decode_bra : decode [0x60FE] = .ok (.bra (.byte 0xfe), []) := by decide
-- V104: BSR.B *+0x12
theorem test_decode_bsr : decode [0x6110] = .ok (.bsr (.byte 0x10), []) := by decide
-- V88: BNE.W *+0x104
theorem test_decode_bcc : decode [0x6600, 0x0102] = .ok (.bcc .NE (.word 0x0102), []) := by decide
-- V108: JMP (6,PC)
theorem test_decode_jmp : decode [0x4EFA, 0x0006] = .ok (.jmp (.pcDisp 0x0006), []) := by decide
-- V111: JSR ($00003000).L
theorem test_decode_jsr : decode [0x4EB9, 0x0000, 0x3000] = .ok (.jsr (.absL 0x00003000), []) := by decide
-- V113: RTS
theorem test_decode_rts : decode [0x4E75] = .ok (.rts, []) := by decide
-- V119: BTST D1,D0
theorem test_decode_btstReg : decode [0x0300] = .ok (.btstReg 1 (.dn 0), []) := by decide
-- V118: BTST #32,D0
theorem test_decode_btstImm : decode [0x0800, 0x0020] = .ok (.btstImm 0x20 (.dn 0), []) := by decide
-- V121: BCHG D1,D0
theorem test_decode_bchgReg : decode [0x0340] = .ok (.bchgReg 1 (.dn 0), []) := by decide
-- V122: BCHG #7,(A0)
theorem test_decode_bchgImm : decode [0x0850, 0x0007] = .ok (.bchgImm 0x07 (.ind 0), []) := by decide
-- V124: BCLR D1,D0
theorem test_decode_bclrReg : decode [0x0380] = .ok (.bclrReg 1 (.dn 0), []) := by decide
-- V123: BCLR #7,(A0)
theorem test_decode_bclrImm : decode [0x0890, 0x0007] = .ok (.bclrImm 0x07 (.ind 0), []) := by decide
-- V125: BSET D1,D0
theorem test_decode_bsetReg : decode [0x03C0] = .ok (.bsetReg 1 (.dn 0), []) := by decide
-- V127: BSET #3,(A0)+
theorem test_decode_bsetImm : decode [0x08D8, 0x0003] = .ok (.bsetImm 0x03 (.postinc 0), []) := by decide
-- V129: CLR.B D0
theorem test_decode_clrB : decode [0x4200] = .ok (.clrB (.dn 0), []) := by decide
-- V130: CLR.W D0
theorem test_decode_clrW : decode [0x4240] = .ok (.clrW (.dn 0), []) := by decide
-- V131: CLR.L (A0)
theorem test_decode_clrL : decode [0x4290] = .ok (.clrL (.ind 0), []) := by decide
-- V133: EXT.W D0
theorem test_decode_extW : decode [0x4880] = .ok (.extW 0, []) := by decide
-- V134: EXT.L D0
theorem test_decode_extL : decode [0x48C0] = .ok (.extL 0, []) := by decide
-- V136: EXTB.L D0
theorem test_decode_extbL : decode [0x49C0] = .ok (.extbL 0, []) := by decide
-- V141: LEA ($8000).W,A0
theorem test_decode_lea : decode [0x41F8, 0x8000] = .ok (.lea (.absW 0x8000) 0, []) := by decide
-- V143: LINK A6,#-8
theorem test_decode_link : decode [0x4E56, 0xFFF8] = .ok (.link 6 0xfff8, []) := by decide
-- V145: MOVE.B D0,D1
theorem test_decode_moveB : decode [0x1200] = .ok (.moveB (.dn 0) (.dn 1), []) := by decide
-- V146: MOVE.W D0,D1
theorem test_decode_moveW : decode [0x3200] = .ok (.moveW (.dn 0) (.dn 1), []) := by decide
-- V149: MOVE.L (A0)+,(A0)+
theorem test_decode_moveL : decode [0x20D8] = .ok (.moveL (.postinc 0) (.postinc 0), []) := by decide
-- V157: MOVEA.W D0,A0
theorem test_decode_moveaW : decode [0x3040] = .ok (.moveaW (.dn 0) 0, []) := by decide
-- V159: MOVEA.L (A0)+,A0
theorem test_decode_moveaL : decode [0x2058] = .ok (.moveaL (.postinc 0) 0, []) := by decide
-- V160: MOVE CCR,D0
theorem test_decode_moveFromCcr : decode [0x42C0] = .ok (.moveFromCcr 0, []) := by decide
-- V161: MOVE D0,CCR
theorem test_decode_moveToCcr : decode [0x44C0] = .ok (.moveToCcr (.dn 0), []) := by decide
-- V163: MOVEM.L D2-D3/A2,(SP)
theorem test_decode_movemStore : decode [0x48D7, 0x040C] = .ok (.movemStore 0x040c (.ind 7), []) := by decide
-- V164: MOVEM.L (SP),D2-D3/A2
theorem test_decode_movemLoad : decode [0x4CD7, 0x040C] = .ok (.movemLoad 0x040c (.ind 7), []) := by decide
-- V167: MOVEQ #-1,D0
theorem test_decode_moveq : decode [0x70FF] = .ok (.moveq 0xff 0, []) := by decide
-- V171: PEA (4,PC)
theorem test_decode_pea : decode [0x487A, 0x0004] = .ok (.pea (.pcDisp 0x0004), []) := by decide
-- V172: SEQ D0
theorem test_decode_scc : decode [0x57C0] = .ok (.scc .EQ 0, []) := by decide
-- V177: SWAP D0
theorem test_decode_swap : decode [0x4840] = .ok (.swap 0, []) := by decide
-- V182: TST.B (A0)+
theorem test_decode_tstB : decode [0x4A18] = .ok (.tstB (.postinc 0), []) := by decide
-- V180: TST.W D0
theorem test_decode_tstW : decode [0x4A40] = .ok (.tstW (.dn 0), []) := by decide
-- V181: TST.L A0
theorem test_decode_tstL : decode [0x4A88] = .ok (.tstL (.an 0), []) := by decide
-- V144: UNLK A6
theorem test_decode_unlk : decode [0x4E5E] = .ok (.unlk 6, []) := by decide
-- V195: DIVS.W D1,D0
theorem test_decode_divsW : decode [0x81C1] = .ok (.divsW (.dn 1) 0, []) := by decide
-- V204: DIVS.L D1,D0
theorem test_decode_divsL : decode [0x4C41, 0x0800] = .ok (.divsL (.dn 1) 0, []) := by decide
-- V200: DIVU.W D1,D0
theorem test_decode_divuW : decode [0x80C1] = .ok (.divuW (.dn 1) 0, []) := by decide
-- V208: DIVU.L (A0),D3
theorem test_decode_divuL : decode [0x4C50, 0x3003] = .ok (.divuL (.ind 0) 3, []) := by decide
-- V185: MULS.W D1,D0
theorem test_decode_mulsW : decode [0xC1C1] = .ok (.mulsW (.dn 1) 0, []) := by decide
-- V190: MULS.L D1,D0
theorem test_decode_mulsL : decode [0x4C01, 0x0800] = .ok (.mulsL (.dn 1) 0, []) := by decide
-- V188: MULU.W D1,D0
theorem test_decode_muluW : decode [0xC0C1] = .ok (.muluW (.dn 1) 0, []) := by decide
-- V192: MULU.L (4,A0),D2
theorem test_decode_muluL : decode [0x4C28, 0x2000, 0x0004] = .ok (.muluL (.disp 0 0x0004) 2, []) := by decide
-- V209: REMS.L D1,D2:D0
theorem test_decode_remsL : decode [0x4C41, 0x0802] = .ok (.remsL (.dn 1) 2 0, []) := by decide
-- V211: REMU.L D1,D2:D0
theorem test_decode_remuL : decode [0x4C41, 0x0002] = .ok (.remuL (.dn 1) 2 0, []) := by decide
-- V215: NOP
theorem test_decode_nop : decode [0x4E71] = .ok (.nop, []) := by decide
-- V216: TRAP #15
theorem test_decode_trap : decode [0x4E4F] = .ok (.trap 0xf, []) := by decide

/-! ### One step: vectors of 95_test_vectors.md -/

-- V2 (R120): ADD.L D1,D0
theorem test_V2_addEaDn :
    runs [0xD081] [.d 0 0xFFFFFFFF, .d 1 0x00000001] [.d 0 0x00000000, .ccr 0b10101, .pc 0x00001002] = true := by decide
-- V5 (R120): ADD.L (A0)+,D0
theorem test_V5_addEaDn :
    runs [0xD098] [.d 0 0x00000005, .a 0 0x00002000, .long 0x00002000 0xFFFFFFFE]
      [.d 0 0x00000003, .a 0 0x00002004, .ccr 0b10001, .pc 0x00001002] = true := by decide
-- V7 (R120): ADD.L D0,-(A0)
theorem test_V7_addDnEa :
    runs [0xD1A0] [.d 0 0x00000001, .a 0 0x00002004, .long 0x00002000 0x7FFFFFFF]
      [.a 0 0x00002000, .long 0x00002000 0x80000000, .ccr 0b01010, .pc 0x00001002] = true := by decide
-- V9 (R121): ADDA.L A1,A1
theorem test_V9_adda :
    runs [0xD3C9] [.a 1 0x00001234, .ccr 0b01010] [.a 1 0x00002468, .ccr 0b01010, .pc 0x00001002] = true := by decide
-- V10 (R122): ADDI.L #$80000000,D2
theorem test_V10_addi :
    runs [0x0682, 0x8000, 0x0000] [.d 2 0x80000000] [.d 2 0x00000000, .ccr 0b10111, .pc 0x00001006] = true := by decide
-- V12 (R123): ADDQ.L #8,D3
theorem test_V12_addq :
    runs [0x5083] [.d 3 0xFFFFFFF8] [.d 3 0x00000000, .ccr 0b10101, .pc 0x00001002] = true := by decide
-- V13 (R123): ADDQ.L #1,A0
theorem test_V13_addq :
    runs [0x5288] [.a 0 0xFFFFFFFF, .ccr 0b01010] [.a 0 0x00000000, .ccr 0b01010, .pc 0x00001002] = true := by decide
-- V17 (R124): ADDX.L D1,D0
theorem test_V17_addx :
    runs [0xD181] [.d 0 0x00000001, .d 1 0x00000002, .ccr 0b10100]
      [.d 0 0x00000004, .ccr 0b00000, .pc 0x00001002] = true := by decide
-- V18 (R124): ADDX.L D1,D0
theorem test_V18_addx :
    runs [0xD181] [.d 0 0x00000001, .d 1 0x00000002, .ccr 0b00100]
      [.d 0 0x00000003, .ccr 0b00000, .pc 0x00001002] = true := by decide
-- V21 (R125): CMP.L D1,D0
theorem test_V21_cmp :
    runs [0xB081] [.d 0 0x80000000, .d 1 0x00000001] [.d 0 0x80000000, .ccr 0b00010, .pc 0x00001002] = true := by decide
-- V22 (R125): CMP.L D1,D0
theorem test_V22_cmp :
    runs [0xB081] [.d 0 0x7FFFFFFF, .d 1 0xFFFFFFFF] [.d 0 0x7FFFFFFF, .ccr 0b01011, .pc 0x00001002] = true := by decide
-- V23 (R126): CMPA.L A1,A0
theorem test_V23_cmpa :
    runs [0xB1C9] [.a 0 0x00002000, .a 1 0x00002004, .ccr 0b10000]
      [.a 0 0x00002000, .ccr 0b11001, .pc 0x00001002] = true := by decide
-- V24 (R127): CMPI.L #5,D0
theorem test_V24_cmpi :
    runs [0x0C80, 0x0000, 0x0005] [.d 0 0x00000006] [.d 0 0x00000006, .ccr 0b00000, .pc 0x00001006] = true := by decide
-- V28 (R128): NEG.L D0
theorem test_V28_neg :
    runs [0x4480] [.d 0 0x80000000] [.d 0 0x80000000, .ccr 0b11011, .pc 0x00001002] = true := by decide
-- V30 (R129): NEGX.L D0
theorem test_V30_negx :
    runs [0x4080] [.d 0 0x00000000, .ccr 0b00100] [.d 0 0x00000000, .ccr 0b00100, .pc 0x00001002] = true := by decide
-- V31 (R129): NEGX.L D0
theorem test_V31_negx :
    runs [0x4080] [.d 0 0x00000000, .ccr 0b00000] [.d 0 0x00000000, .ccr 0b00000, .pc 0x00001002] = true := by decide
-- V34 (R130): SUB.L D1,D0
theorem test_V34_subEaDn :
    runs [0x9081] [.d 0 0x80000000, .d 1 0x00000001] [.d 0 0x7FFFFFFF, .ccr 0b00010, .pc 0x00001002] = true := by decide
-- V36 (R130): SUB.L (d16,A0),D0
theorem test_V36_subEaDn :
    runs [0x90A8, 0x0008] [.d 0 0x0000000A, .a 0 0x00002000, .long 0x00002008 0x00000003]
      [.d 0 0x00000007, .ccr 0b00000, .pc 0x00001004] = true := by decide
-- V35 (R130): SUB.L D0,(A0)
theorem test_V35_subDnEa :
    runs [0x9190] [.d 0 0x00000001, .a 0 0x00002000, .long 0x00002000 0x00000000]
      [.long 0x00002000 0xFFFFFFFF, .ccr 0b11001, .pc 0x00001002] = true := by decide
-- V37 (R131): SUBA.L D0,A1
theorem test_V37_suba :
    runs [0x93C0] [.d 0 0x00000001, .a 1 0x00000000, .ccr 0b00100]
      [.a 1 0xFFFFFFFF, .ccr 0b00100, .pc 0x00001002] = true := by decide
-- V38 (R132): SUBI.L #1,D0
theorem test_V38_subi :
    runs [0x0480, 0x0000, 0x0001] [.d 0 0x00000001] [.d 0 0x00000000, .ccr 0b00100, .pc 0x00001006] = true := by decide
-- V40 (R133): SUBQ.L #8,D0
theorem test_V40_subq :
    runs [0x5180] [.d 0 0x00000007] [.d 0 0xFFFFFFFF, .ccr 0b11001, .pc 0x00001002] = true := by decide
-- V41 (R133): SUBQ.L #4,A7
theorem test_V41_subq :
    runs [0x598F] [.ccr 0b11111] [.a 7 0x00007FFC, .ccr 0b11111, .pc 0x00001002] = true := by decide
-- V43 (R134): SUBX.L D1,D0
theorem test_V43_subx :
    runs [0x9181] [.d 0 0x00000005, .d 1 0x00000005, .ccr 0b00100]
      [.d 0 0x00000000, .ccr 0b00100, .pc 0x00001002] = true := by decide
-- V44 (R134): SUBX.L D1,D0
theorem test_V44_subx :
    runs [0x9181] [.d 0 0x00000005, .d 1 0x00000005, .ccr 0b00000]
      [.d 0 0x00000000, .ccr 0b00000, .pc 0x00001002] = true := by decide
-- V48 (R150): AND.L #$0000FFFF,D0
theorem test_V48_andEaDn :
    runs [0xC0BC, 0x0000, 0xFFFF] [.d 0 0x12345678] [.d 0 0x00005678, .ccr 0b00000, .pc 0x00001006] = true := by decide
-- V47 (R150): AND.L D0,(A0)
theorem test_V47_andDnEa :
    runs [0xC190] [.d 0 0x80000001, .a 0 0x00002000, .long 0x00002000 0xFFFFFFFF]
      [.long 0x00002000 0x80000001, .ccr 0b01000, .pc 0x00001002] = true := by decide
-- V49 (R151): ANDI.L #$000000FF,D0
theorem test_V49_andi :
    runs [0x0280, 0x0000, 0x00FF] [.d 0 0x12345678] [.d 0 0x00000078, .ccr 0b00000, .pc 0x00001006] = true := by decide
-- V51 (R152): EOR.L D0,D0
theorem test_V51_eor :
    runs [0xB180] [.d 0 0x12345678, .ccr 0b11000] [.d 0 0x00000000, .ccr 0b10100, .pc 0x00001002] = true := by decide
-- V52 (R152): EOR.L D1,(A0)
theorem test_V52_eor :
    runs [0xB390] [.d 1 0x0000FFFF, .a 0 0x00002000, .long 0x00002000 0x80000000]
      [.long 0x00002000 0x8000FFFF, .ccr 0b01000, .pc 0x00001002] = true := by decide
-- V53 (R153): EORI.L #$80000000,D7
theorem test_V53_eori :
    runs [0x0A87, 0x8000, 0x0000] [.d 7 0x00000000] [.d 7 0x80000000, .ccr 0b01000, .pc 0x00001006] = true := by decide
-- V55 (R154): NOT.L D0
theorem test_V55_notDn :
    runs [0x4680] [.d 0 0x0000FFFF] [.d 0 0xFFFF0000, .ccr 0b01000, .pc 0x00001002] = true := by decide
-- V57 (R155): OR.L (A0),D0
theorem test_V57_orEaDn :
    runs [0x8090] [.d 0 0x00000000, .a 0 0x00002000, .long 0x00002000 0x00000000]
      [.d 0 0x00000000, .ccr 0b00100, .pc 0x00001002] = true := by decide
-- V58 (R155): OR.L D0,(A0)
theorem test_V58_orDnEa :
    runs [0x8190] [.d 0 0x00000001, .a 0 0x00002000, .long 0x00002000 0x00000010]
      [.long 0x00002000 0x00000011, .ccr 0b00000, .pc 0x00001002] = true := by decide
-- V59 (R156): ORI.L #$00000001,D0
theorem test_V59_ori :
    runs [0x0080, 0x0000, 0x0001] [.d 0 0xFFFFFFFE] [.d 0 0xFFFFFFFF, .ccr 0b01000, .pc 0x00001006] = true := by decide
-- V70 (R167): ASR.L #8,D0
theorem test_V70_asrImm :
    runs [0xE080] [.d 0 0x7FFFFF80] [.d 0 0x007FFFFF, .ccr 0b10001, .pc 0x00001002] = true := by decide
-- V74 (R167): ASR.L D1,D0
theorem test_V74_asrReg :
    runs [0xE2A0] [.d 0 0x7FFFFFFF, .d 1 0x00000028, .ccr 0b10001]
      [.d 0 0x00000000, .ccr 0b00100, .pc 0x00001002] = true := by decide
-- V75 (R167): ASR.L D1,D0
theorem test_V75_asrReg :
    runs [0xE2A0] [.d 0 0xFFFFFFFF, .d 1 0x00000000, .ccr 0b10001]
      [.d 0 0xFFFFFFFF, .ccr 0b11000, .pc 0x00001002] = true := by decide
-- V61 (R166): ASL.L #1,D0
theorem test_V61_aslImm :
    runs [0xE380] [.d 0 0x80000001] [.d 0 0x00000002, .ccr 0b10001, .pc 0x00001002] = true := by decide
-- V62 (R166): ASL.L #8,D0
theorem test_V62_aslImm :
    runs [0xE180] [.d 0 0x01FFFFFF] [.d 0 0xFFFFFF00, .ccr 0b11001, .pc 0x00001002] = true := by decide
-- V66 (R166): ASL.L D1,D0
theorem test_V66_aslReg :
    runs [0xE3A0] [.d 0 0xFFFFFFFF, .d 1 0x00000021, .ccr 0b10000]
      [.d 0 0x00000000, .ccr 0b00100, .pc 0x00001002] = true := by decide
-- V68 (R166): ASL.L D1,D0
theorem test_V68_aslReg :
    runs [0xE3A0] [.d 0 0x00000003, .d 1 0xFFFFFF41] [.d 0 0x00000006, .ccr 0b00000, .pc 0x00001002] = true := by decide
-- V81 (R169): LSR.L #8,D0
theorem test_V81_lsrImm :
    runs [0xE088] [.d 0 0x12345678] [.d 0 0x00123456, .ccr 0b00000, .pc 0x00001002] = true := by decide
-- V83 (R169): LSR.L D1,D0
theorem test_V83_lsrReg :
    runs [0xE2A8] [.d 0 0x80000000, .d 1 0x00000021, .ccr 0b10001]
      [.d 0 0x00000000, .ccr 0b00100, .pc 0x00001002] = true := by decide
-- V84 (R169): LSR.L D1,D0
theorem test_V84_lsrReg :
    runs [0xE2A8] [.d 0 0x80000000, .d 1 0x0000001F] [.d 0 0x00000001, .ccr 0b00000, .pc 0x00001002] = true := by decide
-- V76 (R168): LSL.L #1,D0
theorem test_V76_lslImm :
    runs [0xE388] [.d 0 0xC0000000] [.d 0 0x80000000, .ccr 0b11001, .pc 0x00001002] = true := by decide
-- V78 (R168): LSL.L D1,D0
theorem test_V78_lslReg :
    runs [0xE3A8] [.d 0 0xFFFFFFFF, .d 1 0x00000021, .ccr 0b10001]
      [.d 0 0x00000000, .ccr 0b00100, .pc 0x00001002] = true := by decide
-- V79 (R168): LSL.L D0,D0
theorem test_V79_lslReg :
    runs [0xE1A8] [.d 0 0x00000004] [.d 0 0x00000040, .ccr 0b00000, .pc 0x00001002] = true := by decide
-- V102 (R176): BRA.B *
theorem test_V102_bra :
    runs [0x60FE] [.ccr 0b11111] [.ccr 0b11111, .pc 0x00001000] = true := by decide
-- V103 (R176): BRA.W *-0x0FFE
theorem test_V103_bra :
    runs [0x6000, 0xF000] [] [.ccr 0b00000, .pc 0x00000002] = true := by decide
-- V104 (R177): BSR.B *+0x12
theorem test_V104_bsr :
    runs [0x6110] [] [.a 7 0x00007FFC, .long 0x00007FFC 0x00001002, .ccr 0b00000, .pc 0x00001012] = true := by decide
-- V105 (R177): BSR.W *+0x202
theorem test_V105_bsr :
    runs [0x6100, 0x0200] [] [.a 7 0x00007FFC, .long 0x00007FFC 0x00001004, .ccr 0b00000, .pc 0x00001202] = true := by decide
-- V88 (R175): BNE.W *+0x104
theorem test_V88_bcc :
    runs [0x6600, 0x0102] [.ccr 0b00000] [.ccr 0b00000, .pc 0x00001104] = true := by decide
-- V89 (R175): BNE.W *+0x104
theorem test_V89_bcc :
    runs [0x6600, 0x0102] [.ccr 0b00100] [.ccr 0b00100, .pc 0x00001004] = true := by decide
-- V108 (R178): JMP (6,PC)
theorem test_V108_jmp :
    runs [0x4EFA, 0x0006] [] [.ccr 0b00000, .pc 0x00001008] = true := by decide
-- V109 (R178): JMP (2,A0,D1.L*4)
theorem test_V109_jmp :
    runs [0x4EF0, 0x1C02] [.a 0 0x00003000, .d 1 0x00000003] [.ccr 0b00000, .pc 0x0000300E] = true := by decide
-- V111 (R179): JSR ($00003000).L
theorem test_V111_jsr :
    runs [0x4EB9, 0x0000, 0x3000] []
      [.a 7 0x00007FFC, .long 0x00007FFC 0x00001006, .ccr 0b00000, .pc 0x00003000] = true := by decide
-- V112 (R179): JSR ($3000).W
theorem test_V112_jsr :
    runs [0x4EB8, 0x3000] [] [.a 7 0x00007FFC, .long 0x00007FFC 0x00001004, .ccr 0b00000, .pc 0x00003000] = true := by decide
-- V113 (R180): RTS
theorem test_V113_rts :
    runs [0x4E75] [.a 7 0x00007FFC, .long 0x00007FFC 0x00001234, .ccr 0b10101]
      [.a 7 0x00008000, .ccr 0b10101, .pc 0x00001234] = true := by decide
-- V119 (R194): BTST D1,D0
theorem test_V119_btstReg :
    runs [0x0300] [.d 0 0x00000002, .d 1 0x00000021] [.d 0 0x00000002, .ccr 0b00000, .pc 0x00001002] = true := by decide
-- V120 (R194): BTST D1,(A0)
theorem test_V120_btstReg :
    runs [0x0310] [.d 1 0x0000000F, .a 0 0x00002000, .byte 0x00002000 0x80]
      [.byte 0x00002000 0x80, .ccr 0b00000, .pc 0x00001002] = true := by decide
-- V118 (R194): BTST #32,D0
theorem test_V118_btstImm :
    runs [0x0800, 0x0020] [.d 0 0x00000001] [.d 0 0x00000001, .ccr 0b00000, .pc 0x00001004] = true := by decide
-- V121 (R191): BCHG D1,D0
theorem test_V121_bchgReg :
    runs [0x0340] [.d 0 0x00000000, .d 1 0x0000001F] [.d 0 0x80000000, .ccr 0b00100, .pc 0x00001002] = true := by decide
-- V122 (R191): BCHG #7,(A0)
theorem test_V122_bchgImm :
    runs [0x0850, 0x0007] [.a 0 0x00002000, .byte 0x00002000 0xFF]
      [.byte 0x00002000 0x7F, .ccr 0b00000, .pc 0x00001004] = true := by decide
-- V124 (R192): BCLR D1,D0
theorem test_V124_bclrReg :
    runs [0x0380] [.d 0 0xFFFFFFFF, .d 1 0x00000104] [.d 0 0xFFFFFFEF, .ccr 0b00000, .pc 0x00001002] = true := by decide
-- V123 (R192): BCLR #7,(A0)
theorem test_V123_bclrImm :
    runs [0x0890, 0x0007] [.a 0 0x00002000, .byte 0x00002000 0x80]
      [.byte 0x00002000 0x00, .ccr 0b00000, .pc 0x00001004] = true := by decide
-- V125 (R193): BSET D1,D0
theorem test_V125_bsetReg :
    runs [0x03C0] [.d 0 0x00000000, .d 1 0x00000000] [.d 0 0x00000001, .ccr 0b00100, .pc 0x00001002] = true := by decide
-- V126 (R193): BSET D1,(A0)
theorem test_V126_bsetReg :
    runs [0x03D0] [.d 1 0x00000009, .a 0 0x00002001, .byte 0x00002001 0x00]
      [.byte 0x00002001 0x02, .ccr 0b00100, .pc 0x00001002] = true := by decide
-- V127 (R193): BSET #3,(A0)+
theorem test_V127_bsetImm :
    runs [0x08D8, 0x0003] [.a 0 0x00002000, .byte 0x00002000 0x08]
      [.byte 0x00002000 0x08, .a 0 0x00002001, .ccr 0b00000, .pc 0x00001004] = true := by decide
-- V129 (R200): CLR.B D0
theorem test_V129_clrB :
    runs [0x4200] [.d 0 0x12345678, .ccr 0b11011] [.d 0 0x12345600, .ccr 0b10100, .pc 0x00001002] = true := by decide
-- V130 (R200): CLR.W D0
theorem test_V130_clrW :
    runs [0x4240] [.d 0 0x12345678] [.d 0 0x12340000, .ccr 0b00100, .pc 0x00001002] = true := by decide
-- V132 (R200): CLR.W (A0)+
theorem test_V132_clrW :
    runs [0x4258] [.a 0 0x00002000, .long 0x00002000 0xFFFFFFFF]
      [.long 0x00002000 0x0000FFFF, .a 0 0x00002002, .ccr 0b00100, .pc 0x00001002] = true := by decide
-- V131 (R200): CLR.L (A0)
theorem test_V131_clrL :
    runs [0x4290] [.a 0 0x00002000, .long 0x00002000 0xFFFFFFFF]
      [.long 0x00002000 0x00000000, .ccr 0b00100, .pc 0x00001002] = true := by decide
-- V133 (R201): EXT.W D0
theorem test_V133_extW :
    runs [0x4880] [.d 0 0x12340080] [.d 0 0x1234FF80, .ccr 0b01000, .pc 0x00001002] = true := by decide
-- V134 (R202): EXT.L D0
theorem test_V134_extL :
    runs [0x48C0] [.d 0 0x12348000] [.d 0 0xFFFF8000, .ccr 0b01000, .pc 0x00001002] = true := by decide
-- V136 (R203): EXTB.L D0
theorem test_V136_extbL :
    runs [0x49C0] [.d 0 0x1234567F] [.d 0 0x0000007F, .ccr 0b00000, .pc 0x00001002] = true := by decide
-- V141 (R204): LEA ($8000).W,A0
theorem test_V141_lea :
    runs [0x41F8, 0x8000] [] [.a 0 0xFFFF8000, .ccr 0b00000, .pc 0x00001004] = true := by decide
-- V142 (R204): LEA (0,A0,A1.L*2),A2
theorem test_V142_lea :
    runs [0x45F0, 0x9A00] [.a 0 0x00002000, .a 1 0x00000010]
      [.a 2 0x00002020, .ccr 0b00000, .pc 0x00001004] = true := by decide
-- V143 (R205): LINK A6,#-8
theorem test_V143_link :
    runs [0x4E56, 0xFFF8] [.a 6 0x11112222]
      [.a 6 0x00007FFC, .a 7 0x00007FF4, .long 0x00007FFC 0x11112222, .ccr 0b00000, .pc 0x00001004] = true := by decide
-- V145 (R206): MOVE.B D0,D1
theorem test_V145_moveB :
    runs [0x1200] [.d 0 0xAABBCCDD, .d 1 0x11223344] [.d 1 0x112233DD, .ccr 0b01000, .pc 0x00001002] = true := by decide
-- V150 (R206): MOVE.B D0,-(A0)
theorem test_V150_moveB :
    runs [0x1100] [.d 0 0x0000007F, .a 0 0x00002001]
      [.byte 0x00002000 0x7F, .a 0 0x00002000, .ccr 0b00000, .pc 0x00001002] = true := by decide
-- V146 (R206): MOVE.W D0,D1
theorem test_V146_moveW :
    runs [0x3200] [.d 0 0xAABB0000, .d 1 0x11223344, .ccr 0b11011]
      [.d 1 0x11220000, .ccr 0b10100, .pc 0x00001002] = true := by decide
-- V148 (R206): MOVE.W (A0)+,(A1)+
theorem test_V148_moveW :
    runs [0x32D8] [.a 0 0x00002000, .a 1 0x00002010, .word 0x00002000 0x8001]
      [.word 0x00002010 0x8001, .a 0 0x00002002, .a 1 0x00002012, .ccr 0b01000, .pc 0x00001002] = true := by decide
-- V149 (R206): MOVE.L (A0)+,(A0)+
theorem test_V149_moveL :
    runs [0x20D8] [.a 0 0x00002000, .long 0x00002000 0xCAFEF00D]
      [.long 0x00002004 0xCAFEF00D, .a 0 0x00002008, .ccr 0b01000, .pc 0x00001002] = true := by decide
-- V153 (R208): MOVE.L (4,A0),(8,A1)
theorem test_V153_moveL :
    runs [0x2368, 0x0004, 0x0008] [.a 0 0x00002000, .a 1 0x00002010, .long 0x00002004 0x80000000]
      [.long 0x00002018 0x80000000, .ccr 0b01000, .pc 0x00001006] = true := by decide
-- V157 (R207): MOVEA.W D0,A0
theorem test_V157_moveaW :
    runs [0x3040] [.d 0 0x0000F000, .ccr 0b01111] [.a 0 0xFFFFF000, .ccr 0b01111, .pc 0x00001002] = true := by decide
-- V159 (R207): MOVEA.L (A0)+,A0
theorem test_V159_moveaL :
    runs [0x2058] [.a 0 0x00002000, .long 0x00002000 0x00003000]
      [.a 0 0x00003000, .ccr 0b00000, .pc 0x00001002] = true := by decide
-- V160 (R209): MOVE CCR,D0
theorem test_V160_moveFromCcr :
    runs [0x42C0] [.d 0 0xFFFFFFFF, .ccr 0b10101] [.d 0 0xFFFF0015, .ccr 0b10101, .pc 0x00001002] = true := by decide
-- V161 (R210): MOVE D0,CCR
theorem test_V161_moveToCcr :
    runs [0x44C0] [.d 0 0xFFFFFFEA] [.ccr 0b01010, .pc 0x00001002] = true := by decide
-- V163 (R211): MOVEM.L D2-D3/A2,(SP)
theorem test_V163_movemStore :
    runs [0x48D7, 0x040C] [.d 2 0x22222222, .d 3 0x33333333, .a 2 0xAAAA2222, .a 7 0x00007FF0, .ccr 0b11111]
      [.long 0x00007FF0 0x22222222, .long 0x00007FF4 0x33333333, .long 0x00007FF8 0xAAAA2222, .a 7 0x00007FF0, .ccr 0b11111, .pc 0x00001004] = true := by decide +kernel
-- V165 (R211): MOVEM.L D0/A7,(4,A0)
theorem test_V165_movemStore :
    runs [0x48E8, 0x8001, 0x0004] [.d 0 0xD0D0D0D0, .a 0 0x00002000]
      [.long 0x00002004 0xD0D0D0D0, .long 0x00002008 0x00008000, .ccr 0b00000, .pc 0x00001006] = true := by decide +kernel
-- V164 (R212): MOVEM.L (SP),D2-D3/A2
theorem test_V164_movemLoad :
    runs [0x4CD7, 0x040C]
      [.a 7 0x00007FF0, .long 0x00007FF0 0x00000001, .long 0x00007FF4 0x00000002, .long 0x00007FF8 0x00000003] [.d 2 0x00000001, .d 3 0x00000002, .a 2 0x00000003, .a 7 0x00007FF0, .ccr 0b00000, .pc 0x00001004] = true := by decide +kernel
-- V166 (R212): MOVEM.L (A0),<empty list>
theorem test_V166_movemLoad :
    runs [0x4CD0, 0x0000] [.a 0 0x00100000] [.ccr 0b00000, .pc 0x00001004] = true := by decide
-- V167 (R213): MOVEQ #-1,D0
theorem test_V167_moveq :
    runs [0x70FF] [.d 0 0x00000000, .ccr 0b10011] [.d 0 0xFFFFFFFF, .ccr 0b11000, .pc 0x00001002] = true := by decide
-- V171 (R214): PEA (4,PC)
theorem test_V171_pea :
    runs [0x487A, 0x0004] [] [.a 7 0x00007FFC, .long 0x00007FFC 0x00001006, .ccr 0b00000, .pc 0x00001004] = true := by decide
-- V172 (R215): SEQ D0
theorem test_V172_scc :
    runs [0x57C0] [.d 0 0x12345600, .ccr 0b00100] [.d 0 0x123456FF, .ccr 0b00100, .pc 0x00001002] = true := by decide
-- V173 (R215): SEQ D0
theorem test_V173_scc :
    runs [0x57C0] [.d 0 0x123456FF, .ccr 0b00000] [.d 0 0x12345600, .ccr 0b00000, .pc 0x00001002] = true := by decide
-- V177 (R216): SWAP D0
theorem test_V177_swap :
    runs [0x4840] [.d 0 0x00008000] [.d 0 0x80000000, .ccr 0b01000, .pc 0x00001002] = true := by decide
-- V182 (R218): TST.B (A0)+
theorem test_V182_tstB :
    runs [0x4A18] [.a 0 0x00002000, .byte 0x00002000 0x00]
      [.a 0 0x00002001, .ccr 0b00100, .pc 0x00001002] = true := by decide
-- V180 (R218): TST.W D0
theorem test_V180_tstW :
    runs [0x4A40] [.d 0 0x00008000] [.d 0 0x00008000, .ccr 0b01000, .pc 0x00001002] = true := by decide
-- V181 (R218): TST.L A0
theorem test_V181_tstL :
    runs [0x4A88] [.a 0 0x80000000] [.a 0 0x80000000, .ccr 0b01000, .pc 0x00001002] = true := by decide
-- V184 (R218): TST.L (A0)
theorem test_V184_tstL : traps [0x4A90] [.a 0 0x000020FE] (.accessError .read 0x000020FE) = true := by decide
-- V144 (R219): UNLK A6
theorem test_V144_unlk :
    runs [0x4E5E] [.a 6 0x00007FFC, .a 7 0x00007FF4, .long 0x00007FFC 0x11112222]
      [.a 6 0x11112222, .a 7 0x00008000, .ccr 0b00000, .pc 0x00001002] = true := by decide
-- V195 (R230): DIVS.W D1,D0
theorem test_V195_divsW :
    runs [0x81C1] [.d 0 0x00000007, .d 1 0x0000FFFE] [.d 0 0x0001FFFD, .ccr 0b01000, .pc 0x00001002] = true := by decide
-- V199 (R230): DIVS.W D0,D0
theorem test_V199_divsW :
    runs [0x81C0] [.d 0 0x00010002] [.d 0 0x00010002, .ccr 0b00010, .pc 0x00001002] = true := by decide
-- V204 (R231): DIVS.L D1,D0
theorem test_V204_divsL :
    runs [0x4C41, 0x0800] [.d 0 0xFFFFFF9C, .d 1 0x00000007]
      [.d 0 0xFFFFFFF2, .ccr 0b01000, .pc 0x00001004] = true := by decide
-- V200 (R232): DIVU.W D1,D0
theorem test_V200_divuW :
    runs [0x80C1] [.d 0 0x000186A0, .d 1 0x00000007] [.d 0 0x000537CD, .ccr 0b00000, .pc 0x00001002] = true := by decide
-- V203 (R232): DIVU.W D1,D0
theorem test_V203_divuW :
    runs [0x80C1] [.d 0 0x00000003, .d 1 0x00000005] [.d 0 0x00030000, .ccr 0b00100, .pc 0x00001002] = true := by decide
-- V208 (R233): DIVU.L (A0),D3
theorem test_V208_divuL :
    runs [0x4C50, 0x3003] [.d 3 0x000003E8, .a 0 0x00002000, .long 0x00002000 0x0000000A]
      [.d 3 0x00000064, .ccr 0b00000, .pc 0x00001004] = true := by decide
-- V185 (R234): MULS.W D1,D0
theorem test_V185_mulsW :
    runs [0xC1C1] [.d 0 0x1234FFFF, .d 1 0x00000002] [.d 0 0xFFFFFFFE, .ccr 0b01000, .pc 0x00001002] = true := by decide
-- V187 (R234): MULS.W #-1,D0
theorem test_V187_mulsW :
    runs [0xC1FC, 0xFFFF] [.d 0 0x00000000, .ccr 0b10011] [.d 0 0x00000000, .ccr 0b10100, .pc 0x00001004] = true := by decide
-- V190 (R235): MULS.L D1,D0
theorem test_V190_mulsL :
    runs [0x4C01, 0x0800] [.d 0 0xFFFFFFFF, .d 1 0x00000003]
      [.d 0 0xFFFFFFFD, .ccr 0b01000, .pc 0x00001004] = true := by decide
-- V188 (R236): MULU.W D1,D0
theorem test_V188_muluW :
    runs [0xC0C1] [.d 0 0xFFFFFFFF, .d 1 0xFFFFFFFF] [.d 0 0xFFFE0001, .ccr 0b01000, .pc 0x00001002] = true := by decide
-- V192 (R237): MULU.L (4,A0),D2
theorem test_V192_muluL :
    runs [0x4C28, 0x2000, 0x0004] [.d 2 0x00000007, .a 0 0x00002000, .long 0x00002004 0x00000006]
      [.d 2 0x0000002A, .ccr 0b00000, .pc 0x00001006] = true := by decide
-- V209 (R238): REMS.L D1,D2:D0
theorem test_V209_remsL :
    runs [0x4C41, 0x0802] [.d 0 0xFFFFFF9C, .d 1 0x00000007, .d 2 0x00000000]
      [.d 2 0xFFFFFFFE, .d 0 0xFFFFFF9C, .ccr 0b01000, .pc 0x00001004] = true := by decide
-- V211 (R239): REMU.L D1,D2:D0
theorem test_V211_remuL :
    runs [0x4C41, 0x0002] [.d 0 0x00000064, .d 1 0x00000007, .d 2 0x00000000]
      [.d 2 0x00000002, .d 0 0x00000064, .ccr 0b00000, .pc 0x00001004] = true := by decide
-- V215 (R245): NOP
theorem test_V215_nop :
    runs [0x4E71] [.ccr 0b10101] [.ccr 0b10101, .pc 0x00001002] = true := by decide
-- V216 (R246): TRAP #15
theorem test_V216_trap : traps [0x4E4F] [] (.trap 15) = true := by decide

/-! ### Ill-formed terms, one for each check of `WellFormed` -/

-- R68: a mode outside the class the instruction allows, for each of the nine classes
theorem test_wf_source_size : Instr.wf (.addEaDn (.imm 1) 0) = true ∧ Instr.wf (.moveB (.an 0) (.dn 0)) = false ∧
    Instr.wf (.tstB (.an 0)) = false := by decide
theorem test_wf_data : Instr.wf (.andEaDn (.an 0) 0) = false ∧ Instr.wf (.orEaDn (.an 0) 0) = false ∧
    Instr.wf (.mulsW (.an 0) 0) = false ∧ Instr.wf (.muluW (.an 0) 0) = false ∧ Instr.wf (.divsW (.an 0) 0) = false ∧
    Instr.wf (.divuW (.an 0) 0) = false := by decide
theorem test_wf_alterable : Instr.wf (.addq 1 (.imm 0)) = false ∧ Instr.wf (.subq 1 (.pcDisp 0)) = false := by decide
theorem test_wf_dataAlterable : Instr.wf (.eor 0 (.an 0)) = false ∧ Instr.wf (.clrB (.an 0)) = false ∧
    Instr.wf (.clrW (.imm 0)) = false ∧ Instr.wf (.clrL (.pcDisp 0)) = false ∧ Instr.wf (.btstReg 0 (.an 0)) = false ∧
    Instr.wf (.bchgReg 0 (.an 0)) = false ∧ Instr.wf (.bclrReg 0 (.imm 0)) = false ∧
    Instr.wf (.bsetReg 0 (.pcDisp 0)) = false := by decide
theorem test_wf_memoryAlterable : Instr.wf (.addDnEa 0 (.dn 0)) = false ∧ Instr.wf (.subDnEa 0 (.an 0)) = false ∧
    Instr.wf (.andDnEa 0 (.dn 0)) = false ∧ Instr.wf (.orDnEa 0 (.imm 0)) = false := by decide
theorem test_wf_control : Instr.wf (.jmp (.postinc 0)) = false ∧ Instr.wf (.jsr (.dn 0)) = false ∧
    Instr.wf (.lea (.predec 0) 0) = false ∧ Instr.wf (.pea (.imm 0)) = false := by decide
theorem test_wf_short : Instr.wf (.btstImm 0 (.absW 0)) = false ∧ Instr.wf (.bchgImm 0 (.an 0)) = false ∧
    Instr.wf (.bclrImm 0 (.absL 0)) = false ∧ Instr.wf (.bsetImm 0 (.imm 0)) = false ∧
    Instr.wf (.mulsL (.absW 0) 0) = false ∧ Instr.wf (.muluL (.an 0) 0) = false ∧ Instr.wf (.divsL (.imm 0) 0) = false ∧
    Instr.wf (.divuL (.absL 0) 0) = false ∧ Instr.wf (.remsL (.an 0) 0 1) = false ∧
    Instr.wf (.remuL (.pcDisp 0) 0 1) = false := by decide
theorem test_wf_movem : Instr.wf (.movemStore 1 (.predec 0)) = false ∧ Instr.wf (.movemLoad 1 (.postinc 0)) = false := by
  decide
theorem test_wf_ccrSource : Instr.wf (.moveToCcr (.ind 0)) = false ∧ Instr.wf (.moveToCcr (.an 0)) = false := by decide
-- R206, R208: no destination An for MOVE; a pair outside the table
theorem test_wf_movePair : Instr.wf (.moveL (.imm 1) (.disp 1 8)) = false ∧
    Instr.wf (.moveL (.absW 0x2000) (.absW 0x2010)) = false ∧ Instr.wf (.moveW (.index 0 ⟨false, 0, .x1, 0⟩) (.disp 0 0)) = false ∧
    Instr.wf (.moveL (.dn 0) (.an 0)) = false ∧ Instr.wf (.moveL (.disp 0 4) (.disp 1 8)) = true := by decide
-- R86: an immediate wider than its size
theorem test_wf_immediate : Instr.wf (.moveB (.imm 0x100) (.dn 0)) = false ∧ Instr.wf (.moveW (.imm 0x10000) (.dn 0)) = false ∧
    Instr.wf (.moveaW (.imm 0x10000) 0) = false ∧ Instr.wf (.tstW (.imm 0x10000)) = false ∧
    Instr.wf (.divsW (.imm 0x10000) 0) = false ∧ Instr.wf (.moveaL (.imm 0xFFFFFFFF) 0) = true := by decide
-- R88, R175 to R177: the displacement bytes 0x00 and 0xFF, the conditions of BRA and BSR
theorem test_wf_branch : Instr.wf (.bra (.byte 0)) = false ∧ Instr.wf (.bsr (.byte 0xFF)) = false ∧
    Instr.wf (.bcc .T (.byte 2)) = false ∧ Instr.wf (.bcc .F (.word 2)) = false ∧ Instr.wf (.bcc .HI (.byte 0)) = false ∧
    Instr.wf (.bcc .LE (.word 0xFFFF)) = true := by decide
-- R93: equal register fields are the divide
theorem test_wf_remainder : Instr.wf (.remsL (.dn 1) 2 2) = false ∧ Instr.wf (.remuL (.dn 1) 0 0) = false ∧
    Instr.wf (.remsL (.dn 1) 2 0) = true := by decide

/-! ### Words that are no instruction (R97, R247): V128, V154 to V156, V193, V218 to V228, and reserved index words (R84) -/

/-- Are the words refused, and not for want of more? -/
def refuses (ws : List Word16) : Bool :=
  match decode ws with
  | .error e => e ≠ .truncated
  | .ok _ => false

theorem test_refused_opwords : ∀ ws ∈ [[0x237C, 0x0000, 0x0001], [0x21F8, 0x2000, 0x2010], [0x1008], [0x4AFC], [0x4E72, 0x2700],
    [0x4E73], [0xA000], [0xF000], [0x0000, 0x0000], [0xC141], [0xD041], [0xE398], [0x60FF, 0x0000, 0x0010], [0xE340]],
    refuses ws = true := by decide
theorem test_refused_second_words : ∀ ws ∈ [[0x08D0, 0x0103], [0x4C01, 0x0C00], [0x4C01, 0x8000], [0x4C41, 0x0808],
    [0x4EF0, 0x1402], [0x4EF0, 0x1E02], [0x4EF0, 0x1D02]], refuses ws = true := by decide
theorem test_truncated : decode [0x0682, 0x8000] = .error .truncated ∧ decode [] = .error .truncated := by decide

/-! ### The host's two functions -/

theorem test_decodeTableWord : decodeTableWord 16 0x4E71 = some .nop ∧
    decodeTableWord 48 0x000180000682 = some (.addi 0x80000001 2) ∧ decodeTableWord 32 0x08024C41 = some (.remsL (.dn 1) 2 0) ∧
    decodeTableWord 16 0x4AFC = none := by decide
theorem test_withFetchWord : fetchInstr (State.reset.withFetchWord 48 0x000180000682) = .ok (.addi 0x80000001 2) := by decide

/-! ### Exceptions in the supervisor model (R265, R266) -/

/-- The vectors' configuration with a vector table at 0 and exceptions taken. -/
def supervisorConfig : Config := { vectorConfig with mapped := ⟨0, 1024⟩ :: vectorConfig.mapped, trapModel := .supervisor }

/-- A start state with exceptions taken. -/
def startSup (ws : List Word16) (ps : List Put) : State :=
  ps.foldl put ((State.launch supervisorConfig).placeWords 0x1000 ws)

/-- The next state, if there is one. -/
def nextOf : Host.Outcome State Fault Refusal → Option State
  | .next t => some t
  | _ => none

theorem exists_next {o : Host.Outcome State Fault Refusal} (h : (nextOf o).isSome = true) : ∃ t, o = .next t := by
  cases o with
  | next t => exact ⟨t, rfl⟩
  | fault f => cases h
  | refused q => cases h

-- R265: the frame lies at SP rounded down less 8, S is set and T cleared, the condition codes stay. (The frame's bytes and
-- the pc read through it hold a free value, which nothing can evaluate: log 10.)
theorem test_trap_taken : (nextOf (step (startSup [0x4E4F] [.a 7 0x7F83, .long 0xBC 0x1002, .ccr 0b10101]))).map
    (fun t => (t.sp, t.sys, t.ccr)) = some (0x7F78, ⟨false, true, false, 7⟩, ⟨true, false, true, false, true⟩) := by decide
theorem test_divide_by_zero_taken : (nextOf (step (startSup [0x80C1] [.a 7 0x7F80, .long 0x14 0x1004]))).map
    (fun t => (t.sp, t.sys)) = some (0x7F78, ⟨false, true, false, 7⟩) := by decide
-- R246, R261: the vector numbers and the pc each exception saves
theorem test_vectors : (Exception.accessError .read 0).vector = 2 ∧ (Exception.addressError 1).vector = 3 ∧
    (Exception.illegalInstruction 0).vector = 4 ∧ Exception.divideByZero.vector = 5 ∧ (Exception.trap 15).vector = 47 ∧
    (Exception.trap 15).savedPc 0x1000 = 0x1002 ∧ Exception.divideByZero.savedPc 0x1000 = 0x1000 := by decide
-- R265: the first long of a frame for SP 0x7F83, vector 47, SR 0x2715 and fault status 0; R266: the return from it
theorem test_frame_word : frameWord (frameFormat 0x7F83) 0 47 0x2715 = 0x70BC2715 ∧ vectorAddr 0 47 = 0xBC := by decide
theorem test_return : (match returnFromException (startSup [] [.a 7 0x7F78, .long 0x7F78 0x70BC2715, .long 0x7F7C 0x1002]) with
    | .ok t => some (t.pc, t.sp, t.sys, t.ccr)
    | .error _ => none) = some (0x1002, 0x7F83, ⟨false, true, false, 7⟩, ⟨true, false, true, false, true⟩) := by decide
-- R265: a fault while a fault is taken halts the processor; log 12: a fault while TRAP is taken is itself taken
theorem test_halt : (match step (startSup [0x4AFC] [.a 7 0x5000, .pc 0x1001]) with
    | .fault f => f = .halted (.addressError 0x1001) 0x1001
    | _ => false) = true := by decide

/-! ### Witnesses: for every statement with hypotheses, states and operands that meet them, clause by clause -/

/-- The state of the witnesses: exceptions terminal, data at 0x2000, a stack at 0x7F80, a NOP at the pc. -/
def w : State := start [0x4E71] [.d 0 0x7FFFFFFF, .d 1 1, .d 2 0x80000000, .d 3 0xFFFFFFFF, .d 4 7, .a 0 0x2000, .a 1 0x2010,
  .a 2 0x9000, .a 6 0x7F90, .a 7 0x7F80, .long 0x2000 0xFFFFFFFE]

/-- The same with exceptions taken. -/
def wSup : State := { w with config := supervisorConfig }

/-- The same with misaligned data accesses faulting. -/
def wAligned : State := { w with config := { vectorConfig with misalignedData := .fault } }

theorem test_witness_StepKeepsInvariant : w.Inv ∧ ∃ t, step w = .next t :=
  ⟨by decide, exists_next (by decide)⟩

theorem test_witness_OnlyExceptionsChangeUpperStatusByte :
    (∃ t, step w = .next t) ∧ ∃ t, step (startSup [0x4E4F] [.a 7 0x7F80]) = .next t :=
  ⟨exists_next (by decide), exists_next (by decide)⟩

theorem test_witness_TerminalStepIgnoresSupervisorState : w.config.trapModel = .terminal := by decide

theorem test_witness_StoreThenLoadIsBigEndian : (0x1FFF : Addr) ∉ accessBytes .L 0x2000 ∧ (0x2004 : Addr) ∉ accessBytes .L 0x2000 ∧
    (0x2002 : Addr) ∉ accessBytes .W 0x2000 ∧ (3 : Nat) < 4 := by decide

theorem test_witness_DecodeOfEncodeIsIdentity :
    Instr.wf (.moveB (.imm 0xFF) (.index 7 ⟨true, 7, .x4, 0x80⟩)) = false ∧ Instr.wf (.moveB (.imm 0xFF) (.predec 7)) = true ∧
    Instr.wf (.bcc .LE (.byte 0xFE)) = true := by decide

theorem test_witness_DecodedWordsAreTheEncoding : decode [0xD098, 0x4E71] = .ok (.addEaDn (.postinc 0) 0, [0x4E71]) ∧
    (∀ v ea, Instr.addEaDn (.postinc 0) 0 ≠ .moveB (.imm v) ea ∧ Instr.addEaDn (.postinc 0) 0 ≠ .tstB (.imm v)) :=
  ⟨by decide, fun _ _ => ⟨nofun, nofun⟩⟩

-- R86: the upper byte of the immediate's word is ignored
theorem test_witness_DecodedWordsAreTheEncoding_byte_immediate :
    decode [0x103C, 0xAB12, 0x4E71] = .ok (.moveB (.imm 0x12) (.dn 0), [0x4E71]) ∧
    decode [0x4A3C, 0xFF80] = .ok (.tstB (.imm 0x80), []) ∧ encode (.tstB (.imm 0x80)) = [0x4A3C, 0x0080] := by decide

theorem test_witness_OpwordDeterminesLength : Instr.wf (.divsL (.disp 1 4) 2) = true ∧ Instr.wf (.remuL (.disp 1 8) 3 4) = true ∧
    (encode (.divsL (.disp 1 4) 2)).head? = (encode (.remuL (.disp 1 8) 3 4)).head? := by decide

theorem test_witness_StepRunsDecodedInstruction : w.pc.getLsbD 0 = false ∧
    decode [w.wordAt w.pc, w.wordAt (w.pc + 2), w.wordAt (w.pc + 4)] = .ok (.nop, [0, 0]) ∧
    ∀ k : Nat, k < 2 * (3 - [(0 : Word16), 0].length) → w.mapped (w.pc + BitVec.ofNat 32 k) = true := by decide

theorem test_witness_UndecodedWordsAreRefused : (start [0x4AFC] []).pc.getLsbD 0 = false ∧
    decode [(start [0x4AFC] []).wordAt 0x1000, (start [0x4AFC] []).wordAt 0x1002, (start [0x4AFC] []).wordAt 0x1004] =
      .error .undecodedOpword ∧
    ∀ k : Nat, k < 6 → (start [0x4AFC] []).mapped (0x1000 + BitVec.ofNat 32 k) = true := by decide

theorem test_witness_FetchFaults : (w.setPc 0x1001).pc.getLsbD 0 = true ∧ (w.setPc 0x3000).pc.getLsbD 0 = false ∧
    ¬ ((w.setPc 0x3000).mapped (w.setPc 0x3000).pc = true ∧ (w.setPc 0x3000).mapped ((w.setPc 0x3000).pc + 1) = true) ∧
    (w.setPc 0x1001).config.trapModel = .terminal := by decide

theorem test_witness_ExceptionEntryBuildsFrame : wSup.writable .L (frameAddr wSup.sp) ∧ wSup.writable .L (frameAddr wSup.sp + 4) ∧
    wSup.readable .L (vectorAddr wSup.vbr Exception.divideByZero.vector) ∧ wSup.vbr &&& 0xFFFFF = 0 ∧
    (0x7F80 : Addr) ∉ accessBytes .L (frameAddr wSup.sp) ∧ (0x7F80 : Addr) ∉ accessBytes .L (frameAddr wSup.sp + 4) ∧
    wSup.config.trapModel = .supervisor ∧ wSup = stateAtRaise wSup wSup ∧
    (Exception.trap 15, 47) ∈ [(Exception.accessError .read 0, 2), (.addressError 0, 3), (.illegalInstruction 0, 4),
      (.divideByZero, 5), (.trap 15, 47)] := by decide

theorem test_witness_ReturnUndoesExceptionEntry : ∃ t, enterException .divideByZero 0x1000 wSup = .ok t := ⟨_, rfl⟩

/-- A stack whose frame is unmapped; one whose second long is; a vector table that is; a frame in the program text; one
whose second long is there. -/
def wHalt : List State := [wSup.setA 7 0x5000, wSup.setA 7 0x8014, { wSup with vbr := 0x00100000 }, wSup.setA 7 0x1008,
  { wSup with config := { supervisorConfig with codeRegion := [⟨0x7F7C, 4⟩] } }]

theorem test_witness_FaultDuringFaultHalts :
    (∀ u ∈ wHalt, u.config.trapModel = .supervisor ∧ u = stateAtRaise u u) ∧
    (∀ u ∈ wHalt.take 1, ¬ u.readable .L (frameAddr u.sp) ∧ (u.setPc 0x1001).pc.getLsbD 0 = true) ∧
    (∀ u ∈ (wHalt.drop 1).take 1, u.writable .L (frameAddr u.sp) ∧ ¬ u.readable .L (frameAddr u.sp + 4)) ∧
    (∀ u ∈ (wHalt.drop 2).take 1, u.writable .L (frameAddr u.sp) ∧ u.writable .L (frameAddr u.sp + 4) ∧
      ¬ u.readable .L (vectorAddr u.vbr Exception.divideByZero.vector) ∧
      ¬ u.readable .L (vectorAddr u.vbr (Exception.trap 0).vector)) ∧
    (∀ u ∈ (wHalt.drop 3).take 1, u.readable .L (frameAddr u.sp) ∧ ¬ u.writable .L (frameAddr u.sp)) ∧
    (∀ u ∈ wHalt.drop 4, u.writable .L (frameAddr u.sp) ∧ u.readable .L (frameAddr u.sp + 4) ∧
      ¬ u.writable .L (frameAddr u.sp + 4)) := by decide

theorem test_witness_FaultDuringFaultHalts_is_a_fault : ∀ n, Exception.divideByZero ≠ .trap n := nofun

theorem test_witness_OperandReadFaults :
    readsOperand (.addEaDn (.postinc 2) 0) = some (.L, .postinc 2) ∧
    eaAddr .L (.postinc 2) w = .ok (0x9000, w.setA 2 0x9004) ∧ ¬ w.readable .L 0x9000 ∧
    readsOperand (.moveW (.disp 0 1) (.dn 0)) = some (.W, .disp 0 1) ∧
    eaAddr .W (.disp 0 1) wAligned = .ok (0x2001, wAligned) ∧ ¬ wAligned.readable .W 0x2001 ∧
    w.config.trapModel = .terminal ∧ ¬ w.readable .L (w.areg 2) := by decide

-- a source indexed by the register that the destination steps
theorem test_witness_OperandReadFaults_open_index :
    (Size.L, Instr.moveL) ∈ [(Size.B, Instr.moveB), (.W, .moveW), (.L, .moveL)] ∧
    indexOpen (.index 2 ⟨true, 1, .x1, 0⟩) (.predec 1) = true ∧
    eaAddrIn w .L (.index 2 ⟨true, 1, .x1, 0⟩) w = .ok (0xB010, w) ∧
    eaAddrIn (stepEa .L (.predec 1) w) .L (.index 2 ⟨true, 1, .x1, 0⟩) w = .ok (0xB00C, w) ∧
    ¬ w.readable .L 0xB010 ∧ ¬ w.readable .L 0xB00C := ⟨by simp, by decide⟩

-- D0, D7 and A7 in the list, at the end of the data
theorem test_witness_OperandReadFaults_movem : (Ea.disp 0 0xF8).ok .movem .L = true ∧
    eaAddr .L (.disp 0 0xF8) w = .ok (0x20F8, w) ∧ (0x8081 : BitVec 16).getLsbD 15 = true ∧
    (∀ j : Fin 16, j < 15 → (0x8081 : BitVec 16).getLsbD j = true → w.readable .L (movemSlot 0x8081 0x20F8 j)) ∧
    ¬ w.readable .L (movemSlot 0x8081 0x20F8 15) := by decide

theorem test_witness_StoreFaults :
    (Size.L, Instr.clrL) ∈ [(Size.B, Instr.clrB), (.W, .clrW), (.L, .clrL)] ∧
    eaAddr .L (.ind 2) w = .ok (0x9000, w) ∧ ¬ w.readable .L 0x9000 ∧
    eaAddr .L (.absW 0x100E) w = .ok (0x100E, w) ∧ ¬ w.readable .L 0x100E ∧
    eaAddr .W (.absW 0x100E) w = .ok (0x100E, w) ∧ w.readable .W 0x100E ∧ ¬ w.writable .W 0x100E ∧
    ¬ (w.setA 7 0x9000).readable .L ((w.setA 7 0x9000).sp - 4) ∧
    (w.setA 7 0x1010).readable .L ((w.setA 7 0x1010).sp - 4) ∧
    ¬ (w.setA 7 0x1010).writable .L ((w.setA 7 0x1010).sp - 4) ∧
    (Ea.disp 7 8).ok .control .L = true ∧ w.config.trapModel = .terminal := ⟨by simp, by decide⟩

theorem test_witness_StoreFaults_read_modify_write :
    let ea := Ea.absW 0x100C
    (Instr.addq 0 ea, Size.L) ∈ [(Instr.addDnEa 1 ea, Size.L), (.subDnEa 1 ea, .L), (.andDnEa 1 ea, .L), (.orDnEa 1 ea, .L),
      (.eor 1 ea, .L), (.addq 0 ea, .L), (.subq 0 ea, .L), (.bchgReg 1 ea, .B), (.bchgImm 9 ea, .B), (.bclrReg 1 ea, .B),
      (.bclrImm 9 ea, .B), (.bsetReg 1 ea, .B), (.bsetImm 9 ea, .B)] ∧
    eaAddr .L ea w = .ok (0x100C, w) ∧ w.readable .L 0x100C ∧ ¬ w.writable .L 0x100C ∧
    eaAddr .B ea w = .ok (0x100C, w) ∧ w.readable .B 0x100C ∧ ¬ w.writable .B 0x100C := by decide

-- a destination indexed by the register that the source steps: both addresses unmapped, both in the program text
theorem test_witness_StoreFaults_move :
    readEaIn w .L (.postinc 0) w = .ok (0xFFFFFFFE, stepEa .L (.postinc 0) w) ∧
    readEaIn (stepEa .L (.index 2 ⟨true, 0, .x1, 0⟩) w) .L (.postinc 0) w = .ok (0xFFFFFFFE, stepEa .L (.postinc 0) w) ∧
    indexOpen (.index 2 ⟨true, 0, .x1, 0⟩) (.postinc 0) = true ∧
    eaAddr .L (.index 2 ⟨true, 0, .x1, 0⟩) (stepEa .L (.postinc 0) w) = .ok (0xB004, stepEa .L (.postinc 0) w) ∧
    eaAddrIn w .L (.index 2 ⟨true, 0, .x1, 0⟩) (stepEa .L (.postinc 0) w) = .ok (0xB000, stepEa .L (.postinc 0) w) ∧
    ¬ w.readable .L 0xB004 ∧ ¬ w.readable .L 0xB000 ∧
    eaAddr .L (.absW 0x1008) (stepEa .L (.postinc 0) w) = .ok (0x1008, stepEa .L (.postinc 0) w) ∧
    eaAddrIn w .L (.absW 0x1008) (stepEa .L (.postinc 0) w) = .ok (0x1008, stepEa .L (.postinc 0) w) ∧
    w.readable .L 0x1008 ∧ ¬ w.writable .L 0x1008 := by decide

theorem test_witness_StoreFaults_movem : (Ea.disp 0 0xF8).ok .movem .L = true ∧
    eaAddr .L (.disp 0 0xF8) w = .ok (0x20F8, w) ∧ (0x8081 : BitVec 16).getLsbD 15 = true ∧
    (∀ j : Fin 16, j < 15 → (0x8081 : BitVec 16).getLsbD j = true → w.writable .L (movemSlot 0x8081 0x20F8 j)) ∧
    ¬ w.readable .L (movemSlot 0x8081 0x20F8 15) ∧
    (0x0001 : BitVec 16).getLsbD 0 = true ∧ w.readable .L (movemSlot 0x0001 0x1000 0) ∧
    ¬ w.writable .L (movemSlot 0x0001 0x1000 0) := by decide

theorem test_witness_AddAndSubtractIntoDataRegister :
    readEa .L (.postinc 0) w = .ok (0xFFFFFFFE, stepEa .L (.postinc 0) w) ∧ readEa .L (.an 7) w = .ok (0x7F80, w) ∧
    readEa .L (.imm 0x80000000) w = .ok (0x80000000, w) := by decide

theorem test_witness_AddAndSubtractIntoMemory : eaAddr .L (.predec 1) w = .ok (0x200C, stepEa .L (.predec 1) w) ∧
    w.writable .L 0x200C ∧ eaAddr .L (.disp 1 0xEC) w = .ok (0x20FC, w) ∧ w.writable .L 0x20FC := by decide

theorem test_witness_QuickAddAndSubtract :
    (8 : Word) = (if (0 : BitVec 3) = 0 then 8 else (0 : BitVec 3).setWidth 32) ∧
    (7 : Word) = (if (7 : BitVec 3) = 0 then 8 else (7 : BitVec 3).setWidth 32) ∧
    eaAddr .L (.ind 0) w = .ok (0x2000, w) ∧ w.writable .L 0x2000 := by decide

theorem test_witness_AddressAddAndSubtract : readEa .L (.postinc 0) w = .ok (0xFFFFFFFE, stepEa .L (.postinc 0) w) ∧
    steps (.postinc 0) 1 = false ∧ steps (.postinc 0) 0 = true := by decide

theorem test_witness_ComparesOrderTheirOperands : readEa .L (.predec 1) w = .ok (0, stepEa .L (.predec 1) w) ∧
    steps (.predec 1) 0 = false ∧ steps (.predec 1) 1 = true := by decide

theorem test_witness_AndOrIntoDataRegister : readEa .L (.ind 0) w = .ok (0xFFFFFFFE, w) ∧ readEa .L (.imm 0xFFFF) w = .ok (0xFFFF, w) := by
  decide

theorem test_witness_LogicOnRegisters (v : Word) (r y : Reg) :
    (Instr.andi v r, v, 3, and) ∈ [(Instr.andi v r, v, 3, and), (.ori v r, v, 3, or), (.eori v r, v, 3, Bool.xor),
      (.eor y (.dn r), w.dreg y, 1, Bool.xor), (.notDn r, (0 : Word), 1, fun d _ => !d)] ∧ (31 : Nat) < 32 := by simp

theorem test_witness_LogicIntoMemory (r : Reg) :
    (Instr.eor r (.ind 0), Bool.xor) ∈ [(Instr.andDnEa r (.ind 0), and), (.orDnEa r (.ind 0), or), (.eor r (.ind 0), Bool.xor)] ∧
    eaAddr .L (.ind 0) w = .ok (0x2000, w) ∧ w.writable .L 0x2000 := ⟨by simp, by decide⟩

theorem test_witness_LeftShifts (x : Reg) :
    (Instr.aslImm 0 x, 8) ∈ [(Instr.aslImm 0 x, if (0 : BitVec 3) = 0 then 8 else (0 : BitVec 3).toNat),
      (.lslImm 0 x, if (0 : BitVec 3) = 0 then 8 else (0 : BitVec 3).toNat), (.aslReg 3 x, (w.dreg 3).toNat % 64),
      (.lslReg 3 x, (w.dreg 3).toNat % 64)] ∧ (w.dreg 3).toNat % 64 = 63 ∧ (w.dreg 2).toNat % 64 = 0 := ⟨by simp, by decide⟩

theorem test_witness_RightShifts (x : Reg) :
    (Instr.asrReg 3 x, 63) ∈ [(Instr.asrImm 1 x, if (1 : BitVec 3) = 0 then 8 else (1 : BitVec 3).toNat),
      (.asrReg 3 x, (w.dreg 3).toNat % 64)] ∧
    (Instr.lsrImm 1 x, 1) ∈ [(Instr.lsrImm 1 x, if (1 : BitVec 3) = 0 then 8 else (1 : BitVec 3).toNat),
      (.lsrReg 3 x, (w.dreg 3).toNat % 64)] := by
  have h : (w.dreg 3).toNat % 64 = 63 := by decide
  simp [h]

theorem test_witness_BranchesTransferToTheirTarget : (-2 : Int) = (match BranchDisp.byte 0xFE with
      | .byte b => b.toInt
      | .word d => d.toInt) ∧ (0x7FFF : Int) = (match BranchDisp.word 0x7FFF with
      | .byte b => b.toInt
      | .word d => d.toInt) := by decide

theorem test_witness_BsrPushesReturnAddress : (-32768 : Int) = (match BranchDisp.word 0x8000 with
      | .byte b => b.toInt
      | .word d => d.toInt) ∧ w.writable .L (w.sp - 4) := by decide

theorem test_witness_JumpAndLoadAddress : (Ea.pcIndex ⟨false, 3, .x4, 0x80⟩).ok .control .L = true ∧ (Ea.ind 0).ok .control .L = true ∧
    (0x2000 : Addr) = w.areg 0 ∧ w.pc + 2 + BitVec.ofInt 32 (0x80 : BitVec 8).toInt + BitVec.ofNat 32 ((w.dreg 3).toNat * 4) = 0xF7E := by
  decide

theorem test_witness_JsrAndPeaPush : (Ea.disp 7 8).ok .control .L = true ∧ w.writable .L (w.sp - 4) ∧
    eaAddr .L (.disp 7 8) w = .ok (0x7F88, w) ∧
    eaAddr .L (.disp 7 8) (w.setA 7 (w.sp - 4)) = .ok (0x7F84, w.setA 7 (w.sp - 4)) ∧ basedOnSp (.disp 7 8) = true ∧
    (Ea.absW 0x3000).ok .control .L = true ∧ basedOnSp (.absW 0x3000) = false := by decide

theorem test_witness_RtsPopsThePc : w.readable .L w.sp ∧ ¬ (w.setA 7 0x9000).readable .L (w.setA 7 0x9000).sp ∧
    ¬ (wAligned.setA 7 0x7F82).readable .L (wAligned.setA 7 0x7F82).sp := by decide

theorem test_witness_BitsOfDataRegisters (r : Reg) :
    (Instr.btstImm 0xFF (.dn r), 255, 2, id) ∈ [(Instr.bchgReg 3 (.dn r), (w.dreg 3).toNat, 1, not), (.bchgImm 0xFF (.dn r), 255, 2, not),
      (.bclrReg 3 (.dn r), (w.dreg 3).toNat, 1, fun _ => false), (.bclrImm 0xFF (.dn r), 255, 2, fun _ => false),
      (.bsetReg 3 (.dn r), (w.dreg 3).toNat, 1, fun _ => true), (.bsetImm 0xFF (.dn r), 255, 2, fun _ => true),
      (.btstReg 3 (.dn r), (w.dreg 3).toNat, 1, id), (.btstImm 0xFF (.dn r), 255, 2, id)] ∧ (31 : Nat) < 32 := by simp

theorem test_witness_BitsOfMemoryBytes : eaAddr .B (.predec 7) w = .ok (0x7F7F, stepEa .B (.predec 7) w) ∧ w.writable .B 0x7F7F ∧
    eaAddr .B (.absW 0x1000) w = .ok (0x1000, w) ∧ w.readable .B 0x1000 ∧ (7 : Nat) < 8 ∧
    (Instr.btstImm 8 (.absW 0x1000), 8, 2) ∈ [(Instr.btstReg 0 (.absW 0x1000), (w.dreg 0).toNat, 1), (.btstImm 8 (.absW 0x1000), 8, 2)] := by
  decide

theorem test_witness_ClearWritesZero : (Size.W, Instr.clrW) ∈ [(Size.B, Instr.clrB), (.W, .clrW), (.L, .clrL)] ∧
    eaAddr .W (.absW 0x20FE) w = .ok (0x20FE, w) ∧ w.writable .W 0x20FE := ⟨by simp, by decide⟩

theorem test_witness_LinkAndUnlink : (6 : Reg) ≠ 7 ∧ w.writable .L (w.sp - 4) ∧ w.readable .L (w.areg 6) ∧ w.readable .L w.sp := by
  decide

theorem test_witness_MoveIntoDataRegister : (Size.B, Instr.moveB) ∈ [(Size.B, Instr.moveB), (.W, .moveW), (.L, .moveL)] ∧
    readEa .B (.postinc 0) w = .ok (0xFF, stepEa .B (.postinc 0) w) ∧ readEa .W (.dn 0) w = .ok (0xFFFF, w) := ⟨by simp, by decide⟩

theorem test_witness_MoveIntoMemory : (Size.L, Instr.moveL) ∈ [(Size.B, Instr.moveB), (.W, .moveW), (.L, .moveL)] ∧
    storesSteppedSource .L (.postinc 0) (.postinc 0) = false ∧ indexOpen (.postinc 0) (.postinc 0) = false ∧
    readEa .L (.postinc 0) w = .ok (0xFFFFFFFE, stepEa .L (.postinc 0) w) ∧
    eaAddr .L (.postinc 0) (stepEa .L (.postinc 0) w) = .ok (0x2004, w.setA 0 0x2008) ∧ w.writable .L 0x2004 := ⟨by simp, by decide⟩

theorem test_witness_OpenMovesComplete :
    steps (.predec 1) 1 = true ∧ eaAddr .L (.predec 1) w = .ok (0x200C, stepEa .L (.predec 1) w) ∧ w.writable .L 0x200C := by
  decide

-- a destination indexed by the register that the source steps
theorem test_witness_OpenMovesComplete_index_of_destination :
    (Size.L, Instr.moveL) ∈ [(Size.B, Instr.moveB), (.W, .moveW), (.L, .moveL)] ∧
    readEa .L (.postinc 0) w = .ok (0xFFFFFFFE, stepEa .L (.postinc 0) w) ∧
    indexOpen (.index 5 ⟨true, 0, .x1, 4⟩) (.postinc 0) = true ∧
    eaAddrIn w .L (.index 5 ⟨true, 0, .x1, 4⟩) (stepEa .L (.postinc 0) w) = .ok (0x2004, stepEa .L (.postinc 0) w) ∧
    eaAddrIn (stepEa .L (.postinc 0) w) .L (.index 5 ⟨true, 0, .x1, 4⟩) (stepEa .L (.postinc 0) w) =
      .ok (0x2008, stepEa .L (.postinc 0) w) ∧
    w.writable .L 0x2004 ∧ w.writable .L 0x2008 := ⟨by simp, by decide⟩

-- a source indexed by the register that the destination steps
theorem test_witness_OpenMovesComplete_index_of_source :
    (Size.L, Instr.moveL) ∈ [(Size.B, Instr.moveB), (.W, .moveW), (.L, .moveL)] ∧
    indexOpen (.index 5 ⟨true, 1, .x1, 0xF4⟩) (.predec 1) = true ∧
    readEaIn w .L (.index 5 ⟨true, 1, .x1, 0xF4⟩) w = .ok (0, w) ∧
    readEaIn (stepEa .L (.predec 1) w) .L (.index 5 ⟨true, 1, .x1, 0xF4⟩) w = .ok (0xFFFFFFFE, w) ∧
    eaAddr .L (.predec 1) w = .ok (0x200C, stepEa .L (.predec 1) w) ∧ w.writable .L 0x200C := ⟨by simp, by decide⟩

theorem test_witness_MoveaWritesWholeRegister : readEa .W (.postinc 0) w = .ok (0xFFFF, stepEa .W (.postinc 0) w) ∧
    readEa .L (.postinc 0) w = .ok (0xFFFFFFFE, stepEa .L (.postinc 0) w) := by decide

theorem test_witness_CcrMoves : (Ea.imm 0xFFFF).ok .ccrSource .W = true ∧ readEa .W (.imm 0xFFFF) w = .ok (0xFFFF, w) ∧
    (Ea.dn 0).ok .ccrSource .W = true ∧ readEa .W (.dn 0) w = .ok (0xFFFF, w) := by decide

theorem test_witness_MovemStoresInOrder : (Ea.disp 0 4).ok .movem .L = true ∧ eaAddr .L (.disp 0 4) w = .ok (0x2004, w) ∧
    ∀ i : Fin 16, (0xFFFF : BitVec 16).getLsbD i = true → w.writable .L (movemSlot 0xFFFF 0x2004 i) := by decide

theorem test_witness_MovemLoadsInOrder : (Ea.ind 0).ok .movem .L = true ∧ eaAddr .L (.ind 0) w = .ok (0x2000, w) ∧
    (∀ i : Fin 16, (0x8101 : BitVec 16).getLsbD i = true → w.readable .L (movemSlot 0x8101 0x2000 i)) ∧
    (0x8101 : BitVec 16).getLsbD 0 = true ∧ (0x8101 : BitVec 16).getLsbD 15 = true ∧ baseReg (.ind 0) ≠ some 7 := by decide

theorem test_witness_MoveqLoadsSignExtendedByte : opNibble 0x7100 = 7 ∧ (0x7100 : Word16).getLsbD 8 = true := by decide

theorem test_witness_ConditionsFollowTheTable (f : Ccr) : ((15 : BitVec 4), f.z || f.n != f.v) ∈ [((0 : BitVec 4), true), (1, false),
    (2, !f.c && !f.z), (3, f.c || f.z), (4, !f.c), (5, f.c), (6, !f.z), (7, f.z), (8, !f.v), (9, f.v), (10, !f.n), (11, f.n),
    (12, f.n == f.v), (13, f.n != f.v), (14, !f.z && f.n == f.v), (15, f.z || f.n != f.v)] := by simp

theorem test_witness_TestSetsFlagsOnly : (Size.B, Instr.tstB) ∈ [(Size.B, Instr.tstB), (.W, .tstW), (.L, .tstL)] ∧
    readEa .B (.postinc 0) w = .ok (0xFF, stepEa .B (.postinc 0) w) ∧ readEa .L (.an 0) w = .ok (0x2000, w) := ⟨by simp, by decide⟩

-- the steps of (An)+ and -(An) at each size, and of a byte through A7 for both values of the parameter
theorem test_witness_TestSetsFlagsOnly_steps :
    eaAddr .L (.ind 0) w = .ok (0x2000, w) ∧ w.readable .L 0x2000 ∧ EaClass.control.allows (Ea.ind 0).kind = true ∧
    stepEa .B (.postinc 7) w = w.setA 7 0x7F81 ∧ stepEa .B (.predec 0) w = w.setA 0 0x1FFF ∧
    stepEa .W (.postinc 7) w = w.setA 7 0x7F82 ∧ stepEa .L (.predec 7) w = w.setA 7 0x7F7C ∧
    (stepEa .B (.predec 7) { w with config := { vectorConfig with a7ByteStep := .two } }).areg 7 = 0x7F7E ∧
    (stepEa .B (.predec 6) { w with config := { vectorConfig with a7ByteStep := .two } }).areg 6 = 0x7F8F := by decide

theorem test_witness_MultipliesGiveTheProduct : readEa .W (.ind 0) w = .ok (0xFFFF, w) ∧ readEa .L (.ind 0) w = .ok (0xFFFFFFFE, w) ∧
    Instr.muluL (.ind 0) 1 ∈ [Instr.mulsL (.ind 0) 1, .muluL (.ind 0) 1] := by decide

-- the quotients at both ends of each range: -32768, 32767, 65535
theorem test_witness_WordDividesGiveQuotientAndRemainder :
    readEa .W (.imm 0xFFFF) w = .ok (0xFFFF, w) ∧ (0xFFFF : Word) ≠ 0 ∧
    -2 ^ 15 ≤ ((w.setD 0 0x8000).dreg 0).toInt.tdiv (((0xFFFF : Word).setWidth 16).toInt) ∧
    ((w.setD 0 0x8000).dreg 0).toInt.tdiv (((0xFFFF : Word).setWidth 16).toInt) < 2 ^ 15 ∧
    -2 ^ 15 ≤ ((w.setD 0 0x7FFF).dreg 0).toInt.tdiv (((1 : Word).setWidth 16).toInt) ∧
    ((w.setD 0 0x7FFF).dreg 0).toInt.tdiv (((1 : Word).setWidth 16).toInt) < 2 ^ 15 ∧
    ((w.setD 0 0xFFFF).dreg 0).toNat / ((1 : Word).setWidth 16).toNat < 2 ^ 16 := by decide

theorem test_witness_LongDividesGiveTheQuotient : readEa .L (.ind 0) w = .ok (0xFFFFFFFE, w) ∧ (0xFFFFFFFE : Word) ≠ 0 ∧
    ¬ (w.dreg 2 = 0x80000000 ∧ (0xFFFFFFFE : Word) = 0xFFFFFFFF) ∧ ¬ (w.dreg 3 = 0x80000000 ∧ (0xFFFFFFFF : Word) = 0xFFFFFFFF) := by
  decide

theorem test_witness_RemaindersGiveTheRemainder : (5 : Reg) ≠ 2 ∧ readEa .L (.ind 0) w = .ok (0xFFFFFFFE, w) ∧
    (0xFFFFFFFE : Word) ≠ 0 ∧ ¬ (w.dreg 2 = 0x80000000 ∧ (0xFFFFFFFE : Word) = 0xFFFFFFFF) := by decide

-- the first quotients past each range: -32769, 32768, 65536, 2^31
theorem test_witness_DivideOverflowWritesNoRegister :
    readEa .W (.imm 0xFFFF) w = .ok (0xFFFF, w) ∧ readEa .W (.imm 1) w = .ok (1, w) ∧ (1 : Word) ≠ 0 ∧
    ((w.setD 0 0x8001).dreg 0).toInt.tdiv (((0xFFFF : Word).setWidth 16).toInt) < -2 ^ 15 ∧
    2 ^ 15 ≤ ((w.setD 0 0x8000).dreg 0).toInt.tdiv (((1 : Word).setWidth 16).toInt) ∧
    2 ^ 16 ≤ ((w.setD 0 0x10000).dreg 0).toNat / ((1 : Word).setWidth 16).toNat ∧
    readEa .L (.dn 3) w = .ok (0xFFFFFFFF, w) ∧ w.dreg 2 = 0x80000000 ∧ w.config.divOverflowNZ = .cleared := by decide

theorem test_witness_DivideByZeroIsRaised : readEa .W (.dn 5) w = .ok (0, w) ∧ readEa .L (.ind 1) w = .ok (0, w) ∧
    (Instr.remuL (.ind 1) 0 2, Size.L) ∈ [(Instr.divsW (.ind 1) 2, Size.W), (.divuW (.ind 1) 2, .W), (.divsL (.ind 1) 2, .L),
      (.divuL (.ind 1) 2, .L), (.remsL (.ind 1) 0 2, .L), (.remuL (.ind 1) 0 2, .L)] ∧ w.config.trapModel = .terminal := by decide

theorem test_witness_TrapEntersItsHandler : w.config.trapModel = .terminal ∧ wSup.config.trapModel = .supervisor ∧
    wSup.writable .L (frameAddr wSup.sp) ∧ wSup.writable .L (frameAddr wSup.sp + 4) ∧
    wSup.readable .L (vectorAddr wSup.vbr (Exception.trap 15).vector) ∧ wSup.readable .L (vectorAddr wSup.vbr (Exception.trap 0).vector) := by
  decide

end Sys2Proof.Tests
end

/-! # What one step changes: the statements of the family of the state

First the rules that every proof below cites: the flag functions against what R26 to R28 mean by them, one frame rule for
each operation on the state, and for each shape of instruction its run with the frame of its result. -/

section
namespace Sys2Proof.Machine

/-! ### Flags and their meaning (R26 to R28, R135) -/

theorem word_msb_eq (v : Word) : v.msb = decide (2 ^ 31 ≤ v.toNat) := BitVec.msb_eq_decide v

theorem word_toInt_eq (v : Word) : v.toInt = if 2 ^ 31 ≤ v.toNat then (v.toNat : Int) - (2 ^ 32 : Int) else v.toNat := by
  have := v.isLt
  rw [BitVec.toInt_eq_toNat_cond]
  split <;> split <;> omega

/-- The carry and the overflow of R27 are those of the sum, with or without an extend bit taken in. -/
theorem addFlags_sumFlags (s d : Word) (k z : Bool) :
    SumFlags s d k (addFlags s d (d + s + BitVec.ofNat 32 k.toNat) z) := by
  have hs := s.isLt
  have hd := d.isLt
  have hk := k.toNat_le
  have hr : (d + s + BitVec.ofNat 32 k.toNat).toNat = (d.toNat + s.toNat + k.toNat) % 2 ^ 32 := by
    simp only [BitVec.toNat_add, BitVec.toNat_ofNat]; omega
  refine ⟨rfl, ?_, ?_⟩ <;> rw [Bool.eq_iff_iff]
  · simp only [addFlags, addC, word_msb_eq, hr, Bool.or_eq_true, Bool.and_eq_true, Bool.not_eq_true',
      decide_eq_true_iff, decide_eq_false_iff_not]
    omega
  · simp only [addFlags, addV, word_msb_eq, word_toInt_eq, hr, Bool.or_eq_true, Bool.and_eq_true,
      Bool.not_eq_true', decide_eq_true_iff, decide_eq_false_iff_not]
    split <;> split <;> omega

/-- The borrow and the overflow of R28 are those of the difference, with or without an extend bit taken in. -/
theorem subFlags_differenceFlags (s d : Word) (k z : Bool) :
    DifferenceFlags s d k (subFlags s d (d - s - BitVec.ofNat 32 k.toNat) z) := by
  have hs := s.isLt
  have hd := d.isLt
  have hk := k.toNat_le
  have hr : (d - s - BitVec.ofNat 32 k.toNat).toNat = (2 ^ 33 + d.toNat - s.toNat - k.toNat) % 2 ^ 32 := by
    simp only [BitVec.toNat_sub, BitVec.toNat_ofNat]; omega
  refine ⟨rfl, ?_, ?_⟩ <;> rw [Bool.eq_iff_iff]
  · simp only [subFlags, subC, word_msb_eq, hr, Bool.or_eq_true, Bool.and_eq_true, Bool.not_eq_true',
      decide_eq_true_iff, decide_eq_false_iff_not]
    omega
  · simp only [subFlags, subV, word_msb_eq, word_toInt_eq, hr, Bool.or_eq_true, Bool.and_eq_true,
      Bool.not_eq_true', decide_eq_true_iff, decide_eq_false_iff_not]
    split <;> split <;> omega

theorem addAlu_sumFlags (s d : Word) (c : Ccr) : SumFlags s d false (addAlu s d c).2 := by
  simpa [addAlu] using addFlags_sumFlags s d false (d + s = 0)

theorem subAlu_differenceFlags (s d : Word) (c : Ccr) : DifferenceFlags s d false (subAlu s d c).2 := by
  simpa [subAlu] using subFlags_differenceFlags s d false (d - s = 0)

/-- The low part of a value is its remainder modulo two to the size's bits (R13). -/
theorem trunc_toNat (z : Size) (v : Word) : (z.trunc v).toNat = v.toNat % 2 ^ (8 * z.bytes) := by
  have := v.isLt
  cases z <;> simp only [Size.trunc, Size.bytes, BitVec.toNat_setWidth] <;> omega

theorem trunc_trunc (z : Size) (v : Word) : z.trunc (z.trunc v) = z.trunc v := by
  cases z <;> simp [Size.trunc]

/-- `LogicFlags` are the flags R26 gives a result, at any size. -/
theorem logicFlags_resultFlags (z : Size) (v : Word) (c : Ccr) : ResultFlags z v c (logicFlags z v c) where
  x := rfl
  n := by cases z <;> rfl
  z := by simp only [logicFlags, ← trunc_toNat, BitVec.toNat_eq]; rfl
  v := rfl
  c := rfl

/-- The compare flags order the two operands, unsigned and signed (R135). -/
theorem compareFlags_compares (v d : Word) (c : Ccr) : Compares v d c (compareFlags v d c) := by
  have hdiff : DifferenceFlags v d false (compareFlags v d c) := by
    obtain ⟨hn, hc, hv⟩ := subAlu_differenceFlags v d c
    exact ⟨hn, hc, hv⟩
  have hz : (compareFlags v d c).z = decide (d = v) := decide_eq_decide.2 sub_eq_zero
  have hc : (compareFlags v d c).c = decide (d.toNat < v.toNat) := by simpa using hdiff.c
  have hn : (compareFlags v d c).n = decide (2 ^ 31 ≤ (d - v).toNat) := by
    rw [← word_msb_eq]; simpa using hdiff.n
  have hv : (compareFlags v d c).v = decide (d.toInt - v.toInt < -2 ^ 31 ∨ 2 ^ 31 ≤ d.toInt - v.toInt) := by
    simpa using hdiff.v
  have heq : d = v ↔ d.toNat = v.toNat := BitVec.toNat_inj.symm
  have hsub : (d - v).toNat = (2 ^ 32 - v.toNat + d.toNat) % 2 ^ 32 := BitVec.toNat_sub d v
  have := d.isLt
  have := v.isLt
  refine ⟨hdiff, rfl, hz, hc, ?_, ?_, ?_⟩ <;> rw [Bool.eq_iff_iff]
  · simp only [Ccr.test, hz, hc, heq, Bool.and_eq_true, Bool.not_eq_true', decide_eq_true_iff,
      decide_eq_false_iff_not]
    omega
  all_goals
    simp only [Ccr.test, hz, hn, hv, hsub, heq, word_toInt_eq, Bool.or_eq_true, Bool.and_eq_true,
      Bool.not_eq_true', decide_eq_true_iff, decide_eq_false_iff_not]
    split <;> split <;> omega

/-- What an addition without an extend bit reports. -/
theorem addAlu_reports {s d : Word} {c f : Ccr} (h : f = (addAlu s d c).2) :
    SumFlags s d false f ∧ f.x = f.c ∧ f.z = decide (d + s = 0) := by
  subst h; exact ⟨addAlu_sumFlags s d c, rfl, rfl⟩

/-- What a subtraction without an extend bit reports. -/
theorem subAlu_reports {s d : Word} {c f : Ccr} (h : f = (subAlu s d c).2) :
    DifferenceFlags s d false f ∧ f.x = f.c ∧ f.z = decide (d - s = 0) := by
  subst h; exact ⟨subAlu_differenceFlags s d c, rfl, rfl⟩

/-! ### The frame, one rule for each operation -/

theorem Keeps.refl (s : State) (ds as : List Reg) (bs : List Addr) : Keeps s s ds as bs :=
  ⟨fun _ _ => rfl, fun _ _ => rfl, fun _ _ => rfl, rfl, rfl, rfl⟩

section
variable {s t : State} {ds as : List Reg} {bs : List Addr}

theorem Keeps.setPc (h : Keeps s t ds as bs) (v : Addr) : Keeps s (t.setPc v) ds as bs :=
  ⟨h.dreg, h.areg, h.byteAt, h.sys, h.vbr, h.config⟩

theorem Keeps.setCcr (h : Keeps s t ds as bs) (c : Ccr) : Keeps s (t.setCcr c) ds as bs :=
  ⟨h.dreg, h.areg, h.byteAt, h.sys, h.vbr, h.config⟩

theorem Keeps.spend (h : Keeps s t ds as bs) (k : Nat) : Keeps s (t.spend k) ds as bs :=
  ⟨h.dreg, h.areg, h.byteAt, h.sys, h.vbr, h.config⟩

theorem Keeps.setD (h : Keeps s t ds as bs) {r : Reg} (hr : r ∈ ds) (v : Word) : Keeps s (t.setD r v) ds as bs where
  dreg q hq := by rw [State.setD_dreg, if_neg (ne_of_mem_of_not_mem hr hq).symm]; exact h.dreg q hq
  areg := h.areg
  byteAt := h.byteAt
  sys := h.sys
  vbr := h.vbr
  config := h.config

theorem Keeps.setA (h : Keeps s t ds as bs) {r : Reg} (hr : r ∈ as) (v : Word) : Keeps s (t.setA r v) ds as bs where
  dreg := h.dreg
  areg q hq := by rw [State.setA_areg, if_neg (ne_of_mem_of_not_mem hr hq).symm]; exact h.areg q hq
  byteAt := h.byteAt
  sys := h.sys
  vbr := h.vbr
  config := h.config

theorem Keeps.writeMem (h : Keeps s t ds as bs) {z : Size} {a : Addr} (hb : accessBytes z a ⊆ bs) (v : Word) :
    Keeps s (t.writeMem z a v) ds as bs where
  dreg q hq := by rw [State.writeMem_dreg]; exact h.dreg q hq
  areg q hq := by rw [State.writeMem_areg]; exact h.areg q hq
  byteAt b hbs := by rw [State.writeMem_byteAt_of_notMem _ _ _ _ _ fun hm => hbs (hb hm)]; exact h.byteAt b hbs
  sys := by rw [State.writeMem_sys]; exact h.sys
  vbr := by rw [State.writeMem_vbr]; exact h.vbr
  config := by rw [State.writeMem_config]; exact h.config

theorem Keeps.stepEa (h : Keeps s t ds as bs) {ea : Ea} (he : stepped ea ⊆ as) (z : Size) :
    Keeps s (stepEa z ea t) ds as bs where
  dreg q hq := by rw [stepEa_dreg]; exact h.dreg q hq
  areg q hq := by
    have hne : steppedReg ea ≠ some q := fun e => hq (he (by simp [stepped, e]))
    rw [stepEa_areg_of_not_steps t hne]; exact h.areg q hq
  byteAt b hb := by rw [stepEa_byteAt]; exact h.byteAt b hb
  sys := by rw [stepEa_sys]; exact h.sys
  vbr := by rw [stepEa_vbr]; exact h.vbr
  config := by rw [stepEa_config]; exact h.config

end

theorem stepEa_keeps (z : Size) (ea : Ea) (s : State) : Keeps s (stepEa z ea s) [] (stepped ea) [] :=
  (Keeps.refl s ..).stepEa (List.Subset.refl _) z

/-! ### The shapes of a result -/

theorem writesDn_setD (s : State) (r : Reg) (v : Word) (c : Ccr) (n : Nat) :
    WritesDn r v n s (((s.setD r v).setCcr c).setPc (s.nextPc n)) where
  value := State.setD_dreg_self s r v
  pc := rfl
  keeps := (((Keeps.refl s ..).setD (List.mem_singleton_self r) v).setCcr c).setPc _

theorem writesDnFrom_setD (z : Size) (ea : Ea) (s : State) (r : Reg) (v : Word) (c : Ccr) (n : Nat) :
    WritesDnFrom z ea r v n s ((((stepEa z ea s).setD r v).setCcr c).setPc (s.nextPc n)) where
  value := State.setD_dreg_self (stepEa z ea s) r v
  step := rfl
  pc := rfl
  keeps := ((((Keeps.refl s ..).stepEa (List.Subset.refl _) z).setD (List.mem_singleton_self r) v).setCcr c).setPc _

theorem writesAnFrom_setA (z : Size) (ea : Ea) (s : State) (r : Reg) (v : Word) (n : Nat) :
    WritesAnFrom z ea r v n s (((stepEa z ea s).setA r v).setPc (s.nextPc n)) where
  value := State.setA_areg_self (stepEa z ea s) r v
  step q hq := by rw [State.setPc_areg, State.setA_areg, if_neg hq]
  ccr := stepEa_ccr z ea s
  pc := rfl
  keeps := (((Keeps.refl s ..).stepEa (List.subset_cons_self ..) z).setA List.mem_cons_self v).setPc _

/-- A store after the operand's step, from any state that holds the stepped registers and is otherwise as before. -/
theorem writesMem_writeMem {z : Size} {ea : Ea} {s u : State} (hu : u.a = (stepEa z ea s).a)
    (hk : Keeps s u [] (stepped ea) []) (a : Addr) (v : Word) (c : Ccr) (n : Nat) :
    WritesMem z ea a (z.trunc v) n s (((u.writeMem z a v).setCcr c).setPc (s.nextPc n)) where
  value := State.writeMem_readMem_self u z a v
  step := (State.writeMem_a u z a v).trans hu
  pc := rfl
  keeps :=
    have hk' : Keeps s u [] (stepped ea) (accessBytes z a) := { hk with byteAt := fun b _ => hk.byteAt b List.not_mem_nil }
    ((hk'.writeMem (List.Subset.refl _) v).setCcr c).setPc _

/-- Nothing but flags and the operand's step, from any state that holds the stepped registers and is otherwise as
before. -/
theorem writesNone_setCcr {z : Size} {ea : Ea} {s u : State} (hu : u.a = (stepEa z ea s).a)
    (hk : Keeps s u [] (stepped ea) []) (c : Ccr) (n : Nat) :
    WritesNone z ea n s ((u.setCcr c).setPc (s.nextPc n)) :=
  ⟨hu, rfl, (hk.setCcr c).setPc _⟩

theorem WritesDn.self {r : Reg} {v : Word} {n : Nat} {s t : State} (h : WritesDn r v n s t) :
    WritesDn r (t.dreg r) n s t := { h with value := rfl }

theorem WritesDnFrom.self {z : Size} {ea : Ea} {r : Reg} {v : Word} {n : Nat} {s t : State}
    (h : WritesDnFrom z ea r v n s t) : WritesDnFrom z ea r (t.dreg r) n s t := { h with value := rfl }

theorem WritesMem.self {z : Size} {ea : Ea} {a : Addr} {v : Word} {n : Nat} {s t : State} (h : WritesMem z ea a v n s t) :
    WritesMem z ea a (t.readMem z a) n s t := { h with value := rfl }

/-- A push that is performed, with free values drawn before it or not. -/
theorem pushLong_pushes {s : State} (k : Nat) (v : Word) (hw : s.writable .L (s.sp - 4)) :
    ∃ t, pushLong v (s.spend k) = .ok t ∧ Pushes v s t ∧ t.pc = s.pc := by
  refine ⟨_, pushLong_of_writable v hw, ⟨by simp, State.writeMem_readMem_self _ .L _ v, by simp, ?_⟩, by simp⟩
  exact (((Keeps.refl s ..).spend k).setA (List.mem_singleton_self 7) _).writeMem (List.Subset.refl _) v

theorem Pushes.setPc {v : Word} {s t : State} (h : Pushes v s t) (p : Addr) : Pushes v s (t.setPc p) :=
  ⟨h.sp, h.value, h.ccr, h.keeps.setPc p⟩

/-! ### The runs of the shared shapes -/

section
variable {s s1 : State} {ea : Ea} {v : Word}

/-- A data register and the flags are written, and the instruction is over. -/
theorem setD_runs (s : State) (r : Reg) (v : Word) (c : Ccr) (n : Nat) :
    ∃ t, finish s n (.ok ((s.setD r v).setCcr c)) = .next t ∧ WritesDn r v n s t ∧ t.ccr = c :=
  ⟨_, rfl, writesDn_setD s r v c n, rfl⟩

theorem aluReg_runs (f : Alu) (v : Word) (r : Reg) (s : State) (n : Nat) :
    ∃ t, finish s n (.ok (aluReg f v r s)) = .next t ∧ WritesDn r (f v (s.dreg r) s.ccr).1 n s t ∧
      t.ccr = (f v (s.dreg r) s.ccr).2 := setD_runs s r _ _ n

theorem aluToDn_runs (f : Alu) (r : Reg) (n : Nat) (h : readEa .L ea s = .ok (v, s1)) :
    ∃ t, finish s n (aluToDn f ea r s) = .next t ∧ WritesDnFrom .L ea r (f v (s.dreg r) s.ccr).1 n s t ∧
      t.ccr = (f v (s.dreg r) s.ccr).2 := by
  obtain rfl := readEa_ok h
  rw [aluToDn_of_read h]
  exact ⟨_, rfl, writesDnFrom_setD .L ea s r _ _ n, rfl⟩

theorem aluToEa_runs (f : Alu) (v : Word) {a : Addr} (n : Nat) (h : eaAddr .L ea s = .ok (a, s1)) (hw : s.writable .L a) :
    ∃ t, finish s n (aluToEa f v ea s) = .next t ∧ WritesMem .L ea a (f v (s.readMem .L a) s.ccr).1 n s t ∧
      t.ccr = (f v (s.readMem .L a) s.ccr).2 := by
  obtain rfl := eaAddr_ok h
  rw [aluToEa_of_access h hw]
  exact ⟨_, rfl, writesMem_writeMem rfl (stepEa_keeps .L ea s) a _ _ n, rfl⟩

/-- Flags alone from a source that can be read, with free values drawn or not. -/
theorem setCcr_runs {z : Size} (k : Nat) (c : Ccr) (n : Nat) (h : readEa z ea s = .ok (v, s1)) :
    ∃ t, finish s n (.ok ((s1.spend k).setCcr c)) = .next t ∧ WritesNone z ea n s t ∧ t.ccr = c := by
  obtain rfl := readEa_ok h
  exact ⟨_, rfl, writesNone_setCcr (u := (stepEa z ea s).spend k) rfl ((stepEa_keeps z ea s).spend k) c n, rfl⟩

end

end Sys2Proof.Machine
end

section
namespace Sys2Proof.Machine

/-! ### Parts of a register (R13, R22, R26) -/

/-- A size-wide write keeps the upper part and takes the low part of the value (R22). -/
theorem mergeLow_toNat (z : Size) (old v : Word) : (mergeLow z old v).toNat =
    old.toNat / 2 ^ (8 * z.bytes) * 2 ^ (8 * z.bytes) + v.toNat % 2 ^ (8 * z.bytes) := by
  have ho := old.isLt
  have hv := v.isLt
  cases z with
  | L => simp only [mergeLow, Size.bytes]; omega
  | _ =>
    simp only [mergeLow, Size.bytes, BitVec.toNat_append, BitVec.extractLsb'_toNat, Nat.shiftRight_eq_div_pow]
    rw [← Nat.shiftLeft_add_eq_or_of_lt (Nat.mod_lt _ (by decide)), Nat.shiftLeft_eq]
    omega

theorem trunc_mergeLow (z : Size) (old v : Word) : z.trunc (mergeLow z old v) = z.trunc v := by
  apply BitVec.eq_of_toNat_eq
  rw [trunc_toNat, trunc_toNat, mergeLow_toNat, Nat.mul_add_mod_of_lt (Nat.mod_lt _ (by positivity))]

/-- The flags of R26 look at the low part alone. -/
theorem logicFlags_congr {z : Size} {v w : Word} (c : Ccr) (h : z.trunc v = z.trunc w) :
    logicFlags z v c = logicFlags z w c := by
  have hmsb : ∀ u : Word, z.msb u = z.msb (z.trunc u) := fun u => by cases z <;> simp [Size.msb, Size.trunc]
  simp only [logicFlags]
  rw [hmsb v, hmsb w, h]

/-- A value read at a size has no more bits than the size (R61, R66). -/
theorem readEaIn_trunc {view s s1 : State} {z : Size} {ea : Ea} {v : Word} (h : readEaIn view z ea s = .ok (v, s1)) :
    z.trunc v = v := by
  by_cases ha : ∃ a s2, eaAddrIn view z ea s = .ok (a, s2)
  · obtain ⟨a, s2, ha⟩ := ha
    rw [readEaIn_mem ha] at h
    cases hm : memRead z a s2 with
    | ok w =>
      rw [hm] at h
      cases h
      rw [(memRead_ok hm).2]
      exact State.readMem_trunc _ z a
    | error e => rw [hm] at h; cases h
  · cases ea with
    | dn r => cases h; exact trunc_trunc ..
    | an r => cases h; exact trunc_trunc ..
    | imm w => cases h; exact trunc_trunc ..
    | _ => exact absurd ⟨_, _, rfl⟩ ha

theorem readEa_trunc {s s1 : State} {z : Size} {ea : Ea} {v : Word} (h : readEa z ea s = .ok (v, s1)) : z.trunc v = v :=
  readEaIn_trunc h

theorem readEa_lt {s s1 : State} {z : Size} {ea : Ea} {v : Word} (h : readEa z ea s = .ok (v, s1)) :
    v.toNat < 2 ^ (8 * z.bytes) := by
  rw [← readEa_trunc h, trunc_toNat]
  exact Nat.mod_lt _ (by positivity)

/-! ### Operands that step no register, and a drawn free value -/

theorem stepEa_of_steps_none (z : Size) {ea : Ea} (s : State) (h : steppedReg ea = none) : stepEa z ea s = s := by
  cases ea with
  | postinc r => cases h
  | predec r => cases h
  | _ => rfl

theorem steppedReg_of_control {ea : Ea} (h : EaClass.control.allows ea.kind = true) : steppedReg ea = none := by
  cases ea with
  | postinc r => cases h
  | predec r => cases h
  | _ => rfl

theorem steppedReg_of_ccrSource {ea : Ea} (h : EaClass.ccrSource.allows ea.kind = true) : steppedReg ea = none := by
  cases ea with
  | postinc r => cases h
  | predec r => cases h
  | _ => rfl

/-- The address of an operand does not look at the count of free values. -/
theorem eaAddrIn_spend {view s s1 : State} {z : Size} {ea : Ea} {a : Addr} (k : Nat)
    (h : eaAddrIn view z ea s = .ok (a, s1)) : eaAddrIn view z ea (s.spend k) = .ok (a, s1.spend k) := by
  cases ea with
  | dn r => cases h
  | an r => cases h
  | imm v => cases h
  | _ => cases h; rfl

/-! ### The address after an instruction's words -/

theorem nextPc_succ (s : State) (n : Nat) : s.nextPc (1 + n) = s.pc + 2 + BitVec.ofNat 32 (2 * n) := by
  simp only [State.nextPc, Nat.mul_add, BitVec.ofNat_add, BitVec.add_assoc]
  rfl

end Sys2Proof.Machine
end

/-! ## The machine as a whole

An instruction neither looks at nor changes the upper byte of SR and VBR, and raises an exception at a state of which the
same holds. It is said once, of two runs from states that differ in the two (`Twin`), operation by operation and then
instruction by instruction; that a step keeps them, and that they do not influence it, both follow. -/

section
namespace Sys2Proof.Machine

/-! ### The launch state -/

/-- Settles O1: each part is a field of the launch state. -/
theorem launchStateHoldsEntryAndStack : Obligations.LaunchStateHoldsEntryAndStack := by
  have hccr : (Ccr.toByte ⟨false, false, false, false, false⟩).extractLsb' 5 3 = 0 := by decide
  exact ⟨fun c => ⟨rfl, State.setA_sp_self (State.launch c) c.initialSP, hccr, fun _ => rfl, rfl⟩, by decide⟩

/-- Settles O2: nothing is listed in memory, and VBR is zero. -/
theorem launchStatesMeetInvariant : Obligations.LaunchStatesMeetInvariant :=
  have launch : ∀ c : Config, (State.launch c).Inv := fun c => ⟨State.launch_mem_wf c, BitVec.zero_and⟩
  ⟨launch, launch _⟩

/-! ### Two runs that differ in the supervisor state -/

/-- The state with another upper byte of SR and another VBR. -/
def State.withSupervisor (s : State) (y : SysByte) (w : Word) : State := { s with sys := y, vbr := w }

/-- The results of one meaning from two states that differ in the upper byte of SR and in VBR: the same end, at states
that differ in the two alone; and the first is reached from `s` with the two, the parameters and the form of memory kept. -/
inductive Twin (y : SysByte) (w : Word) (s : State) : Result State → Result State → Prop where
  | ok {t : State} (h : Carries s t) : Twin y w s (.ok t) (.ok (t.withSupervisor y w))
  | raised (e : Exception) {t : State} (h : Carries s t) :
      Twin y w s (.error (.raised e t)) (.error (.raised e (t.withSupervisor y w)))
  | refused (q : Refusal) : Twin y w s (.error (.refused q)) (.error (.refused q))

section
variable {y : SysByte} {w : Word} {s : State}

theorem Twin.after {s1 : State} {r r' : Result State} (h : Twin y w s1 r r') (hc : Carries s s1) : Twin y w s r r' := by
  cases h with
  | ok ht => exact .ok (hc.trans ht)
  | raised e ht => exact .raised e (hc.trans ht)
  | refused q => exact .refused q

theorem Twin.bind {r r' : Result State} {f f' : State → Result State} (h : Twin y w s r r')
    (hf : ∀ t, Twin y w t (f t) (f' (t.withSupervisor y w))) : Twin y w s (r >>= f) (r' >>= f') := by
  cases h with
  | ok ht => exact (hf _).after ht
  | raised e ht => exact .raised e ht
  | refused q => exact .refused q

/-! ### Operation by operation -/

theorem memRead_twin {z : Size} {a : Addr} {f f' : Word → Result State} (hf : ∀ v, Twin y w s (f v) (f' v)) :
    Twin y w s (memRead z a s >>= f) (memRead z a (s.withSupervisor y w) >>= f') := by
  by_cases h : s.readable z a
  · rw [memRead_of_readable h, memRead_of_readable (s := s.withSupervisor y w) h]
    exact hf _
  · rw [memRead_of_not_readable h, memRead_of_not_readable (s := s.withSupervisor y w) h]
    exact .raised _ (Carries.refl s)

theorem withSupervisor_writeMem (s : State) (y : SysByte) (w : Word) (z : Size) (a : Addr) (v : Word) :
    (s.withSupervisor y w).writeMem z a v = (s.writeMem z a v).withSupervisor y w := by cases z <;> rfl

theorem memWrite_twin (z : Size) (a : Addr) (v : Word) :
    Twin y w s (memWrite z a v s) (memWrite z a v (s.withSupervisor y w)) := by
  by_cases hr : s.readable z a
  · by_cases hw : s.writable z a
    · rw [memWrite_of_writable v hw, memWrite_of_writable (s := s.withSupervisor y w) v hw, withSupervisor_writeMem]
      exact .ok (Carries.writeMem ..)
    · rw [memWrite_of_code v hr hw, memWrite_of_code (s := s.withSupervisor y w) v hr hw]
      exact .refused _
  · rw [memWrite_of_not_readable v hr, memWrite_of_not_readable (s := s.withSupervisor y w) v hr]
    exact .raised _ (Carries.refl s)

theorem pushLong_twin (v : Word) : Twin y w s (pushLong v s) (pushLong v (s.withSupervisor y w)) :=
  (memWrite_twin (s := s.setA 7 (s.sp - 4)) .L (s.sp - 4) v).after (Carries.setA ..)

theorem eaAddrIn_withSupervisor {view s1 : State} {z : Size} {ea : Ea} {a : Addr}
    (h : eaAddrIn view z ea s = .ok (a, s1)) :
    eaAddrIn (view.withSupervisor y w) z ea (s.withSupervisor y w) = .ok (a, s1.withSupervisor y w) := by
  cases ea with
  | dn r => cases h
  | an r => cases h
  | imm v => cases h
  | _ => cases h; rfl

theorem eaAddrIn_twin {view : State} {z : Size} {ea : Ea} {f f' : Addr × State → Result State}
    (hf : ∀ a t, Twin y w t (f (a, t)) (f' (a, t.withSupervisor y w))) :
    Twin y w s (eaAddrIn view z ea s >>= f) (eaAddrIn (view.withSupervisor y w) z ea (s.withSupervisor y w) >>= f') := by
  by_cases ha : ∃ a s1, eaAddrIn view z ea s = .ok (a, s1)
  · obtain ⟨a, s1, ha⟩ := ha
    rw [ha, eaAddrIn_withSupervisor ha]
    exact (hf a s1).after (eaAddrIn_ok ha ▸ Carries.stepEa ..)
  · cases ea with
    | dn r => exact .refused _
    | an r => exact .refused _
    | imm v => exact .refused _
    | _ => exact absurd ⟨_, _, rfl⟩ ha

theorem eaAddr_twin {z : Size} {ea : Ea} {f f' : Addr × State → Result State}
    (hf : ∀ a t, Twin y w t (f (a, t)) (f' (a, t.withSupervisor y w))) :
    Twin y w s (eaAddr z ea s >>= f) (eaAddr z ea (s.withSupervisor y w) >>= f') := eaAddrIn_twin hf

theorem readEaIn_twin {view : State} {z : Size} {ea : Ea} {f f' : Word × State → Result State}
    (hf : ∀ v t, Twin y w t (f (v, t)) (f' (v, t.withSupervisor y w))) :
    Twin y w s (readEaIn view z ea s >>= f) (readEaIn (view.withSupervisor y w) z ea (s.withSupervisor y w) >>= f') := by
  by_cases ha : ∃ a s1, eaAddrIn view z ea s = .ok (a, s1)
  · obtain ⟨a, s1, ha⟩ := ha
    rw [readEaIn_mem ha, readEaIn_mem (eaAddrIn_withSupervisor ha)]
    refine Twin.after (s1 := s1) ?_ (eaAddrIn_ok ha ▸ Carries.stepEa ..)
    by_cases hr : s1.readable z a
    · rw [memRead_of_readable hr, memRead_of_readable (s := s1.withSupervisor y w) hr]
      exact hf ..
    · rw [memRead_of_not_readable hr, memRead_of_not_readable (s := s1.withSupervisor y w) hr]
      exact .raised _ (Carries.refl s1)
  · cases ea with
    | dn r => exact hf ..
    | an r => exact hf ..
    | imm v => exact hf ..
    | _ => exact absurd ⟨_, _, rfl⟩ ha

theorem readEa_twin {z : Size} {ea : Ea} {f f' : Word × State → Result State}
    (hf : ∀ v t, Twin y w t (f (v, t)) (f' (v, t.withSupervisor y w))) :
    Twin y w s (readEa z ea s >>= f) (readEa z ea (s.withSupervisor y w) >>= f') := readEaIn_twin hf

theorem writeEaIn_twin (view : State) (z : Size) (ea : Ea) (v : Word) :
    Twin y w s (writeEaIn view z ea v s) (writeEaIn (view.withSupervisor y w) z ea v (s.withSupervisor y w)) := by
  cases ea with
  | dn r => exact .ok (Carries.setDLow ..)
  | an r => exact .ok (Carries.setA ..)
  | imm u => exact .refused _
  | _ => exact eaAddrIn_twin fun a t => memWrite_twin ..

/-- The address alone of an operand, whatever state it is formed from. -/
theorem eaAddr_address_twin {u : State} {z : Size} {ea : Ea} {f f' : Addr → Result State}
    (hf : ∀ a, Twin y w s (f a) (f' a)) :
    Twin y w s (eaAddr z ea u >>= fun p => f p.1) (eaAddr z ea (u.withSupervisor y w) >>= fun p => f' p.1) := by
  cases ea with
  | dn r => exact .refused _
  | an r => exact .refused _
  | imm v => exact .refused _
  | _ => exact hf _

theorem pushedAddr_twin {ea : Ea} {f f' : Addr × State → Result State}
    (hf : ∀ a t, Twin y w t (f (a, t)) (f' (a, t.withSupervisor y w))) :
    Twin y w s (pushedAddr ea s >>= f) (pushedAddr ea (s.withSupervisor y w) >>= f') := by
  have hcont : ∀ a, Twin y w s (f (a, s.spend 1)) (f' (a, (s.spend 1).withSupervisor y w)) :=
    fun a => (hf a _).after (Carries.spend s 1)
  by_cases hsp : basedOnSp ea = true
  · simp only [pushedAddr, hsp, if_true, bind_assoc]
    by_cases hb : s.freeBit 0 = true
    · have hb' : (s.withSupervisor y w).freeBit 0 = true := hb
      rw [if_pos hb, if_pos hb']
      exact eaAddr_address_twin (u := s) hcont
    · have hb' : ¬ (s.withSupervisor y w).freeBit 0 = true := hb
      rw [if_neg hb, if_neg hb']
      exact eaAddr_address_twin (u := s.setA 7 (s.sp - 4)) hcont
  · simp only [pushedAddr, if_neg hsp]
    exact eaAddr_twin hf

theorem storeRegs_twin (is : List (Fin 16)) (a : Addr) :
    Twin y w s (storeRegs is a s) (storeRegs is a (s.withSupervisor y w)) := by
  induction is generalizing a s with
  | nil => exact .ok (Carries.refl s)
  | cons i is ih => exact (memWrite_twin ..).bind fun t => ih ..

theorem withSupervisor_setR (s : State) (y : SysByte) (w : Word) (i : Fin 16) (v : Word) :
    (s.withSupervisor y w).setR i v = (s.setR i v).withSupervisor y w := by
  unfold State.setR; split <;> rfl

theorem loadRegs_twin (is : List (Fin 16)) (a : Addr) :
    Twin y w s (loadRegs is a s) (loadRegs is a (s.withSupervisor y w)) := by
  induction is generalizing a s with
  | nil => exact .ok (Carries.refl s)
  | cons i is ih =>
    refine memRead_twin fun v => ?_
    rw [withSupervisor_setR]
    exact (ih _).after (Carries.setR ..)

/-! ### Shape by shape -/

theorem aluToDn_twin (f : Alu) (ea : Ea) (r : Reg) : Twin y w s (aluToDn f ea r s) (aluToDn f ea r (s.withSupervisor y w)) :=
  readEa_twin fun _ _ => .ok (by exact ⟨rfl, rfl, rfl, id⟩)

/-- A read, a store and the flags at one address. -/
theorem readWrite_twin {z : Size} {a : Addr} (g : Word → Word) (c : Word → Ccr) (t : State) :
    Twin y w t (do
        let d ← memRead z a t
        let u ← memWrite z a (g d) t
        .ok (u.setCcr (c d)))
      (do
        let d ← memRead z a (t.withSupervisor y w)
        let u ← memWrite z a (g d) (t.withSupervisor y w)
        .ok (u.setCcr (c d))) :=
  memRead_twin fun _ => (memWrite_twin ..).bind fun _ => .ok (Carries.setCcr ..)

theorem aluToEa_twin (f : Alu) (v : Word) (ea : Ea) :
    Twin y w s (aluToEa f v ea s) (aluToEa f v ea (s.withSupervisor y w)) := by
  cases ea with
  | dn r => exact .ok ⟨rfl, rfl, rfl, id⟩
  | _ => exact eaAddr_twin fun a t => readWrite_twin (fun d => (f v d t.ccr).1) (fun d => (f v d t.ccr).2) t

theorem addressArith_twin (f : Word → Word → Word) (ea : Ea) (r : Reg) :
    Twin y w s (addressArith f ea r s) (addressArith f ea r (s.withSupervisor y w)) := by
  refine readEa_twin fun v t => ?_
  dsimp only
  split
  · exact .ok ⟨rfl, rfl, rfl, id⟩
  · exact .ok ⟨rfl, rfl, rfl, id⟩

theorem quickArith_twin (f : Alu) (g : Word → Word → Word) (q : BitVec 3) (ea : Ea) :
    Twin y w s (quickArith f g q ea s) (quickArith f g q ea (s.withSupervisor y w)) := by
  have h := aluToEa_twin (y := y) (w := w) (s := s) f (BitVec.ofNat 32 (quickValue q)) ea
  cases ea with
  | an r => exact .ok ⟨rfl, rfl, rfl, id⟩
  | _ => exact h

theorem modifyBit_twin (f : Word → Nat → Word) (n : Nat) (ea : Ea) :
    Twin y w s (modifyBit f n ea s) (modifyBit f n ea (s.withSupervisor y w)) := by
  cases ea with
  | dn r => exact .ok ⟨rfl, rfl, rfl, id⟩
  | _ =>
    exact eaAddr_twin fun a t => memRead_twin fun old =>
      (memWrite_twin (s := t.setCcr (bitFlags old (n % 8) t.ccr)) ..).after (Carries.setCcr ..)

theorem testBit_twin (n : Nat) (ea : Ea) : Twin y w s (testBit n ea s) (testBit n ea (s.withSupervisor y w)) := by
  cases ea with
  | dn r => exact .ok ⟨rfl, rfl, rfl, id⟩
  | _ => exact eaAddr_twin fun _ _ => memRead_twin fun _ => .ok (by exact ⟨rfl, rfl, rfl, id⟩)

theorem clear_twin (z : Size) (ea : Ea) : Twin y w s (clear z ea s) (clear z ea (s.withSupervisor y w)) :=
  (writeEaIn_twin s z ea 0).bind fun _ => .ok (by exact ⟨rfl, rfl, rfl, id⟩)

theorem test_twin (z : Size) (ea : Ea) : Twin y w s (test z ea s) (test z ea (s.withSupervisor y w)) :=
  readEa_twin fun _ _ => .ok (by exact ⟨rfl, rfl, rfl, id⟩)

theorem moveAddress_twin (z : Size) (src : Ea) (r : Reg) :
    Twin y w s (moveAddress z src r s) (moveAddress z src r (s.withSupervisor y w)) :=
  readEa_twin fun _ _ => .ok (by exact ⟨rfl, rfl, rfl, id⟩)

theorem multiply_twin (z : Size) (f : Word → Word → Word) (ea : Ea) (r : Reg) :
    Twin y w s (multiply z f ea r s) (multiply z f ea r (s.withSupervisor y w)) :=
  readEa_twin fun _ _ => .ok (by exact ⟨rfl, rfl, rfl, id⟩)

theorem divideOverflow_withSupervisor (s : State) (y : SysByte) (w : Word) :
    divideOverflow (s.withSupervisor y w) = (divideOverflow s).withSupervisor y w := by
  cases h : s.config.divOverflowNZ <;> simp [divideOverflow, State.withSupervisor, h] <;> rfl

theorem divideOverflow_carries (s : State) : Carries s (divideOverflow s) := by
  unfold divideOverflow
  split
  · exact Carries.setCcr ..
  · exact ⟨rfl, rfl, rfl, id⟩

theorem divide_twin (z : Size) (f : Config → Word → Word → Option Quotient) (ea : Ea) (x q : Reg) :
    Twin y w s (divide z f ea x q s) (divide z f ea x q (s.withSupervisor y w)) := by
  refine readEa_twin fun v t => ?_
  by_cases hv : v = 0
  · simp only [hv, if_true]
    exact .raised _ (Carries.refl t)
  · have hq : f (t.withSupervisor y w).config ((t.withSupervisor y w).dreg q) v = f t.config (t.dreg q) v := rfl
    simp only [hv, if_false, hq]
    cases f t.config (t.dreg q) v with
    | none => exact divideOverflow_withSupervisor t y w ▸ .ok (divideOverflow_carries t)
    | some r => exact .ok ⟨rfl, rfl, rfl, id⟩

theorem withSupervisor_ite (c : Prop) [Decidable c] (s t : State) (y : SysByte) (w : Word) :
    (if c then s.withSupervisor y w else t.withSupervisor y w) = (if c then s else t).withSupervisor y w := by
  split <;> rfl

theorem withSupervisor_spend (s : State) (y : SysByte) (w : Word) (k : Nat) :
    (s.withSupervisor y w).spend k = (s.spend k).withSupervisor y w := rfl

theorem withSupervisor_freeBit (s : State) (y : SysByte) (w : Word) (k : Nat) :
    (s.withSupervisor y w).freeBit k = s.freeBit k := rfl

theorem withSupervisor_freeWord (s : State) (y : SysByte) (w : Word) (k : Nat) :
    (s.withSupervisor y w).freeWord k = s.freeWord k := rfl

theorem stepEa_withSupervisor (z : Size) (ea : Ea) (s : State) (y : SysByte) (w : Word) :
    stepEa z ea (s.withSupervisor y w) = (stepEa z ea s).withSupervisor y w := by
  cases ea <;> rfl

theorem move_twin (z : Size) (src dst : Ea) : Twin y w s (move z src dst s) (move z src dst (s.withSupervisor y w)) := by
  cases hb : s.freeBit 0
  all_goals
    have hb' := (withSupervisor_freeBit s y w 0).trans hb
    simp only [move, hb, hb', Bool.and_false, Bool.and_true, Bool.false_eq_true, if_false, stepEa_withSupervisor,
      withSupervisor_ite, withSupervisor_freeWord]
    refine readEaIn_twin fun v t => ?_
    dsimp only
    simp only [withSupervisor_spend, withSupervisor_ite]
    refine Twin.bind (Twin.after (writeEaIn_twin ..) ?_) fun _ => .ok (by exact ⟨rfl, rfl, rfl, id⟩)
    split
    · exact Carries.spend ..
    · exact Carries.refl _

/-! ### Instruction by instruction -/

/-- Two outcomes of twin results. -/
def TwinRun (y : SysByte) (w : Word) (s : State) (o o' : Host.Outcome State Fault Refusal) : Prop :=
  ∃ r r', o = finishAt s r ∧ o' = finishAt (s.withSupervisor y w) r' ∧ Twin y w s r r'

theorem Twin.finishAt {r r' : Result State} (h : Twin y w s r r') :
    TwinRun y w s (finishAt s r) (finishAt (s.withSupervisor y w) r') := ⟨_, _, rfl, rfl, h⟩

theorem Twin.finish {r r' : Result State} (h : Twin y w s r r') (n : Nat) :
    TwinRun y w s (finish s n r) (finish (s.withSupervisor y w) n r') := by
  refine ⟨_, _, rfl, rfl, ?_⟩
  cases h with
  | ok ht => exact .ok (ht.trans (Carries.setPc ..))
  | raised e ht => exact .raised e ht
  | refused q => exact .refused q

/-- An instruction that cannot fail: both runs end at states that are alike. -/
theorem ok_finish {t : State} (h : Carries s t) (n : Nat) :
    TwinRun y w s (Machine.finish s n (.ok t)) (Machine.finish (s.withSupervisor y w) n (.ok (t.withSupervisor y w))) :=
  (Twin.ok h).finish n

theorem exec_twin (y : SysByte) (w : Word) (i : Instr) (s : State) :
    TwinRun y w s (exec i s) (exec i (s.withSupervisor y w)) := by
  cases i with
  | addEaDn ea r => exact Twin.finish (aluToDn_twin addAlu ea r) _
  | subEaDn ea r => exact Twin.finish (aluToDn_twin subAlu ea r) _
  | andEaDn ea r => exact Twin.finish (aluToDn_twin andAlu ea r) _
  | orEaDn ea r => exact Twin.finish (aluToDn_twin orAlu ea r) _
  | addDnEa r ea => exact Twin.finish (aluToEa_twin addAlu (s.dreg r) ea) _
  | subDnEa r ea => exact Twin.finish (aluToEa_twin subAlu (s.dreg r) ea) _
  | andDnEa r ea => exact Twin.finish (aluToEa_twin andAlu (s.dreg r) ea) _
  | orDnEa r ea => exact Twin.finish (aluToEa_twin orAlu (s.dreg r) ea) _
  | eor r ea => exact Twin.finish (aluToEa_twin eorAlu (s.dreg r) ea) _
  | adda ea r => exact Twin.finish (addressArith_twin (fun d v => d + v) ea r) _
  | suba ea r => exact Twin.finish (addressArith_twin (fun d v => d - v) ea r) _
  | addq q ea => exact Twin.finish (quickArith_twin addAlu (fun d v => d + v) q ea) _
  | subq q ea => exact Twin.finish (quickArith_twin subAlu (fun d v => d - v) q ea) _
  | cmp ea r => exact Twin.finish (readEa_twin fun _ _ => .ok (by exact ⟨rfl, rfl, rfl, id⟩)) _
  | cmpa ea r =>
    refine Twin.finish (readEa_twin fun v t => ?_) _
    dsimp only
    split
    · exact .ok (by exact ⟨rfl, rfl, rfl, id⟩)
    · exact .ok (by exact ⟨rfl, rfl, rfl, id⟩)
  | bra d => exact Twin.finishAt (Twin.ok (Carries.setPc ..))
  | bcc cc d => exact Twin.finishAt (Twin.ok (Carries.setPc ..))
  | bsr d => exact Twin.finishAt ((pushLong_twin _).bind fun _ => .ok (Carries.setPc ..))
  | jmp ea => exact Twin.finishAt (eaAddr_twin fun _ _ => .ok (Carries.setPc ..))
  | jsr ea => exact Twin.finishAt (pushedAddr_twin fun _ _ => (pushLong_twin _).bind fun _ => .ok (Carries.setPc ..))
  | rts => exact Twin.finishAt (memRead_twin fun _ => .ok (by exact ⟨rfl, rfl, rfl, id⟩))
  | btstReg q ea => exact Twin.finish (testBit_twin (s.dreg q).toNat ea) _
  | btstImm n ea => exact Twin.finish (testBit_twin n.toNat ea) _
  | bchgReg q ea => exact Twin.finish (modifyBit_twin changeBit (s.dreg q).toNat ea) _
  | bchgImm n ea => exact Twin.finish (modifyBit_twin changeBit n.toNat ea) _
  | bclrReg q ea => exact Twin.finish (modifyBit_twin clearBit (s.dreg q).toNat ea) _
  | bclrImm n ea => exact Twin.finish (modifyBit_twin clearBit n.toNat ea) _
  | bsetReg q ea => exact Twin.finish (modifyBit_twin setBit (s.dreg q).toNat ea) _
  | bsetImm n ea => exact Twin.finish (modifyBit_twin setBit n.toNat ea) _
  | clrB ea => exact Twin.finish (clear_twin .B ea) _
  | clrW ea => exact Twin.finish (clear_twin .W ea) _
  | clrL ea => exact Twin.finish (clear_twin .L ea) _
  | tstB ea => exact Twin.finish (test_twin .B ea) _
  | tstW ea => exact Twin.finish (test_twin .W ea) _
  | tstL ea => exact Twin.finish (test_twin .L ea) _
  | lea ea r => exact Twin.finish (eaAddr_twin fun _ _ => .ok (Carries.setA ..)) _
  | link r d =>
    refine Twin.finish ?_ 2
    split
    · refine Twin.after (s1 := s.spend 2) ?_ (Carries.spend ..)
      exact (pushLong_twin _).bind fun _ => .ok (by exact ⟨rfl, rfl, rfl, id⟩)
    · exact (pushLong_twin _).bind fun _ => .ok (by exact ⟨rfl, rfl, rfl, id⟩)
  | unlk r =>
    refine Twin.finish (Twin.after (s1 := s.setA 7 (s.areg r)) (memRead_twin fun v => ?_) (Carries.setA ..)) 1
    dsimp only
    split
    · exact .ok (by exact ⟨rfl, rfl, rfl, id⟩)
    · exact .ok (by exact ⟨rfl, rfl, rfl, id⟩)
  | moveB src dst => exact Twin.finish (move_twin .B src dst) _
  | moveW src dst => exact Twin.finish (move_twin .W src dst) _
  | moveL src dst => exact Twin.finish (move_twin .L src dst) _
  | moveaW src r => exact Twin.finish (moveAddress_twin .W src r) _
  | moveaL src r => exact Twin.finish (moveAddress_twin .L src r) _
  | moveToCcr src => exact Twin.finish (readEa_twin fun _ _ => .ok (Carries.setCcr ..)) _
  | movemStore mask ea => exact Twin.finish (eaAddr_twin fun _ _ => storeRegs_twin ..) _
  | movemLoad mask ea =>
    refine Twin.finish (eaAddr_twin fun a t => Twin.bind (loadRegs_twin ..) fun u => ?_) _
    cases baseReg ea with
    | none => exact .ok (Carries.refl u)
    | some r =>
      dsimp only
      split
      · exact .ok (by exact ⟨rfl, rfl, rfl, id⟩)
      · exact .ok (Carries.refl u)
  | pea ea => exact Twin.finish (pushedAddr_twin fun _ _ => pushLong_twin _) _
  | divsW ea r => exact Twin.finish (divide_twin .W divsWord ea r r) _
  | divsL ea r => exact Twin.finish (divide_twin .L divsLong ea r r) _
  | divuW ea r => exact Twin.finish (divide_twin .W divuWord ea r r) _
  | divuL ea r => exact Twin.finish (divide_twin .L divuLong ea r r) _
  | mulsW ea r => exact Twin.finish (multiply_twin .W mulsWord ea r) _
  | mulsL ea r => exact Twin.finish (multiply_twin .L mulsLong ea r) _
  | muluW ea r => exact Twin.finish (multiply_twin .W muluWord ea r) _
  | muluL ea r => exact Twin.finish (multiply_twin .L muluLong ea r) _
  | remsL ea q x => exact Twin.finish (divide_twin .L remsLong ea q x) _
  | remuL ea q x => exact Twin.finish (divide_twin .L remuLong ea q x) _
  | trap v => exact Twin.finishAt (Twin.raised _ (Carries.refl s))
  | _ => exact ok_finish (by exact ⟨rfl, rfl, rfl, id⟩) _

end

/-! ### The fetch, and a whole step -/

/-- The results of a fetch from two states that differ in the upper byte of SR and in VBR. -/
inductive FetchTwin (y : SysByte) (w : Word) (s : State) : Result Instr → Result Instr → Prop where
  | ok (i : Instr) : FetchTwin y w s (.ok i) (.ok i)
  | raised (e : Exception) : FetchTwin y w s (.error (.raised e s)) (.error (.raised e (s.withSupervisor y w)))
  | refused (q : Refusal) : FetchTwin y w s (.error (.refused q)) (.error (.refused q))

theorem undecodedWord_twin (y : SysByte) (w : Word) (o : Word16) (s : State) :
    FetchTwin y w s (.error (undecodedWord o s)) (.error (undecodedWord o (s.withSupervisor y w))) := by
  have hc : (s.withSupervisor y w).config = s.config := rfl
  cases h : s.config.undecoded with
  | refuse => simpa only [undecodedWord, hc, h] using .refused _
  | illegalInstruction => simpa only [undecodedWord, hc, h] using .raised _

theorem fetchFrom_twin (y : SysByte) (w : Word) (n : Nat) (ws : List Word16) (s : State) :
    FetchTwin y w s (fetchFrom n ws s) (fetchFrom n ws (s.withSupervisor y w)) := by
  induction n generalizing ws with
  | zero =>
    unfold fetchFrom
    split
    · exact .ok _
    · exact undecodedWord_twin ..
    · exact undecodedWord_twin ..
  | succ n ih =>
    unfold fetchFrom
    split
    · exact .ok _
    · by_cases hm : (accessBytes .W (s.nextPc ws.length)).all s.mapped = true
      · have hf : fetchWord (s.nextPc ws.length) s = .ok (s.wordAt (s.nextPc ws.length)) := if_pos hm
        have hf' : fetchWord ((s.withSupervisor y w).nextPc ws.length) (s.withSupervisor y w) =
          .ok (s.wordAt (s.nextPc ws.length)) := if_pos hm
        simpa only [hf, hf', bind, Except.bind] using ih _
      · have hf : fetchWord (s.nextPc ws.length) s = .error (.raised _ s) := if_neg hm
        have hf' : fetchWord ((s.withSupervisor y w).nextPc ws.length) (s.withSupervisor y w) =
          .error (.raised _ (s.withSupervisor y w)) := if_neg hm
        simpa only [hf, hf', bind, Except.bind] using .raised _
    · exact undecodedWord_twin ..

theorem fetchInstr_twin (y : SysByte) (w : Word) (s : State) :
    FetchTwin y w s (fetchInstr s) (fetchInstr (s.withSupervisor y w)) := by
  by_cases h : s.pc.getLsbD 0 = true
  · have hf : fetchInstr s = .error (.raised (.addressError s.pc) s) := if_pos h
    have hf' : fetchInstr (s.withSupervisor y w) = .error (.raised (.addressError s.pc) (s.withSupervisor y w)) := if_pos h
    rw [hf, hf']
    exact .raised _
  · have hf : fetchInstr s = fetchFrom 3 [] s := if_neg h
    have hf' : fetchInstr (s.withSupervisor y w) = fetchFrom 3 [] (s.withSupervisor y w) := if_neg h
    rw [hf, hf']
    exact fetchFrom_twin ..

theorem step_twin (y : SysByte) (w : Word) (s : State) : TwinRun y w s (step s) (step (s.withSupervisor y w)) := by
  have h := fetchInstr_twin y w s
  unfold step
  generalize fetchInstr s = f at h ⊢
  generalize fetchInstr (s.withSupervisor y w) = f' at h ⊢
  cases h with
  | ok i => exact exec_twin y w i s
  | raised e => exact Twin.finishAt (.raised e (Carries.refl s))
  | refused q => exact Twin.finishAt (.refused q)

/-- Settles O5: in the terminal model twin results have the same outcome, an exception ending the run with what both
states hold alike. -/
theorem terminalStepIgnoresSupervisorState : Obligations.TerminalStepIgnoresSupervisorState := by
  intro s y w hm
  obtain ⟨r, r', ho, ho', h⟩ := step_twin y w s
  change step (s.withSupervisor y w) = _
  rw [ho, ho']
  cases h with
  | ok ht => rfl
  | raised e ht =>
    rw [finishAt_raised, finishAt_raised, takeException_terminal hm,
      takeException_terminal (s0 := s.withSupervisor y w) hm]
    rfl
  | refused q => rfl

/-! ### What a step changes of the supervisor state (R32, R265) -/

/-- The state an exception is entered from: the parameters, VBR and the form of memory as before the instruction, and the
upper byte of SR as before but for the bits that the entry writes. -/
structure EntersFrom (s u : State) : Prop where
  config : u.config = s.config
  vbr : u.vbr = s.vbr
  sys : { u.sys with s := true, t := false } = { s.sys with s := true, t := false }
  wf : s.mem.wf → u.mem.wf

theorem Carries.entersFrom {s u : State} (h : Carries s u) : EntersFrom s u := ⟨h.config, h.vbr, by rw [h.sys], h.wf⟩

/-- The state after an exception is taken (R265). -/
structure EntersException (s t : State) : Prop where
  config : t.config = s.config
  vbr : t.vbr = s.vbr
  sys : t.sys = { s.sys with s := true, t := false }
  wf : s.mem.wf → t.mem.wf
  target : ∃ e : Exception, t.pc = t.readMem .L (vectorAddr s.vbr e.vector)

theorem enterException_enters {e : Exception} {pc0 : Addr} {s u t : State} (hu : EntersFrom s u)
    (h : enterException e pc0 u = .ok t) : EntersException s t := by
  obtain ⟨hc, hv, hs, hw⟩ := enterException_reaches (h ▸ Reaches.ok t)
  refine ⟨hc.trans hu.config, hv.trans hu.vbr, hs.trans hu.sys, fun wf => hw (hu.wf wf), e, ?_⟩
  obtain ⟨_, _, _, ht⟩ := enterException_ok h
  rw [← hu.vbr, ht]
  rfl

/-- An entry stopped halfway leaves a state from which another can be entered. -/
theorem enterException_raised {e e' : Exception} {pc0 : Addr} {s u t : State} (hu : EntersFrom s u)
    (h : enterException e pc0 u = .error (.raised e' t)) : EntersFrom s t := by
  obtain ⟨hc, hv, hs, hw⟩ := enterException_reaches (h ▸ Reaches.raised e' t)
  exact ⟨hc.trans hu.config, hv.trans hu.vbr, by rw [hs]; exact hu.sys, fun wf => hw (hu.wf wf)⟩

theorem stateAtRaise_entersFrom {s s0 s1 : State} (h0 : EntersFrom s s0) (h1 : EntersFrom s s1) :
    EntersFrom s (stateAtRaise s0 s1) := by
  obtain ⟨k, h | h⟩ := stateAtRaise_cases s0 s1
  · rw [h]; exact ⟨h0.config, h0.vbr, h0.sys, h0.wf⟩
  · rw [h]; exact ⟨h1.config, h1.vbr, h1.sys, h1.wf⟩

/-- Where an exception leads to a next state, that state is one after an entry, of this exception or of the one met while
TRAP was taken. -/
theorem takeException_enters {e : Exception} {s s1 t : State} (hs : Carries s s1) (h : takeException e s s1 = .next t) :
    s.config.trapModel = .supervisor ∧ EntersException s t := by
  obtain ⟨hm, h⟩ := takeException_next h
  have h0 : EntersFrom s (stateAtRaise s s1) := stateAtRaise_entersFrom (Carries.refl s).entersFrom hs.entersFrom
  refine ⟨hm, ?_⟩
  obtain h | ⟨n, e', u, _, hu, h⟩ := h
  · exact enterException_enters h0 h
  · exact enterException_enters (stateAtRaise_entersFrom h0 (enterException_raised h0 hu)) h

/-- What a step to a next state can do: it keeps all that `Carries` names, or it has taken an exception. -/
theorem step_next_cases {s t : State} (h : step s = .next t) :
    Carries s t ∨ s.config.trapModel = .supervisor ∧ EntersException s t := by
  obtain ⟨r, r', ho, _, hr⟩ := step_twin s.sys s.vbr s
  rw [ho] at h
  cases hr with
  | ok ht => cases h; exact .inl ht
  | raised e ht => exact .inr (takeException_enters ht h)
  | refused q => cases h

/-- Settles O4, by the two cases of a step. -/
theorem onlyExceptionsChangeUpperStatusByte : Obligations.OnlyExceptionsChangeUpperStatusByte := by
  intro s t h
  obtain hc | ⟨hm, he⟩ := step_next_cases h
  · exact ⟨hc.config, hc.vbr, .inl hc.sys⟩
  · exact ⟨he.config, he.vbr, .inr ⟨hm, he.sys, he.target⟩⟩

end Sys2Proof.Machine
end

section
namespace Sys2Proof.Machine

/-! ### Integer arithmetic -/

/-- Settles O19, by the run of a two-operand function into a data register. -/
theorem addAndSubtractIntoDataRegister : Obligations.AddAndSubtractIntoDataRegister := by
  refine ⟨fun s s1 ea r v h => ⟨?_, ?_⟩, fun s r v => ⟨?_, ?_⟩⟩
  · obtain ⟨t, ht, hw, hc⟩ := aluToDn_runs addAlu r (1 + ea.extWords .L) h
    exact ⟨t, ht, hw, addAlu_reports hc⟩
  · obtain ⟨t, ht, hw, hc⟩ := aluToDn_runs subAlu r (1 + ea.extWords .L) h
    exact ⟨t, ht, hw, subAlu_reports hc⟩
  · obtain ⟨t, ht, hw, hc⟩ := aluReg_runs addAlu v r s 3
    exact ⟨t, ht, hw, addAlu_reports hc⟩
  · obtain ⟨t, ht, hw, hc⟩ := aluReg_runs subAlu v r s 3
    exact ⟨t, ht, hw, subAlu_reports hc⟩

/-- Settles O20, by the run of a two-operand function into memory. -/
theorem addAndSubtractIntoMemory : Obligations.AddAndSubtractIntoMemory := by
  refine fun s s1 ea r a h hw => ⟨?_, ?_⟩
  · obtain ⟨t, ht, hm, hc⟩ := aluToEa_runs addAlu (s.dreg r) (1 + ea.extWords .L) h hw
    exact ⟨t, ht, hm, addAlu_reports hc⟩
  · obtain ⟨t, ht, hm, hc⟩ := aluToEa_runs subAlu (s.dreg r) (1 + ea.extWords .L) h hw
    exact ⟨t, ht, hm, subAlu_reports hc⟩

/-- The quick operand of R87 as a long: 1 to 7, and 8 for the field 000. -/
theorem quickWord_eq : ∀ q : BitVec 3, BitVec.ofNat 32 (quickValue q) = if q = 0 then 8 else q.setWidth 32 := by decide

/-- An address register is the only destination that ADDQ and SUBQ treat by itself. -/
theorem quickArith_of_address {s s1 : State} {ea : Ea} {a : Addr} (f : Alu) (g : Word → Word → Word) (q : BitVec 3)
    (h : eaAddr .L ea s = .ok (a, s1)) :
    quickArith f g q ea s = aluToEa f (BitVec.ofNat 32 (quickValue q)) ea s := by
  cases ea with
  | an r => cases h
  | _ => rfl

/-- Settles O21: ADDQ and SUBQ are the two-operand functions, and on an address register the sum alone. -/
theorem quickAddAndSubtract : Obligations.QuickAddAndSubtract := by
  intro s q k hk
  rw [← quickWord_eq] at hk
  subst hk
  refine ⟨fun r => ⟨?_, ?_, ?_, ?_⟩, fun ea a s1 h hw => ⟨?_, ?_⟩⟩
  · obtain ⟨t, ht, hd, hc⟩ := aluReg_runs addAlu (BitVec.ofNat 32 (quickValue q)) r s 1
    exact ⟨t, ht, hd, addAlu_reports hc⟩
  · obtain ⟨t, ht, hd, hc⟩ := aluReg_runs subAlu (BitVec.ofNat 32 (quickValue q)) r s 1
    exact ⟨t, ht, hd, subAlu_reports hc⟩
  · exact ⟨_, rfl, writesAnFrom_setA .L (.an r) s r _ 1⟩
  · exact ⟨_, rfl, writesAnFrom_setA .L (.an r) s r _ 1⟩
  · obtain ⟨t, ht, hm, hc⟩ := aluToEa_runs addAlu (BitVec.ofNat 32 (quickValue q)) (1 + ea.extWords .L) h hw
    rw [← quickArith_of_address addAlu (fun d v => d + v) q h] at ht
    exact ⟨t, ht, hm, addAlu_reports hc⟩
  · obtain ⟨t, ht, hm, hc⟩ := aluToEa_runs subAlu (BitVec.ofNat 32 (quickValue q)) (1 + ea.extWords .L) h hw
    rw [← quickArith_of_address subAlu (fun d v => d - v) q h] at ht
    exact ⟨t, ht, hm, subAlu_reports hc⟩

theorem xWord_eq (c : Ccr) : c.xWord = BitVec.ofNat 32 c.x.toNat := by
  obtain ⟨x, _, _, _, _⟩ := c
  cases x <;> rfl

/-- Settles O22: the sum and the difference with the extend flag taken in. -/
theorem extendedAddAndSubtract : Obligations.ExtendedAddAndSubtract := by
  intro s y x
  rw [← xWord_eq]
  refine ⟨?_, ?_⟩
  · obtain ⟨t, ht, hw, hc⟩ := aluReg_runs addxAlu (s.dreg y) x s 1
    refine ⟨t, ht, hw, ?_⟩
    rw [hc]
    exact ⟨by simpa [addxAlu, xWord_eq] using addFlags_sumFlags _ _ _ _, rfl, rfl⟩
  · obtain ⟨t, ht, hw, hc⟩ := aluReg_runs subxAlu (s.dreg y) x s 1
    refine ⟨t, ht, hw, ?_⟩
    rw [hc]
    exact ⟨by simpa [subxAlu, xWord_eq] using subFlags_differenceFlags _ _ _ _, rfl, rfl⟩

theorem execCmp_of_read {s s1 : State} {ea : Ea} {v : Word} (r : Reg) (h : readEa .L ea s = .ok (v, s1)) :
    exec (.cmp ea r) s = finish s (1 + ea.extWords .L) (.ok ((s1.spend 0).setCcr (compareFlags v (s.dreg r) s.ccr))) := by
  obtain rfl := readEa_ok h
  change finish s _ (readEa .L ea s >>= _) = _
  rw [h, ← stepEa_ccr .L ea s, ← stepEa_dreg .L ea s r]
  rfl

/-- CMPA compares its register, or an open value where its source steps that register (R229). -/
theorem execCmpa_of_read {s s1 : State} {ea : Ea} {v : Word} (r : Reg) (h : readEa .L ea s = .ok (v, s1)) :
    exec (.cmpa ea r) s = finish s (1 + ea.extWords .L) (.ok (if steps ea r
      then (s1.spend 1).setCcr (compareFlags v (s.freeWord 0) s.ccr)
      else (s1.spend 0).setCcr (compareFlags v (s.areg r) s.ccr))) := by
  obtain rfl := readEa_ok h
  change finish s _ (readEa .L ea s >>= _) = _
  rw [h]
  by_cases hs : steps ea r = true
  · rw [if_pos hs, ← stepEa_ccr .L ea s, ← stepEa_freeWord .L ea s 0]
    exact congrArg (finish s _) (if_pos hs)
  · have hne : steppedReg ea ≠ some r := fun e => hs (by simp [steps, e])
    rw [if_neg hs, ← stepEa_ccr .L ea s, ← stepEa_areg_of_not_steps (z := .L) s hne]
    exact congrArg (finish s _) (if_neg hs)

/-- Settles O25: the compares set the compare flags and nothing else. -/
theorem comparesOrderTheirOperands : Obligations.ComparesOrderTheirOperands := by
  refine ⟨fun s s1 ea r v h => ⟨?_, fun hs => ?_, fun hs => ?_⟩, fun s r v => ?_⟩
  · obtain ⟨t, ht, hw, hc⟩ := setCcr_runs 0 (compareFlags v (s.dreg r) s.ccr) (1 + ea.extWords .L) h
    exact ⟨t, (execCmp_of_read r h).trans ht, hw, hc ▸ compareFlags_compares ..⟩
  · obtain ⟨t, ht, hw, hc⟩ := setCcr_runs 0 (compareFlags v (s.areg r) s.ccr) (1 + ea.extWords .L) h
    have he := execCmpa_of_read r h
    rw [hs] at he
    exact ⟨t, he.trans ht, hw, hc ▸ compareFlags_compares ..⟩
  · obtain ⟨t, ht, hw, hc⟩ := setCcr_runs 1 (compareFlags v (s.freeWord 0) s.ccr) (1 + ea.extWords .L) h
    have he := execCmpa_of_read r h
    rw [hs] at he
    exact ⟨t, s.freeWord 0, he.trans ht, hw, hc ▸ compareFlags_compares ..⟩
  · exact ⟨_, rfl, writesNone_setCcr rfl (stepEa_keeps .L (.dn r) s) _ 3, compareFlags_compares ..⟩

/-! ### Logic -/

/-- A two-operand function that works bit for bit and reports its result as R26 has it. -/
structure BitwiseAlu (f : Alu) (g : Bool → Bool → Bool) : Prop where
  bit : ∀ (v d : Word) (c : Ccr) (j : Nat), j < 32 → (f v d c).1.getLsbD j = g (d.getLsbD j) (v.getLsbD j)
  flags : ∀ (v d : Word) (c : Ccr), ResultFlags .L (f v d c).1 c (f v d c).2

theorem andAlu_bitwise : BitwiseAlu andAlu and :=
  ⟨fun _ _ _ _ _ => BitVec.getLsbD_and, fun _ _ _ => logicFlags_resultFlags ..⟩

theorem orAlu_bitwise : BitwiseAlu orAlu or :=
  ⟨fun _ _ _ _ _ => BitVec.getLsbD_or, fun _ _ _ => logicFlags_resultFlags ..⟩

theorem eorAlu_bitwise : BitwiseAlu eorAlu Bool.xor :=
  ⟨fun _ _ _ _ _ => BitVec.getLsbD_xor, fun _ _ _ => logicFlags_resultFlags ..⟩

/-- Settles O26, by the run of a two-operand function into a data register. -/
theorem andOrIntoDataRegister : Obligations.AndOrIntoDataRegister := by
  refine fun s s1 ea r v h => ⟨?_, ?_⟩
  · obtain ⟨t, ht, hw, hc⟩ := aluToDn_runs andAlu r (1 + ea.extWords .L) h
    refine ⟨t, ht, hw.self, fun i => ?_, ?_⟩
    · rw [hw.value]; exact BitVec.getLsbD_and
    · rw [hw.value, hc]; exact andAlu_bitwise.flags ..
  · obtain ⟨t, ht, hw, hc⟩ := aluToDn_runs orAlu r (1 + ea.extWords .L) h
    refine ⟨t, ht, hw.self, fun i => ?_, ?_⟩
    · rw [hw.value]; exact BitVec.getLsbD_or
    · rw [hw.value, hc]; exact orAlu_bitwise.flags ..

/-- The run of a bit-for-bit function on a data register. -/
theorem BitwiseAlu.reg_runs {f : Alu} {g : Bool → Bool → Bool} (hf : BitwiseAlu f g) (v : Word) (r : Reg) (s : State)
    (n : Nat) : ∃ t, finish s n (.ok (aluReg f v r s)) = .next t ∧ WritesDn r (t.dreg r) n s t ∧
      (∀ j, j < 32 → (t.dreg r).getLsbD j = g ((s.dreg r).getLsbD j) (v.getLsbD j)) ∧
      ResultFlags .L (t.dreg r) s.ccr t.ccr := by
  obtain ⟨t, ht, hw, hc⟩ := aluReg_runs f v r s n
  refine ⟨t, ht, hw.self, fun j hj => ?_, ?_⟩
  · rw [hw.value]; exact hf.bit _ _ _ j hj
  · rw [hw.value, hc]; exact hf.flags ..

/-- The run of a bit-for-bit function on memory. -/
theorem BitwiseAlu.mem_runs {f : Alu} {g : Bool → Bool → Bool} (hf : BitwiseAlu f g) (v : Word) (n : Nat) {s s1 : State}
    {ea : Ea} {a : Addr} (h : eaAddr .L ea s = .ok (a, s1)) (hw : s.writable .L a) :
    ∃ t, finish s n (aluToEa f v ea s) = .next t ∧ WritesMem .L ea a (t.readMem .L a) n s t ∧
      (∀ j, j < 32 → (t.readMem .L a).getLsbD j = g ((s.readMem .L a).getLsbD j) (v.getLsbD j)) ∧
      ResultFlags .L (t.readMem .L a) s.ccr t.ccr := by
  obtain ⟨t, ht, hm, hc⟩ := aluToEa_runs f v n h hw
  refine ⟨t, ht, hm.self, fun j hj => ?_, ?_⟩
  · rw [hm.value]; exact hf.bit _ _ _ j hj
  · rw [hm.value, hc]; exact hf.flags ..

/-- Settles O27: five instructions, of which NOT alone is no two-operand function. -/
theorem logicOnRegisters : Obligations.LogicOnRegisters := by
  intro s r y v i w words f hi
  simp only [List.mem_cons, Prod.mk.injEq, List.not_mem_nil, or_false] at hi
  rcases hi with ⟨rfl, rfl, rfl, rfl⟩ | ⟨rfl, rfl, rfl, rfl⟩ | ⟨rfl, rfl, rfl, rfl⟩ | ⟨rfl, rfl, rfl, rfl⟩ |
    ⟨rfl, rfl, rfl, rfl⟩
  · exact andAlu_bitwise.reg_runs _ r s 3
  · exact orAlu_bitwise.reg_runs _ r s 3
  · exact eorAlu_bitwise.reg_runs _ r s 3
  · exact eorAlu_bitwise.reg_runs (s.dreg y) r s 1
  · obtain ⟨t, ht, hw, hc⟩ := setD_runs s r (~~~s.dreg r) (logicFlags .L (~~~s.dreg r) s.ccr) 1
    refine ⟨t, ht, hw.self, fun j hj => ?_, ?_⟩
    · rw [hw.value, BitVec.getLsbD_not]; simp [hj]
    · rw [hw.value, hc]; exact logicFlags_resultFlags ..

/-- Settles O28, by the run of a bit-for-bit function on memory. -/
theorem logicIntoMemory : Obligations.LogicIntoMemory := by
  intro s s1 ea r a i f hi h hw
  simp only [List.mem_cons, Prod.mk.injEq, List.not_mem_nil, or_false] at hi
  rcases hi with ⟨rfl, rfl⟩ | ⟨rfl, rfl⟩ | ⟨rfl, rfl⟩
  · exact andAlu_bitwise.mem_runs (s.dreg r) (1 + ea.extWords .L) h hw
  · exact orAlu_bitwise.mem_runs (s.dreg r) (1 + ea.extWords .L) h hw
  · exact eorAlu_bitwise.mem_runs (s.dreg r) (1 + ea.extWords .L) h hw

end Sys2Proof.Machine
end

section
namespace Sys2Proof.Machine

/-! ### Control transfer -/

/-- Settles O32: the push, then the branch. -/
theorem bsrPushesReturnAddress : Obligations.BsrPushesReturnAddress := by
  intro s d k hk hw
  obtain ⟨u, hu, hp, _⟩ := pushLong_pushes 0 (s.nextPc (1 + d.extWords)) hw
  have hrun : exec (.bsr d) s = .next (u.setPc (branchTarget d s)) := by
    change finishAt s (pushLong _ (s.spend 0) >>= _) = _
    rw [hu]; rfl
  refine ⟨_, hrun, ?_, nextPc_succ s d.extWords ▸ hp.setPc _⟩
  subst hk
  cases d <;> rfl

/-- The address JSR and PEA take: the operand's, or with a mode based on A7 that from the new SP (R229). -/
theorem pushedAddr_of_addresses {s s1 s2 : State} {ea : Ea} {a b : Addr} (hc : EaClass.control.allows ea.kind = true)
    (ha : eaAddr .L ea s = .ok (a, s1)) (hb : eaAddr .L ea (s.setA 7 (s.sp - 4)) = .ok (b, s2)) :
    ∃ c k, pushedAddr ea s = .ok (c, s.spend k) ∧ (c = a ∨ basedOnSp ea = true ∧ c = b) := by
  unfold pushedAddr
  by_cases hsp : basedOnSp ea = true
  · by_cases hf : s.freeBit 0 = true
    · exact ⟨a, 1, by simp only [hsp, hf, if_true, ha, bind, Except.bind], .inl rfl⟩
    · exact ⟨b, 1, by simp only [hsp, if_true, if_neg hf, hb, bind, Except.bind], .inr ⟨hsp, rfl⟩⟩
  · obtain rfl := eaAddr_ok ha
    rw [stepEa_of_steps_none .L s (steppedReg_of_control hc)] at ha
    exact ⟨a, 0, by rw [if_neg hsp]; exact ha, .inl rfl⟩

/-- Settles O34: the address, then the push. -/
theorem jsrAndPeaPush : Obligations.JsrAndPeaPush := by
  intro s s1 s2 ea a b hok hw ha hb
  obtain ⟨c, k, hc, hcab⟩ := pushedAddr_of_addresses (Bool.and_eq_true_iff.1 hok).1 ha hb
  refine ⟨?_, ?_⟩
  · obtain ⟨u, hu, hp, _⟩ := pushLong_pushes k (s.nextPc (1 + ea.extWords .L)) hw
    refine ⟨u.setPc c, ?_, hp.setPc c, hcab⟩
    simp [exec, execJsr, hc, hu, bind, Except.bind]
  · obtain ⟨u, hu, hp, _⟩ := pushLong_pushes k c hw
    refine ⟨u.setPc (s.nextPc (1 + ea.extWords .L)), c, ?_, hp.setPc _, rfl, hcab⟩
    simp [exec, execPea, hc, hu, bind, Except.bind]

end Sys2Proof.Machine
end

section
namespace Sys2Proof.Machine

/-! ### CLR and the sign extensions -/

/-- The three sizes of CLR are one meaning. -/
theorem exec_clear {size : Size} {mk : Ea → Instr}
    (hi : (size, mk) ∈ [(Size.B, Instr.clrB), (.W, .clrW), (.L, .clrL)]) (ea : Ea) (s : State) :
    exec (mk ea) s = finish s (1 + ea.extWords size) (clear size ea s) := by
  simp only [List.mem_cons, Prod.mk.injEq, List.not_mem_nil, or_false] at hi
  rcases hi with ⟨rfl, rfl⟩ | ⟨rfl, rfl⟩ | ⟨rfl, rfl⟩ <;> rfl

/-- Settles O38: CLR writes zero at its size and sets the flags of a zero. -/
theorem clearWritesZero : Obligations.ClearWritesZero := by
  intro s size mk hi
  refine ⟨fun r => ?_, fun ea a s1 h hw => ?_⟩
  · obtain ⟨t, ht, hd, hc⟩ :=
      setD_runs s r (mergeLow size (s.dreg r) 0) { x := s.ccr.x, n := false, z := true, v := false, c := false } 1
    refine ⟨t, (exec_clear hi (.dn r) s).trans ht, hd.self, ?_, hc⟩
    rw [hd.value, mergeLow_toNat]
    simp
  · obtain rfl := eaAddr_ok h
    rw [exec_clear hi, clear, writeEa, writeEaIn_mem h, memWrite_of_writable 0 ((stepEa_writable ..).2 hw)]
    have hm := writesMem_writeMem (z := size) rfl (stepEa_keeps size ea s) a 0
      { x := s.ccr.x, n := false, z := true, v := false, c := false } (1 + ea.extWords size)
    rw [show size.trunc 0 = 0 by cases size <;> rfl] at hm
    exact ⟨_, by simp [bind, Except.bind], hm, rfl⟩

/-- A register sign-extended in place: its low part, at the size written, and the flags of that part. -/
theorem extend_runs (from_ to_ : Size) (r : Reg) (s : State) :
    ∃ t, finish s 1 (.ok (extend from_ to_ r s)) = .next t ∧
      WritesDn r (mergeLow to_ (s.dreg r) (from_.sext (s.dreg r))) 1 s t ∧ ResultFlags to_ (t.dreg r) s.ccr t.ccr := by
  obtain ⟨t, ht, hw, hc⟩ := setD_runs s r (mergeLow to_ (s.dreg r) (from_.sext (s.dreg r)))
    (logicFlags to_ (from_.sext (s.dreg r)) s.ccr) 1
  refine ⟨t, ht, hw, ?_⟩
  rw [hw.value, hc, ← logicFlags_congr s.ccr (trunc_mergeLow to_ (s.dreg r) _)]
  exact logicFlags_resultFlags ..

/-- The words of R201 to R203, and the opmodes beside them that are no instruction. -/
theorem signExtension_words : ∀ r : Reg,
    encode (.extW r) = [BitVec.ofNat 16 (0x4880 + r.val)] ∧ encode (.extL r) = [BitVec.ofNat 16 (0x48C0 + r.val)] ∧
    encode (.extbL r) = [BitVec.ofNat 16 (0x49C0 + r.val)] ∧
    ∀ k ∈ [0x4800, 0x4900, 0x4940, 0x4980], decode [BitVec.ofNat 16 (k + r.val)] = .error .undecodedOpword := by decide

/-- Settles O39, by the run of a register sign-extended in place. -/
theorem signExtensions : Obligations.SignExtensions := by
  intro s r
  obtain ⟨hw, hl, hbl, hrefused⟩ := signExtension_words r
  refine ⟨hw, hl, hbl, hrefused, ?_, ?_, ?_⟩
  · obtain ⟨t, ht, hd, hf⟩ := extend_runs .B .W r s
    refine ⟨t, ht, hd.self, ?_, ?_, hf⟩
    · have hlow : (t.dreg r).setWidth 16 = ((s.dreg r).setWidth 8).signExtend 16 := by
        rw [hd.value]
        apply BitVec.eq_of_getLsbD_eq; intro i hi
        simp only [mergeLow, Size.sext, BitVec.getLsbD_setWidth, BitVec.getLsbD_append, BitVec.getLsbD_extractLsb',
          BitVec.getLsbD_signExtend]
        simp [hi, show i < 32 by omega]
      rw [hlow, BitVec.toInt_signExtend_of_le (by decide)]
    · have := BitVec.isLt (Size.B.sext (s.dreg r))
      rw [hd.value, mergeLow_toNat]
      simp only [Size.bytes]
      omega
  · obtain ⟨t, ht, hd, hf⟩ := extend_runs .W .L r s
    refine ⟨t, ht, hd.self, ?_, hf⟩
    rw [hd.value]
    exact BitVec.toInt_signExtend_of_le (by decide)
  · obtain ⟨t, ht, hd, hf⟩ := extend_runs .B .L r s
    refine ⟨t, ht, hd.self, ?_, hf⟩
    rw [hd.value]
    exact BitVec.toInt_signExtend_of_le (by decide)

/-! ### MOVE and MOVEA -/

/-- The three sizes of MOVE are one meaning. -/
theorem exec_move {size : Size} {mk : Ea → Ea → Instr}
    (hi : (size, mk) ∈ [(Size.B, Instr.moveB), (.W, .moveW), (.L, .moveL)]) (src dst : Ea) (s : State) :
    exec (mk src dst) s = finish s (1 + src.extWords size + dst.extWords size) (move size src dst s) := by
  simp only [List.mem_cons, Prod.mk.injEq, List.not_mem_nil, or_false] at hi
  rcases hi with ⟨rfl, rfl⟩ | ⟨rfl, rfl⟩ | ⟨rfl, rfl⟩ <;> rfl

/-- A MOVE of which R229 leaves nothing open: the source read, then the destination written. -/
theorem move_of_read {s s1 : State} {size : Size} {src dst : Ea} {v : Word}
    (hst : storesSteppedSource size src dst = false) (hsd : indexOpen src dst = false) (hds : indexOpen dst src = false)
    (h : readEa size src s = .ok (v, s1)) :
    move size src dst s = (writeEa size dst v s1).map fun t => t.setCcr (logicFlags size v t.ccr) := by
  have h' : readEaIn s size src s = .ok (v, s1) := h
  simp only [move, hst, hsd, hds, Bool.false_and, Bool.or_self, Bool.false_eq_true, if_false, h', bind, Except.bind, writeEa]
  cases writeEaIn s1 size dst v s1 <;> rfl

/-- No open case of R229 has a data register for its destination. -/
theorem move_dn_not_open (size : Size) (src : Ea) (r : Reg) : storesSteppedSource size src (.dn r) = false ∧
    indexOpen src (.dn r) = false ∧ indexOpen (.dn r) src = false := by
  refine ⟨?_, rfl, ?_⟩
  · cases src <;> simp [storesSteppedSource, steps, steppedReg]
  · cases src <;> rfl

/-- Settles O41: with a data register for its destination MOVE has no open case, and merges the low part. -/
theorem moveIntoDataRegister : Obligations.MoveIntoDataRegister := by
  intro s s1 size mk src r v hi h
  obtain ⟨hst, hsd, hds⟩ := move_dn_not_open size src r
  have hv := readEa_lt h
  have hmove := move_of_read hst hsd hds h
  obtain rfl := readEa_ok h
  have hw := writesDnFrom_setD size src s r (mergeLow size (s.dreg r) v) (logicFlags size v s.ccr) (1 + src.extWords size)
  refine ⟨_, ?_, hw.self, ?_, logicFlags_resultFlags ..⟩
  · rw [exec_move hi, hmove, writeEa_dn]
    simp only [Except.map, State.setDLow, stepEa_dreg, State.setD_ccr, stepEa_ccr]
    rfl
  · rw [hw.value, mergeLow_toNat, Nat.mod_eq_of_lt hv]

/-- Settles O42: the destination's address is formed in the state the source's step leaves. -/
theorem moveIntoMemory : Obligations.MoveIntoMemory := by
  intro s s1 s2 size mk src dst v a hi hst hsd hds h ha hw
  have hv := readEa_trunc h
  have hmove := move_of_read hst hsd hds h
  obtain rfl := readEa_ok h
  obtain rfl := eaAddr_ok ha
  have hw' : (stepEa size dst (stepEa size src s)).writable size a := by simpa using hw
  rw [exec_move hi, hmove, writeEa, writeEaIn_mem ha, memWrite_of_writable v hw']
  have hk : Keeps s (stepEa size dst (stepEa size src s)) [] (stepped src ++ stepped dst) (accessBytes size a) :=
    ((Keeps.refl s ..).stepEa (List.subset_append_left ..) size).stepEa (List.subset_append_right ..) size
  refine ⟨_, rfl, ?_, ?_, State.writeMem_a .., rfl, ((hk.writeMem (List.Subset.refl _) v).setCcr _).setPc _⟩
  · exact (State.writeMem_readMem_self _ size a v).trans hv
  · simpa using logicFlags_resultFlags size v s.ccr

/-- What a MOVE into memory with a free value drawn leaves: the store, the flags of the value, one operand's step. -/
theorem writesMem_spent {size : Size} {ea : Ea} {a : Addr} {v : Word} {s : State} (n : Nat) (hv : size.trunc v = v) :
    WritesMem size ea a v n s (((((stepEa size ea s).spend 1).writeMem size a v).setCcr (logicFlags size v s.ccr)).setPc
      (s.nextPc n)) := by
  have h := writesMem_writeMem (u := (stepEa size ea s).spend 1) rfl ((stepEa_keeps size ea s).spend 1) a v
    (logicFlags size v s.ccr) n
  rwa [hv] at h

/-- The run of a MOVE from what it reads, to the address it forms with one free value drawn. -/
theorem move_open_runs {s u : State} {size : Size} {src dst ea : Ea} {v : Word} {a : Addr} {dstView : State} (n : Nat)
    (hmove : move size src dst s =
      (writeEaIn dstView size dst v (u.spend 1)).map fun t => t.setCcr (logicFlags size v t.ccr))
    (ha : eaAddrIn dstView size dst u = .ok (a, stepEa size ea s)) (hv : size.trunc v = v) (hw : s.writable size a) :
    ∃ t, finish s n (move size src dst s) = .next t ∧ WritesMem size ea a v n s t ∧ ResultFlags size v s.ccr t.ccr := by
  have hw' : ((stepEa size ea s).spend 1).writable size a := (stepEa_writable size ea s size a).2 hw
  rw [hmove, writeEaIn_mem (eaAddrIn_spend 1 ha), memWrite_of_writable v hw']
  refine ⟨_, ?_, writesMem_spent n hv, logicFlags_resultFlags ..⟩
  simp [Except.map]

theorem indexOpen_of_not_stepping {indexed stepping : Ea} (h : steppedReg stepping = none) :
    indexOpen indexed stepping = false := by
  simp [indexOpen, h]

/-- Where an index is open, the operand that steps its register is `(An)+` or `-(An)`, and the indexed one steps none. -/
theorem indexOpen_operands {indexed stepping : Ea} (h : indexOpen indexed stepping = true) :
    steppedReg indexed = none ∧ (∀ z dst, storesSteppedSource z indexed dst = false) ∧
      ∀ z dst, storesSteppedSource z stepping dst = false := by
  have hindexed : ∀ r, indexedBy indexed r = true →
      steppedReg indexed = none ∧ ∀ z dst, storesSteppedSource z indexed dst = false := by
    intro r hr
    cases indexed with
    | index q x => exact ⟨rfl, fun _ _ => rfl⟩
    | pcIndex x => exact ⟨rfl, fun _ _ => rfl⟩
    | _ => cases hr
  cases stepping with
  | postinc r => exact ⟨(hindexed r h).1, (hindexed r h).2, fun _ _ => rfl⟩
  | predec r => exact ⟨(hindexed r h).1, (hindexed r h).2, fun _ _ => rfl⟩
  | _ => cases h

/-- MOVE.L of an address register through its own step stores a free value. -/
theorem move_stepped_source {s : State} {y : Reg} {dst : Ea} (h : steps dst y = true) :
    move .L (.an y) dst s =
      (writeEaIn s .L dst (s.freeWord 0) (s.spend 1)).map fun t => t.setCcr (logicFlags .L (s.freeWord 0) t.ccr) := by
  have hst : storesSteppedSource .L (.an y) dst = true := by simp [storesSteppedSource, h]
  have hds : indexOpen dst (.an y) = false := rfl
  have hsd : indexOpen (.an y) dst = false := by cases dst <;> rfl
  simp only [move, hst, hds, hsd, Bool.false_and, Bool.true_or, Bool.false_eq_true, if_false, if_true, readEaIn, bind,
    Except.bind]
  cases writeEaIn s .L dst (s.freeWord 0) (s.spend 1) <;> rfl

/-- A destination indexed by the register the source steps: the index is read before or after the step. -/
theorem move_open_destination {s s1 : State} {size : Size} {src dst : Ea} {v : Word} (h : indexOpen dst src = true)
    (hr : readEa size src s = .ok (v, s1)) :
    move size src dst s =
      (writeEaIn (if s.freeBit 0 then s else s1) size dst v (s1.spend 1)).map
        fun t => t.setCcr (logicFlags size v t.ccr) := by
  obtain ⟨hdst, _, hst⟩ := indexOpen_operands h
  have hr' : readEaIn s size src s = .ok (v, s1) := hr
  simp only [move, h, hst size dst, indexOpen_of_not_stepping hdst, Bool.false_and, Bool.true_and, Bool.or_true,
    Bool.false_eq_true, if_false, if_true, hr', bind, Except.bind]
  cases writeEaIn (if s.freeBit 0 = true then s else s1) size dst v (s1.spend 1) <;> rfl

/-- A source indexed by the register the destination steps: the index is read before or after the step. -/
theorem move_open_source {s s1 : State} {size : Size} {src dst : Ea} {v : Word} (h : indexOpen src dst = true)
    (hr : readEaIn (if s.freeBit 0 then stepEa size dst s else s) size src s = .ok (v, s1)) :
    move size src dst s =
      (writeEaIn s1 size dst v (s1.spend 1)).map fun t => t.setCcr (logicFlags size v t.ccr) := by
  obtain ⟨hsrc, hst, _⟩ := indexOpen_operands h
  simp only [move, h, hst size dst, indexOpen_of_not_stepping hsrc, Bool.false_and, Bool.true_and, Bool.or_false,
    Bool.or_true, Bool.false_eq_true, if_false, if_true, hr, bind, Except.bind]
  cases writeEaIn s1 size dst v (s1.spend 1) <;> rfl

/-- Settles O43: each open case by its own equation of the meaning, then one run for all three. -/
theorem openMovesComplete : Obligations.OpenMovesComplete := by
  refine ⟨fun s s1 y dst a hs ha hw => ?_, fun s size mk src dst hi => ⟨?_, ?_⟩⟩
  · obtain rfl := eaAddr_ok ha
    obtain ⟨t, ht, hm, hf⟩ := move_open_runs 1 (move_stepped_source hs) ha rfl hw
    have hwords : dst.extWords .L = 0 := by
      cases dst with
      | postinc r => rfl
      | predec r => rfl
      | _ => cases hs
    refine ⟨t, s.freeWord 0, ?_, hm, hf⟩
    change finish s (1 + 0 + dst.extWords .L) _ = _
    rw [hwords]
    exact ht
  · intro s1 s2 s3 v a b ho hr ha hb hwa hwb
    have hdst := stepEa_of_steps_none size s1 (indexOpen_operands ho).1
    have hmove := move_open_destination ho hr
    have hv := readEa_trunc hr
    obtain rfl := eaAddrIn_ok ha
    obtain rfl := eaAddrIn_ok hb
    rw [hdst] at ha hb
    obtain rfl := readEa_ok hr
    simp only [exec_move hi]
    by_cases hf : s.freeBit 0 = true
    · rw [if_pos hf] at hmove
      obtain ⟨t, ht, hm⟩ := move_open_runs (1 + src.extWords size + dst.extWords size) hmove ha hv hwa
      exact ⟨t, a, .inl rfl, ht, hm⟩
    · rw [if_neg hf] at hmove
      obtain ⟨t, ht, hm⟩ := move_open_runs (1 + src.extWords size + dst.extWords size) hmove hb hv hwb
      exact ⟨t, b, .inr rfl, ht, hm⟩
  · intro s1 s2 s3 v w a ho hr hr' ha hwa
    have hsrc := stepEa_of_steps_none size s (indexOpen_operands ho).1
    obtain rfl := (readEaIn_ok hr).trans hsrc
    obtain rfl := (readEaIn_ok hr').trans hsrc
    obtain rfl := eaAddr_ok ha
    simp only [exec_move hi]
    by_cases hf : s2.freeBit 0 = true
    · have hmove := move_open_source (v := w) (s1 := s2) ho (by rw [if_pos hf]; exact hr')
      obtain ⟨t, ht, hm⟩ :=
        move_open_runs (1 + src.extWords size + dst.extWords size) hmove ha (readEaIn_trunc hr') hwa
      exact ⟨t, w, .inr rfl, ht, hm⟩
    · have hmove := move_open_source (v := v) (s1 := s2) ho (by rw [if_neg hf]; exact hr)
      obtain ⟨t, ht, hm⟩ :=
        move_open_runs (1 + src.extWords size + dst.extWords size) hmove ha (readEaIn_trunc hr) hwa
      exact ⟨t, v, .inl rfl, ht, hm⟩

theorem moveAddress_of_read {s s1 : State} {size : Size} {src : Ea} {v : Word} (r : Reg)
    (h : readEa size src s = .ok (v, s1)) : moveAddress size src r s = .ok ((stepEa size src s).setA r (size.sext v)) := by
  obtain rfl := readEa_ok h
  simp [moveAddress, h, bind, Except.bind]

/-- Settles O44: the loaded value is written after the source's step. -/
theorem moveaWritesWholeRegister : Obligations.MoveaWritesWholeRegister := by
  refine fun s s1 src r v => ⟨fun h => ?_, fun h => ?_⟩
  · refine ⟨_, ?_, writesAnFrom_setA .W src s r _ (1 + src.extWords .W)⟩
    change finish s _ (moveAddress .W src r s) = _
    rw [moveAddress_of_read r h]
    rfl
  · refine ⟨_, ?_, writesAnFrom_setA .L src s r _ (1 + src.extWords .L)⟩
    change finish s _ (moveAddress .L src r s) = _
    rw [moveAddress_of_read r h]
    rfl

/-! ### The CCR moves, Scc, SWAP -/

theorem ccr_toByte_toNat (c : Ccr) : c.toByte.toNat =
    16 * c.x.toNat + 8 * c.n.toNat + 4 * c.z.toNat + 2 * c.v.toNat + c.c.toNat := by
  have h : ∀ x n z v c : Bool, (Ccr.toByte ⟨x, n, z, v, c⟩).toNat =
    16 * x.toNat + 8 * n.toNat + 4 * z.toNat + 2 * v.toNat + c.toNat := by decide
  exact h ..

/-- The five flags taken from a value are its bits 4..0 (R25). -/
theorem ccr_ofBits_toNat (v : Word) : v.toNat % 32 = 16 * (Ccr.ofBits v).x.toNat + 8 * (Ccr.ofBits v).n.toNat +
    4 * (Ccr.ofBits v).z.toNat + 2 * (Ccr.ofBits v).v.toNat + (Ccr.ofBits v).c.toNat := by
  have bit : ∀ i, (v.getLsbD i).toNat = v.toNat / 2 ^ i % 2 := fun i => Nat.toNat_testBit ..
  simp only [Ccr.ofBits, bit]
  omega

theorem ccrMove_words : ∀ r : Reg, encode (.moveFromCcr r) = [BitVec.ofNat 16 (0x42C0 + r.val)] ∧
    encode (.moveToCcr (.dn r)) = [BitVec.ofNat 16 (0x44C0 + r.val)] := by decide

/-- Settles O45: the CCR as a number, and the flags taken back from one. -/
theorem ccrMoves : Obligations.CcrMoves := by
  refine ⟨ccrMove_words, fun v => ?_, fun s => ⟨fun r => ?_, fun src v s1 hok h => ?_⟩⟩
  · have hword : (v.setWidth 32).extractLsb' 0 16 = v := by
      apply BitVec.eq_of_getLsbD_eq; intro i hi
      simp [hi, show i < 32 by omega]
    change [mkOp 4 2 3 7 4, _] = _
    rw [hword]
    exact congrArg (· :: [v]) (by decide)
  · obtain ⟨t, ht, hw, hc⟩ := setD_runs s r (mergeLow .W (s.dreg r) (s.ccr.toByte.setWidth 32)) s.ccr 1
    refine ⟨t, ht, hw.self, hc, ?_⟩
    have := s.ccr.toByte.isLt
    rw [hw.value, mergeLow_toNat, ← ccr_toByte_toNat, BitVec.toNat_setWidth]
    simp only [Size.bytes]
    omega
  · have hsrc := stepEa_of_steps_none .W s (steppedReg_of_ccrSource (Bool.and_eq_true_iff.1 hok).1)
    obtain rfl := (readEa_ok h).trans hsrc
    refine ⟨(s1.setCcr (Ccr.ofBits v)).setPc (s1.nextPc (1 + src.extWords .W)), ?_, rfl,
      ((Keeps.refl ..).setCcr _).setPc _, ccr_ofBits_toNat v⟩
    simp [exec, execMoveToCcr, h, bind, Except.bind]

theorem scc_words : ∀ (cc : Cond) (r : Reg),
    (encode (.scc cc r)).map BitVec.toNat = [0x50C0 + 256 * cc.toBits.toNat + r.val] := by
  intro cc
  cases cc <;> decide

/-- Settles O49: a byte write of 0xFF or 0. -/
theorem setOnConditionWritesByte : Obligations.SetOnConditionWritesByte := by
  refine fun s cc r => ⟨scc_words cc r, ?_⟩
  obtain ⟨t, ht, hw, hc⟩ := setD_runs s r (mergeLow .B (s.dreg r) (if s.ccr.test cc then 0xFF else 0)) s.ccr 1
  refine ⟨t, ht, hw.self, hc, ?_⟩
  rw [hw.value, mergeLow_toNat]
  split <;> rfl

/-- Settles O50: a case for each encoding. -/
theorem conditionsFollowTheTable : Obligations.ConditionsFollowTheTable := by
  rintro ⟨x, n, z, v, c⟩
  refine ⟨fun k b hk => ?_, fun cc b => ?_⟩
  · simp only [List.mem_cons, Prod.mk.injEq, List.not_mem_nil, or_false] at hk
    have table : ∀ n z v c : Bool, (n && v || !n && !v) = (n == v) ∧ (n && !v || !n && v) = (n != v) ∧
      (n && v && !z || !n && !v && !z) = (!z && n == v) ∧ (z || n && !v || !n && v) = (z || n != v) := by decide
    obtain ⟨hge, hlt, hgt, hle⟩ := table n z v c
    rcases hk with h | h | h | h | h | h | h | h | h | h | h | h | h | h | h | h <;> obtain ⟨rfl, rfl⟩ := h
    exacts [rfl, rfl, rfl, rfl, rfl, rfl, rfl, rfl, rfl, rfl, rfl, rfl, hge, hlt, hgt, hle]
  · cases cc <;> rfl

theorem swap_words : ∀ r : Reg, encode (.swap r) = [BitVec.ofNat 16 (0x4840 + r.val)] := by decide

/-- Settles O51: a register write of the two halves in the other order. -/
theorem swapExchangesWords : Obligations.SwapExchangesWords := by
  intro s r
  have hlt := (s.dreg r).isLt
  obtain ⟨t, ht, hw, hc⟩ := setD_runs s r ((s.dreg r).extractLsb' 0 16 ++ (s.dreg r).extractLsb' 16 16)
    (logicFlags .L ((s.dreg r).extractLsb' 0 16 ++ (s.dreg r).extractLsb' 16 16) s.ccr) 1
  refine ⟨swap_words r, t, ht, hw.self, ?_, ?_⟩
  · rw [hw.value]
    simp only [BitVec.toNat_append, BitVec.extractLsb'_toNat, Nat.shiftRight_eq_div_pow]
    rw [← Nat.shiftLeft_add_eq_or_of_lt (Nat.mod_lt _ (by decide)), Nat.shiftLeft_eq]
    omega
  · rw [hw.value, hc]
    exact logicFlags_resultFlags ..

/-! ### TST, and what an operand read is -/

theorem exec_test {size : Size} {mk : Ea → Instr}
    (hi : (size, mk) ∈ [(Size.B, Instr.tstB), (.W, .tstW), (.L, .tstL)]) (ea : Ea) (s : State) :
    exec (mk ea) s = finish s (1 + ea.extWords size) (test size ea s) := by
  simp only [List.mem_cons, Prod.mk.injEq, List.not_mem_nil, or_false] at hi
  rcases hi with ⟨rfl, rfl⟩ | ⟨rfl, rfl⟩ | ⟨rfl, rfl⟩ <;> rfl

theorem test_of_read {s s1 : State} {size : Size} {ea : Ea} {v : Word} (h : readEa size ea s = .ok (v, s1)) :
    test size ea s = .ok ((s1.spend 0).setCcr (logicFlags size v s.ccr)) := by
  obtain rfl := readEa_ok h
  simp only [test, h, bind, Except.bind, stepEa_ccr]
  rfl

theorem readEa_of_readable {s s1 : State} {size : Size} {ea : Ea} {a : Addr} (h : eaAddr size ea s = .ok (a, s1))
    (hr : s.readable size a) : readEa size ea s = .ok (s.readMem size a, s1) := by
  obtain rfl := eaAddr_ok h
  rw [readEa, readEaIn_mem h, memRead_of_readable ((stepEa_readable ..).2 hr), stepEa_readMem]
  rfl

/-- The step of R62. -/
theorem stepOf_eq (s : State) (size : Size) (r : Reg) : s.stepOf size r = (match size with
    | .B => if r = 7 ∧ s.config.a7ByteStep = .two then 2 else 1
    | .W => 2
    | .L => 4) := by
  cases size with
  | B =>
    by_cases hr : r = 7
    · cases hc : s.config.a7ByteStep <;> simp [State.stepOf, hr, hc]
    · simp [State.stepOf, hr, Size.bytes]
  | W => rfl
  | L => rfl

/-- A control operand has an address at every size, the same at each, and steps no register. -/
theorem eaAddr_of_control (s : State) (size : Size) {ea : Ea} (h : EaClass.control.allows ea.kind = true) :
    ∃ a, eaAddr size ea s = .ok (a, s) ∧ eaAddr .L ea s = .ok (a, s) := by
  cases ea with
  | dn r => cases h
  | an r => cases h
  | postinc r => cases h
  | predec r => cases h
  | imm v => cases h
  | _ => exact ⟨_, rfl, rfl⟩

/-- Settles O52: the run of TST, then the rules of its source one by one. -/
theorem testSetsFlagsOnly : Obligations.TestSetsFlagsOnly := by
  refine ⟨fun s s1 size mk ea v hi h => ?_, fun s size => ⟨fun r x ea hx => ?_, fun ea a s1 h hr => readEa_of_readable h hr,
    fun r k hk => ?_, fun ea h => eaAddr_of_control s size h, fun ea h => stepEa_of_steps_none size s ?_⟩⟩
  · obtain ⟨t, ht, hw, hc⟩ := setCcr_runs 0 (logicFlags size v s.ccr) (1 + ea.extWords size) h
    refine ⟨t, ?_, hw, hc ▸ logicFlags_resultFlags ..⟩
    rw [exec_test hi, test_of_read h]
    exact ht
  · simp only [List.mem_cons, Prod.mk.injEq, List.not_mem_nil, or_false] at hx
    rcases hx with ⟨rfl, rfl⟩ | ⟨rfl, rfl⟩ | ⟨rfl, -⟩ <;> exact ⟨_, rfl, trunc_toNat ..⟩
  · obtain rfl : k = s.stepOf size r := hk.trans (stepOf_eq s size r).symm
    exact ⟨rfl, rfl, rfl, rfl⟩
  · cases ea with
    | postinc r => exact absurd rfl (h r).1
    | predec r => exact absurd rfl (h r).2
    | _ => rfl

/-! ### Multiply -/

/-- The run of a multiply from a source that can be read. -/
theorem multiply_runs {s s1 : State} {size : Size} {ea : Ea} {v : Word} (f : Word → Word → Word) (r : Reg) (n : Nat)
    (h : readEa size ea s = .ok (v, s1)) :
    ∃ t, finish s n (multiply size f ea r s) = .next t ∧ WritesDnFrom size ea r (f (s.dreg r) v) n s t ∧
      ResultFlags .L (t.dreg r) s.ccr t.ccr := by
  obtain rfl := readEa_ok h
  have hw := writesDnFrom_setD size ea s r (f (s.dreg r) v) (logicFlags .L (f (s.dreg r) v) s.ccr) n
  refine ⟨_, ?_, hw, ?_⟩
  · simp only [multiply, h, bind, Except.bind, stepEa_dreg, stepEa_ccr, finish_ok]
  · rw [hw.value]
    exact logicFlags_resultFlags ..

/-- The product of two signed words fits a long. -/
theorem mulsWord_toInt (d v : Word) : (mulsWord d v).toInt = (d.setWidth 16).toInt * (v.setWidth 16).toInt := by
  rw [mulsWord, BitVec.toInt_ofInt, lowWord, lowWord]
  have bound : ∀ x : Word16, -2 ^ 15 ≤ x.toInt ∧ x.toInt ≤ 2 ^ 15 := fun x => by
    have h1 := x.le_toInt
    have h2 := x.toInt_lt
    omega
  obtain ⟨d1, d2⟩ := bound (d.setWidth 16)
  obtain ⟨v1, v2⟩ := bound (v.setWidth 16)
  have habs : |(d.setWidth 16).toInt * (v.setWidth 16).toInt| ≤ 2 ^ 15 * 2 ^ 15 := by
    rw [abs_mul]
    exact mul_le_mul (abs_le.2 ⟨d1, d2⟩) (abs_le.2 ⟨v1, v2⟩) (abs_nonneg _) (by norm_num)
  obtain ⟨h1, h2⟩ := abs_le.1 habs
  exact Int.bmod_eq_of_le (by omega) (by omega)

/-- The product of two unsigned words fits a long. -/
theorem muluWord_toNat (d v : Word) : (muluWord d v).toNat = (d.setWidth 16).toNat * (v.setWidth 16).toNat := by
  rw [muluWord, BitVec.toNat_ofNat, lowWord, lowWord]
  have h := Nat.mul_lt_mul'' (d.setWidth 16).isLt (v.setWidth 16).isLt
  exact Nat.mod_eq_of_lt (by omega)

theorem mulsLong_eq (d v : Word) : mulsLong d v = d * v := by
  rw [mulsLong, BitVec.ofInt_mul, BitVec.ofInt_toInt, BitVec.ofInt_toInt]

theorem muluLong_eq (d v : Word) : muluLong d v = d * v := by
  rw [muluLong, BitVec.ofNat_mul, BitVec.ofNat_toNat, BitVec.ofNat_toNat, BitVec.setWidth_eq, BitVec.setWidth_eq]

/-- Settles O53, by the run of a multiply and the value of each product. -/
theorem multipliesGiveTheProduct : Obligations.MultipliesGiveTheProduct := by
  refine fun s s1 ea r v => ⟨fun h => ⟨?_, ?_⟩, fun h i hi => ?_⟩
  · obtain ⟨t, ht, hw, hf⟩ := multiply_runs mulsWord r (1 + ea.extWords .W) h
    exact ⟨t, ht, hw.self, hw.value ▸ mulsWord_toInt .., hf⟩
  · obtain ⟨t, ht, hw, hf⟩ := multiply_runs muluWord r (1 + ea.extWords .W) h
    exact ⟨t, ht, hw.self, hw.value ▸ muluWord_toNat .., hf⟩
  · simp only [List.mem_cons, List.not_mem_nil, or_false] at hi
    rcases hi with rfl | rfl
    · obtain ⟨t, ht, hw, hf⟩ := multiply_runs mulsLong r (2 + ea.extWords .L) h
      exact ⟨t, ht, hw.self, by rw [hw.value, mulsLong_eq, BitVec.toNat_mul], hf⟩
    · obtain ⟨t, ht, hw, hf⟩ := multiply_runs muluLong r (2 + ea.extWords .L) h
      exact ⟨t, ht, hw.self, by rw [hw.value, muluLong_eq, BitVec.toNat_mul], hf⟩

end Sys2Proof.Machine
end

/-! # Memory and its faults: the statements of the family of memory

The invariant over a step, stores read back, the ends of a fetch, branches and jumps, bits of a byte in memory; then a fault
met while an exception is taken, and the exception or refusal of a read and of a store that cannot be performed,
instruction by instruction. -/

section
namespace Sys2Proof.Machine

/-! ### The invariant (R40, R51, R265) -/

/-- Settles O3: a step carries the invariant over, or it has entered an exception, which keeps both of its parts. -/
theorem stepKeepsInvariant : Obligations.StepKeepsInvariant := by
  intro s t ⟨hwf, hvbr⟩ h
  obtain hc | ⟨_, he⟩ := step_next_cases h
  · exact ⟨hc.wf hwf, hc.vbr ▸ hvbr⟩
  · exact ⟨he.wf hwf, he.vbr ▸ hvbr⟩

/-! ### The parts of a long in memory (R41, R44) -/

theorem byte_append_toNat {w : Nat} (x : BitVec w) (y : Byte) : (x ++ y).toNat = x.toNat * 256 + y.toNat := by
  rw [BitVec.toNat_append, ← Nat.shiftLeft_add_eq_or_of_lt y.isLt, Nat.shiftLeft_eq]

/-- A long is the sum of its four bytes, the most significant first. -/
theorem readMem_long_toNat (s : State) (a : Addr) : (s.readMem .L a).toNat =
    (((s.byteAt a).toNat * 256 + (s.byteAt (a + 1)).toNat) * 256 + (s.byteAt (a + 2)).toNat) * 256 +
      (s.byteAt (a + 3)).toNat := by
  simp only [State.readMem, byte_append_toNat]

theorem readMem_word_toNat (s : State) (a : Addr) :
    (s.readMem .W a).toNat = (s.byteAt a).toNat * 256 + (s.byteAt (a + 1)).toNat := by
  rw [State.readMem, BitVec.toNat_setWidth_of_le (by decide), byte_append_toNat]

theorem readMem_byte_toNat (s : State) (a : Addr) : (s.readMem .B a).toNat = (s.byteAt a).toNat := by
  rw [State.readMem, BitVec.toNat_setWidth_of_le (by decide)]

/-- The words of a long: the more significant at its address, the other two bytes on. -/
theorem readMem_words_of_long (s : State) (a : Addr) :
    s.readMem .W a = s.readMem .L a >>> 16 ∧ s.readMem .W (a + 2) = s.readMem .L a &&& 0xFFFF := by
  have h3 : a + 2 + 1 = a + 3 := by bv_omega
  constructor <;> apply BitVec.eq_of_toNat_eq
  · simp only [readMem_word_toNat, BitVec.toNat_ushiftRight, readMem_long_toNat, Nat.shiftRight_eq_div_pow]
    omega
  · have hmask : (0xFFFF : Word).toNat = 2 ^ 16 - 1 := rfl
    rw [BitVec.toNat_and, hmask, Nat.and_two_pow_sub_one_eq_mod, readMem_word_toNat, readMem_long_toNat, h3]
    omega

/-- The bytes of a long, the most significant at its address. -/
theorem readMem_bytes_of_long (s : State) (a : Addr) {k : Nat} (hk : k < 4) :
    s.readMem .B (a + BitVec.ofNat 32 k) = (s.readMem .L a >>> (8 * (3 - k))) &&& 0xFF := by
  have hmask : (0xFF : Word).toNat = 2 ^ 8 - 1 := rfl
  apply BitVec.eq_of_toNat_eq
  rw [BitVec.toNat_and, hmask, Nat.and_two_pow_sub_one_eq_mod, readMem_byte_toNat, BitVec.toNat_ushiftRight,
    readMem_long_toNat, Nat.shiftRight_eq_div_pow]
  interval_cases k
  · have h0 : a + BitVec.ofNat 32 0 = a := BitVec.add_zero a
    rw [h0]; omega
  · change (s.byteAt (a + 1)).toNat = _; omega
  · change (s.byteAt (a + 2)).toNat = _; omega
  · change (s.byteAt (a + 3)).toNat = _; omega

/-- Settles O6: what was stored is read back, and its parts are those of the long read. -/
theorem storeThenLoadIsBigEndian : Obligations.StoreThenLoadIsBigEndian := by
  intro s a v
  have hlong : (s.writeMem .L a v).readMem .L a = v := State.writeMem_readMem_self s .L a v
  obtain ⟨hhigh, hlow⟩ := readMem_words_of_long (s.writeMem .L a v) a
  refine ⟨fun size => ⟨State.writeMem_readMem_self s size a v, State.writeMem_byteAt_of_notMem s size a v⟩, ?_, ?_,
    fun k hk => ?_⟩
  · rw [hhigh, hlong]
  · rw [hlow, hlong]
  · rw [readMem_bytes_of_long _ a hk, hlong]

/-! ### Fetching (R43, R46, R263) -/

theorem step_of_fetch_raised {s t : State} {e : Exception} (h : fetchInstr s = .error (.raised e t)) :
    step s = takeException e s t := by
  rw [step, h]

theorem step_of_odd_pc {s : State} (h : s.pc.getLsbD 0 = true) : step s = takeException (.addressError s.pc) s s :=
  step_of_fetch_raised (if_pos h)

theorem fetchWord_of_unmapped {s : State} {a : Addr} (h : ¬ (s.mapped a = true ∧ s.mapped (a + 1) = true)) :
    fetchWord a s = .error (.raised (.accessError .fetch a) s) :=
  if_neg (by simpa [accessBytes] using h)

/-- The opword is the first word fetched, at the pc. -/
theorem fetchInstr_of_unmapped_opword {s : State} (hpc : s.pc.getLsbD 0 = false)
    (h : ¬ (s.mapped s.pc = true ∧ s.mapped (s.pc + 1) = true)) :
    fetchInstr s = .error (.raised (.accessError .fetch s.pc) s) := by
  have hd : decode [] = .error .truncated := rfl
  have hn : s.nextPc ([] : List Word16).length = s.pc := BitVec.add_zero s.pc
  rw [fetchInstr, hpc, if_neg Bool.false_ne_true, fetchFrom, hd]
  simp only [hn, fetchWord_of_unmapped h, bind, Except.bind]

/-- Settles O13: the two ends of a fetch before the opword is known. -/
theorem fetchFaults : Obligations.FetchFaults := by
  refine fun s => ⟨fun hodd => ?_, fun heven hmap => ?_⟩
  · have h := step_of_odd_pc hodd
    exact ⟨h, fun hm => h.trans (takeException_terminal hm)⟩
  · have h := step_of_fetch_raised (fetchInstr_of_unmapped_opword heven hmap)
    exact ⟨h, fun hm => h.trans (takeException_terminal hm)⟩

/-! ### Branches -/

/-- Settles O31: the pc alone is written. -/
theorem branchesTransferToTheirTarget : Obligations.BranchesTransferToTheirTarget := by
  intro s d k hk
  have ht : branchTarget d s = s.pc + 2 + BitVec.ofInt 32 k := by
    subst hk
    cases d <;> rfl
  refine ⟨⟨_, rfl, ht, rfl, (Keeps.refl s ..).setPc _⟩, fun cc => ⟨_, rfl, ?_, rfl, (Keeps.refl s ..).setPc _⟩⟩
  rw [State.setPc_pc, ht, nextPc_succ]

end Sys2Proof.Machine
end

section
namespace Sys2Proof.Machine

/-! ### JMP and LEA in the control modes -/

/-- By how much a scale multiplies the index (R84). -/
def scaleFactor : Scale → Nat
  | .x1 => 1
  | .x2 => 2
  | .x4 => 4

theorem scaleFactor_eq (c : Scale) : scaleFactor c = 2 ^ Scale.shift c := by
  cases c <;> rfl

/-- The index register multiplied by its scale (R84). -/
theorem indexValue_eq (x : IndexWord) (s : State) : indexValue x s =
    BitVec.ofNat 32 ((if x.isAddr then s.areg x.reg else s.dreg x.reg).toNat * scaleFactor x.scale) := by
  apply BitVec.eq_of_toNat_eq
  rw [indexValue, BitVec.toNat_shiftLeft, BitVec.toNat_ofNat, Nat.shiftLeft_eq, scaleFactor_eq]

theorem eaAddr_index (z : Size) (r : Reg) (x : IndexWord) (s : State) : eaAddr z (.index r x) s =
    .ok (s.areg r + BitVec.ofInt 32 x.d8.toInt +
      BitVec.ofNat 32 ((if x.isAddr then s.areg x.reg else s.dreg x.reg).toNat * scaleFactor x.scale), s) := by
  rw [← indexValue_eq]; rfl

theorem eaAddr_pcIndex (z : Size) (x : IndexWord) (s : State) : eaAddr z (.pcIndex x) s =
    .ok (s.pc + 2 + BitVec.ofInt 32 x.d8.toInt +
      BitVec.ofNat 32 ((if x.isAddr then s.areg x.reg else s.dreg x.reg).toNat * scaleFactor x.scale), s) := by
  rw [← indexValue_eq]; rfl

theorem jmp_runs {s : State} {ea : Ea} {a : Addr} (h : eaAddr .L ea s = .ok (a, s)) :
    ∃ t, exec (.jmp ea) s = .next t ∧ t.pc = a ∧ t.ccr = s.ccr ∧ Keeps s t [] [] [] :=
  ⟨s.setPc a, by simp [exec, execJmp, h, bind, Except.bind], rfl, rfl, (Keeps.refl s ..).setPc a⟩

theorem lea_runs {s s1 : State} {ea : Ea} {a : Addr} (r : Reg) (h : eaAddr .L ea s = .ok (a, s1)) :
    ∃ t, exec (.lea ea r) s = .next t ∧ WritesAnFrom .L ea r a (1 + ea.extWords .L) s t := by
  obtain rfl := eaAddr_ok h
  exact ⟨_, by simp [exec, execLea, h, bind, Except.bind], writesAnFrom_setA .L ea s r a _⟩

/-- Settles O33: the address of each control mode, then the two uses of it. -/
theorem jumpAndLoadAddress : Obligations.JumpAndLoadAddress := by
  intro s ea a hok ha
  have hc := (Bool.and_eq_true_iff.1 hok).1
  have haddr : eaAddr .L ea s = .ok (a, s) := by
    subst ha
    cases ea with
    | dn r => cases hc
    | an r => cases hc
    | postinc r => cases hc
    | predec r => cases hc
    | imm v => cases hc
    | index r x => exact eaAddr_index .L r x s
    | pcIndex x => exact eaAddr_pcIndex .L x s
    | _ => rfl
  exact ⟨haddr, jmp_runs haddr, fun r => lea_runs r haddr⟩

/-! ### Bits of a byte in memory -/

/-- A function of an operand and a bit number that treats that bit alone. -/
def ModifiesBit (f : Word → Nat → Word) (g : Bool → Bool) : Prop :=
  ∀ (old : Word) (b j : Nat), j < 32 → (f old b).getLsbD j = if j = b then g (old.getLsbD j) else old.getLsbD j

theorem one_shiftLeft_getLsbD {b j : Nat} (hj : j < 32) : ((1 : Word) <<< b).getLsbD j = decide (j = b) := by
  rw [BitVec.getLsbD_shiftLeft, Bool.eq_iff_iff]
  simp [hj]
  omega

theorem changeBit_modifiesBit : ModifiesBit changeBit not := by
  intro old b j hj
  rw [changeBit, BitVec.getLsbD_xor, one_shiftLeft_getLsbD hj]
  split <;> simp [*]

theorem clearBit_modifiesBit : ModifiesBit clearBit fun _ => false := by
  intro old b j hj
  rw [clearBit, BitVec.getLsbD_and, BitVec.getLsbD_not, one_shiftLeft_getLsbD hj]
  split <;> simp [*]

theorem setBit_modifiesBit : ModifiesBit setBit fun _ => true := by
  intro old b j hj
  rw [setBit, BitVec.getLsbD_or, one_shiftLeft_getLsbD hj]
  split <;> simp [*]

/-- The bits of a byte and those of its read. -/
theorem readMem_byte_getLsbD (s : State) (a : Addr) {j : Nat} (hj : j < 8) :
    (s.readMem .B a).getLsbD j = (s.byteAt a).getLsbD j := by
  rw [State.readMem, BitVec.getLsbD_setWidth]
  simp [show j < 32 by omega]

theorem byte_trunc_getLsbD (v : Word) {j : Nat} (hj : j < 8) : (Size.B.trunc v).getLsbD j = v.getLsbD j := by
  rw [Size.trunc, BitVec.getLsbD_setWidth, BitVec.getLsbD_setWidth]
  simp [hj, show j < 32 by omega]

section
variable {s s1 : State} {ea : Ea} {a : Addr}

/-- On memory the bit instructions read one byte, and write it back, at an address formed once (R66). -/
theorem modifyBit_mem (f : Word → Nat → Word) (k : Nat) (h : eaAddr .B ea s = .ok (a, s1)) :
    modifyBit f k ea s = (memRead .B a s1 >>= fun old =>
      memWrite .B a (f old (k % 8)) (s1.setCcr (bitFlags old (k % 8) s1.ccr))) := by
  cases ea with
  | dn r => cases h
  | _ => simp only [modifyBit, h, bind, Except.bind]

theorem testBit_mem (k : Nat) (h : eaAddr .B ea s = .ok (a, s1)) :
    testBit k ea s = (memRead .B a s1 >>= fun old => .ok (s1.setCcr (bitFlags old (k % 8) s1.ccr))) := by
  cases ea with
  | dn r => cases h
  | _ => simp only [testBit, h, bind, Except.bind]

/-- The flags of a bit test on memory, by the byte itself. -/
theorem bitFlags_readMem (s : State) (a : Addr) (k : Nat) (c : Ccr) :
    bitFlags (s.readMem .B a) (k % 8) c = { c with z := !(s.byteAt a).getLsbD (k % 8) } := by
  rw [bitFlags, readMem_byte_getLsbD s a (Nat.mod_lt k (by decide))]

/-- BCHG, BCLR and BSET on a byte that can be written. -/
theorem modifyBit_mem_runs {f : Word → Nat → Word} {g : Bool → Bool} (hf : ModifiesBit f g) (k n : Nat)
    (h : eaAddr .B ea s = .ok (a, s1)) (hw : s.writable .B a) :
    ∃ t, finish s n (modifyBit f k ea s) = .next t ∧ WritesMem .B ea a (t.readMem .B a) n s t ∧
      (∀ j, j < 8 → (t.byteAt a).getLsbD j =
        if j = k % 8 then g ((s.byteAt a).getLsbD j) else (s.byteAt a).getLsbD j) ∧
      t.ccr = { s.ccr with z := !(s.byteAt a).getLsbD (k % 8) } := by
  have hrun := modifyBit_mem f k h
  obtain rfl := eaAddr_ok h
  have hm := writesMem_writeMem rfl (stepEa_keeps .B ea s) a (f (s.readMem .B a) (k % 8))
    (bitFlags (s.readMem .B a) (k % 8) s.ccr) n
  have hw' : ((stepEa .B ea s).setCcr (bitFlags (s.readMem .B a) (k % 8) s.ccr)).writable .B a :=
    (stepEa_writable .B ea s .B a).2 hw
  rw [memRead_of_readable ((stepEa_readable ..).2 hw.1), stepEa_readMem, stepEa_ccr] at hrun
  refine ⟨_, ?_, hm.self, fun j hj => ?_, bitFlags_readMem s a k s.ccr⟩
  · rw [hrun]
    exact congrArg (finish s n) (memWrite_of_writable _ hw')
  · rw [← readMem_byte_getLsbD _ a hj, hm.value, byte_trunc_getLsbD _ hj, hf _ _ _ (by omega),
      readMem_byte_getLsbD s a hj]

/-- BTST on a byte that can be read. -/
theorem testBit_mem_runs (k n : Nat) (h : eaAddr .B ea s = .ok (a, s1)) (hr : s.readable .B a) :
    ∃ t, finish s n (testBit k ea s) = .next t ∧ WritesNone .B ea n s t ∧
      t.ccr = { s.ccr with z := !(s.byteAt a).getLsbD (k % 8) } := by
  have hrun := testBit_mem k h
  obtain rfl := eaAddr_ok h
  rw [memRead_of_readable ((stepEa_readable ..).2 hr), stepEa_readMem, stepEa_ccr] at hrun
  exact ⟨_, congrArg (finish s n) hrun, writesNone_setCcr rfl (stepEa_keeps .B ea s) _ n, bitFlags_readMem s a k s.ccr⟩

end

/-- Settles O37: the six that modify the byte are one meaning, and so are the two that test it. -/
theorem bitsOfMemoryBytes : Obligations.BitsOfMemoryBytes := by
  refine fun s s1 ea a y n i k words h => ⟨fun f hi hw => ?_, fun hi hr => ?_⟩
  · simp only [List.mem_cons, Prod.mk.injEq, List.not_mem_nil, or_false] at hi
    rcases hi with ⟨rfl, rfl, rfl, rfl⟩ | ⟨rfl, rfl, rfl, rfl⟩ | ⟨rfl, rfl, rfl, rfl⟩ | ⟨rfl, rfl, rfl, rfl⟩ |
      ⟨rfl, rfl, rfl, rfl⟩ | ⟨rfl, rfl, rfl, rfl⟩
    · exact modifyBit_mem_runs changeBit_modifiesBit _ _ h hw
    · exact modifyBit_mem_runs changeBit_modifiesBit _ _ h hw
    · exact modifyBit_mem_runs clearBit_modifiesBit _ _ h hw
    · exact modifyBit_mem_runs clearBit_modifiesBit _ _ h hw
    · exact modifyBit_mem_runs setBit_modifiesBit _ _ h hw
    · exact modifyBit_mem_runs setBit_modifiesBit _ _ h hw
  · simp only [List.mem_cons, Prod.mk.injEq, List.not_mem_nil, or_false] at hi
    rcases hi with ⟨rfl, rfl, rfl⟩ | ⟨rfl, rfl, rfl⟩
    · exact testBit_mem_runs _ _ h hr
    · exact testBit_mem_runs _ _ h hr

end Sys2Proof.Machine
end

section
namespace Sys2Proof.Machine

/-! ### A fault while an exception is taken (R265) -/

theorem accessException_ne_trap (s : State) (k : AccessKind) (z : Size) (a : Addr) (n : BitVec 4) :
    accessException s k z a ≠ .trap n := by
  unfold accessException
  split <;> exact Exception.noConfusion

/-- A frame of which a long lies in `CodeRegion` is not pushed (R54, log 14). -/
theorem enterException_of_code {e : Exception} {pc0 : Addr} {s : State} {a : Addr}
    (h : a = frameAddr s.sp ∨ a = frameAddr s.sp + 4 ∧ s.writable .L (frameAddr s.sp)) (hr : s.readable .L a)
    (hw : ¬ s.writable .L a) : enterException e pc0 s = .error (.refused (.storeIntoCode a)) := by
  set s1 := ({ s with sys := { s.sys with s := true, t := false } }.spend 1).setA 7 (frameAddr s.sp) with hs1
  rcases h with rfl | ⟨rfl, w1⟩
  · have hr1 : s1.readable .L (frameAddr s.sp) := hr
    have hw1 : ¬ s1.writable .L (frameAddr s.sp) := hw
    simp only [enterException, bind, Except.bind, ← hs1, memWrite_of_code _ hr1 hw1]
  · have hw1 : s1.writable .L (frameAddr s.sp) := w1
    set s2 := s1.writeMem .L (frameAddr s.sp)
      (frameWord (frameFormat s.sp) ((s.freeWord 0).setWidth 4) e.vector s.srWord) with hs2
    have hc : s2.config = s.config := State.writeMem_config ..
    have hr2 := (readable_congr hc .L (frameAddr s.sp + 4)).2 hr
    have hw2 := mt (writable_congr hc .L (frameAddr s.sp + 4)).1 hw
    simp only [enterException, bind, Except.bind, ← hs1, memWrite_of_writable _ hw1, ← hs2, memWrite_of_code _ hr2 hw2]

section
variable {e e' : Exception} {s s1 t : State}

/-- A fault met while another exception than TRAP is taken halts the processor. -/
theorem takeException_of_entry_raised (hm : s.config.trapModel = .supervisor) (he : ∀ n, e ≠ .trap n)
    (h : enterException e s.pc (stateAtRaise s s1) = .error (.raised e' t)) :
    takeException e s s1 = .fault (.halted e s.pc) := by
  cases e with
  | trap n => exact absurd rfl (he n)
  | _ => simp only [takeException, hm, h]

theorem takeException_of_entry_refused {q : Refusal} (hm : s.config.trapModel = .supervisor)
    (h : enterException e s.pc (stateAtRaise s s1) = .error (.refused q)) : takeException e s s1 = .refused q := by
  simp only [takeException, hm, h]

/-- A fault met while TRAP is taken is itself taken, from the state its entry had reached (log 12). -/
theorem takeException_of_trap_raised {n : BitVec 4} (hm : s.config.trapModel = .supervisor) (he : ∀ n, e' ≠ .trap n)
    (h : enterException (.trap n) s.pc s = .error (.raised e' t)) :
    takeException (.trap n) s s = takeException e' s t := by
  cases e' with
  | trap n => exact absurd rfl (he n)
  | _ => simp only [takeException, hm, stateAtRaise_self, h]

/-- The processor halts where a long of the frame or the vector is the first that cannot be accessed. -/
theorem takeException_halts {k : AccessKind} {a : Addr} (hm : s.config.trapModel = .supervisor) (he : ∀ n, e ≠ .trap n)
    (u : State) (hu : u = stateAtRaise s s1)
    (h : k = .write ∧ a = frameAddr u.sp ∨
      k = .write ∧ a = frameAddr u.sp + 4 ∧ u.writable .L (frameAddr u.sp) ∨
      k = .read ∧ a = vectorAddr u.vbr e.vector ∧ u.writable .L (frameAddr u.sp) ∧ u.writable .L (frameAddr u.sp + 4))
    (hr : ¬ u.readable .L a) : takeException e s s1 = .fault (.halted e s.pc) := by
  obtain ⟨t, ht, _⟩ := enterException_of_inaccessible (pc0 := s.pc) h hr
  exact takeException_of_entry_raised hm he (hu ▸ ht)

end

/-- Settles O16: an entry stopped at the first of its accesses that cannot be performed. -/
theorem faultDuringFaultHalts : Obligations.FaultDuringFaultHalts := by
  refine ⟨fun e s s1 u hm he hu => ⟨?_, fun hr hw => ?_, fun hw hr hw' => ?_⟩, fun s hm hodd hr => ?_,
    fun s n k a hm h hr => ?_⟩
  · rintro (hr | ⟨hw, hr⟩ | ⟨hw, hw', hr⟩)
    · exact takeException_halts hm he u hu (.inl ⟨rfl, rfl⟩) hr
    · exact takeException_halts hm he u hu (.inr (.inl ⟨rfl, rfl, hw⟩)) hr
    · exact takeException_halts hm he u hu (.inr (.inr ⟨rfl, rfl, hw, hw'⟩)) hr
  · exact takeException_of_entry_refused hm (hu ▸ enterException_of_code (.inl rfl) hr hw)
  · exact takeException_of_entry_refused hm (hu ▸ enterException_of_code (.inr ⟨rfl, hw⟩) hr hw')
  · rw [step_of_odd_pc hodd]
    exact takeException_halts hm (fun _ => Exception.noConfusion) s (stateAtRaise_self s).symm (.inl ⟨rfl, rfl⟩) hr
  · obtain ⟨t, ht, hsp, hpc, hsys⟩ := enterException_of_inaccessible (e := .trap n) (pc0 := s.pc) h hr
    exact ⟨t, takeException_of_trap_raised hm (accessException_ne_trap s k .L a) ht, hsp, hpc, hsys⟩

end Sys2Proof.Machine
end

section
namespace Sys2Proof.Machine

/-! ### A read that cannot be performed (R44, R262) -/

theorem accessException_congr {s t : State} (h : t.config = s.config) (k : AccessKind) (z : Size) (a : Addr) :
    accessException t k z a = accessException s k z a := by
  simp only [accessException, h]

section
variable {s s1 u : State} {size : Size} {ea : Ea} {a : Addr}

/-- Forming an operand's address changes no parameter. -/
theorem eaAddrIn_config {view : State} (h : eaAddrIn view size ea s = .ok (a, s1)) : s1.config = s.config :=
  eaAddrIn_ok h ▸ stepEa_config size ea s

theorem eaAddr_config (h : eaAddr size ea s = .ok (a, s1)) : s1.config = s.config := eaAddrIn_config h

/-- What a read meets is said by the parameters alone, so by any state that holds them. -/
theorem memRead_raises (hc : u.config = s.config) (hr : ¬ s.readable size a) :
    memRead size a u = .error (.raised (accessException s .read size a) u) := by
  rw [memRead_of_not_readable (mt (readable_congr hc size a).1 hr), accessException_congr hc]

theorem readEaIn_raises {view : State} (h : eaAddrIn view size ea s = .ok (a, s1)) (hr : ¬ s.readable size a) :
    readEaIn view size ea s = .error (.raised (accessException s .read size a) s1) := by
  rw [readEaIn_mem h, memRead_raises (eaAddrIn_config h) hr]
  rfl

/-- A meaning that begins with the read of an operand raises the exception of that read. -/
theorem finish_of_unread (h : eaAddr size ea s = .ok (a, s1)) (hr : ¬ s.readable size a) (n : Nat)
    (f : Word × State → Result State) :
    finish s n (readEa size ea s >>= f) = takeException (accessException s .read size a) s s1 := by
  rw [readEa, readEaIn_raises h hr]
  rfl

/-- The same of a meaning that reads and writes back at an address formed once. -/
theorem finish_of_unread_address (h : eaAddr size ea s = .ok (a, s1)) (hr : ¬ s.readable size a) (n : Nat)
    (f : Word → Result State) :
    finish s n (memRead size a s1 >>= f) = takeException (accessException s .read size a) s s1 := by
  rw [memRead_raises (eaAddr_config h) hr]
  rfl

/-- On memory the two-operand instructions read and write back at an address formed once (R66). -/
theorem aluToEa_mem (f : Alu) (v : Word) (h : eaAddr .L ea s = .ok (a, s1)) :
    aluToEa f v ea s = (memRead .L a s1 >>= fun d =>
      memWrite .L a (f v d s1.ccr).1 s1 >>= fun s2 => .ok (s2.setCcr (f v d s1.ccr).2)) := by
  cases ea with
  | dn r => cases h
  | _ => simp only [aluToEa, h, bind, Except.bind]

theorem aluToEa_of_unread (f : Alu) (v : Word) (h : eaAddr .L ea s = .ok (a, s1)) (hr : ¬ s.readable .L a) (n : Nat) :
    finish s n (aluToEa f v ea s) = takeException (accessException s .read .L a) s s1 := by
  rw [aluToEa_mem f v h]
  exact finish_of_unread_address h hr n _

theorem quickArith_of_unread (f : Alu) (g : Word → Word → Word) (q : BitVec 3) (h : eaAddr .L ea s = .ok (a, s1))
    (hr : ¬ s.readable .L a) (n : Nat) :
    finish s n (quickArith f g q ea s) = takeException (accessException s .read .L a) s s1 := by
  rw [quickArith_of_address f g q h]
  exact aluToEa_of_unread f _ h hr n

theorem modifyBit_of_unread (f : Word → Nat → Word) (k : Nat) (h : eaAddr .B ea s = .ok (a, s1)) (hr : ¬ s.readable .B a)
    (n : Nat) : finish s n (modifyBit f k ea s) = takeException (accessException s .read .B a) s s1 := by
  rw [modifyBit_mem f k h]
  exact finish_of_unread_address h hr n _

theorem testBit_of_unread (k : Nat) (h : eaAddr .B ea s = .ok (a, s1)) (hr : ¬ s.readable .B a) (n : Nat) :
    finish s n (testBit k ea s) = takeException (accessException s .read .B a) s s1 := by
  rw [testBit_mem k h]
  exact finish_of_unread_address h hr n _

end

/-! ### The two operands of MOVE and the open index (R229) -/

/-- The state a MOVE reads its source's index register from. -/
def sourceView (size : Size) (src dst : Ea) (s : State) : State :=
  if indexOpen src dst && s.freeBit 0 then stepEa size dst s else s

/-- The state a MOVE reads its destination's index register from, `s1` the one after the source. -/
def destinationView (src dst : Ea) (s s1 : State) : State :=
  if indexOpen dst src && s.freeBit 0 then s else s1

theorem sourceView_of_not_open {src dst : Ea} (h : indexOpen src dst = false) (size : Size) (s : State) :
    sourceView size src dst s = s := by
  simp [sourceView, h]

theorem sourceView_cases (size : Size) (src dst : Ea) (s : State) :
    sourceView size src dst s = s ∨ indexOpen src dst = true ∧ sourceView size src dst s = stepEa size dst s := by
  unfold sourceView
  split
  · next h => exact .inr ⟨(Bool.and_eq_true_iff.1 h).1, rfl⟩
  · exact .inl rfl

theorem destinationView_cases (src dst : Ea) (s s1 : State) :
    destinationView src dst s s1 = s1 ∨ indexOpen dst src = true ∧ destinationView src dst s s1 = s := by
  unfold destinationView
  split
  · next h => exact .inr ⟨(Bool.and_eq_true_iff.1 h).1, rfl⟩
  · exact .inl rfl

theorem move_of_unread {s : State} {size : Size} {src dst : Ea} {q : Stop}
    (h : readEaIn (sourceView size src dst s) size src s = .error q) : move size src dst s = .error q := by
  change (readEaIn (sourceView size src dst s) size src s >>= _) = _
  rw [h]
  rfl

/-- What a MOVE stores once its source is read: the value read or a free one, with free values drawn or not. -/
theorem move_of_source {s s1 : State} {size : Size} {src dst : Ea} {v : Word}
    (h : readEaIn (sourceView size src dst s) size src s = .ok (v, s1)) :
    ∃ w k, move size src dst s = (writeEaIn (destinationView src dst s s1) size dst w (s1.spend k) >>= fun t =>
      .ok (t.setCcr (logicFlags size w t.ccr))) := by
  refine ⟨if storesSteppedSource size src dst then s.freeWord 0 else v,
    if storesSteppedSource size src dst || indexOpen src dst || indexOpen dst src then 1 else 0, ?_⟩
  have hspend : ∀ c : Bool, s1.spend (if c then 1 else 0) = if c then s1.spend 1 else s1 := by
    intro c; cases c <;> rfl
  rw [hspend]
  change (readEaIn (sourceView size src dst s) size src s >>= _) = _
  rw [h]
  rfl

theorem exec_move_of_unread {s s1 : State} {size : Size} {mk : Ea → Ea → Instr} {src dst : Ea} {a : Addr}
    (hi : (size, mk) ∈ [(Size.B, Instr.moveB), (.W, .moveW), (.L, .moveL)])
    (h : eaAddrIn (sourceView size src dst s) size src s = .ok (a, s1)) (hr : ¬ s.readable size a) :
    exec (mk src dst) s = takeException (accessException s .read size a) s s1 := by
  rw [exec_move hi, move_of_unread (readEaIn_raises h hr)]
  rfl

/-! ### The instructions that read an operand -/

theorem exec_of_unread {i : Instr} {s s1 : State} {size : Size} {ea : Ea} {a : Addr}
    (hi : readsOperand i = some (size, ea)) (h : eaAddr size ea s = .ok (a, s1)) (hr : ¬ s.readable size a) :
    exec i s = takeException (accessException s .read size a) s s1 := by
  have hmove : ∀ {z mk src dst}, (z, mk) ∈ [(Size.B, Instr.moveB), (.W, .moveW), (.L, .moveL)] →
      (if indexOpen src dst then none else some (z, src)) = some (size, ea) →
      exec (mk src dst) s = takeException (accessException s .read size a) s s1 := by
    intro z mk src dst hmk hsrc
    split at hsrc
    · cases hsrc
    · next ho =>
      cases hsrc
      exact exec_move_of_unread hmk (by rw [sourceView_of_not_open (Bool.eq_false_iff.2 ho)]; exact h) hr
  cases i with
  | addEaDn _ _ | subEaDn _ _ | andEaDn _ _ | orEaDn _ _ | adda _ _ | suba _ _ | cmp _ _ | cmpa _ _ =>
    cases hi; exact finish_of_unread h hr _ _
  | tstB _ | tstW _ | tstL _ | moveaW _ _ | moveaL _ _ => cases hi; exact finish_of_unread h hr _ _
  | mulsW _ _ | mulsL _ _ | muluW _ _ | muluL _ _ => cases hi; exact finish_of_unread h hr _ _
  | divsW _ _ | divsL _ _ | divuW _ _ | divuL _ _ | remsL _ _ _ | remuL _ _ _ => cases hi; exact finish_of_unread h hr _ _
  | addDnEa _ _ | subDnEa _ _ | andDnEa _ _ | orDnEa _ _ | eor _ _ => cases hi; exact aluToEa_of_unread _ _ h hr _
  | addq _ _ | subq _ _ => cases hi; exact quickArith_of_unread _ _ _ h hr _
  | bchgReg _ _ | bchgImm _ _ | bclrReg _ _ | bclrImm _ _ | bsetReg _ _ | bsetImm _ _ =>
    cases hi; exact modifyBit_of_unread _ _ h hr _
  | btstReg _ _ | btstImm _ _ => cases hi; exact testBit_of_unread _ h hr _
  | moveB _ _ => exact hmove (by simp) hi
  | moveW _ _ => exact hmove (by simp) hi
  | moveL _ _ => exact hmove (by simp) hi
  | _ => cases hi

/-! ### UNLK and the loads of MOVEM -/

theorem execUnlk_of_unread {s : State} {r : Reg} (hr : ¬ s.readable .L (s.areg r)) :
    exec (.unlk r) s = takeException (accessException s .read .L (s.areg r)) s (s.setA 7 (s.areg r)) := by
  have hread : memRead .L (s.areg r) (s.setA 7 (s.areg r)) =
    .error (.raised (accessException s .read .L (s.areg r)) (s.setA 7 (s.areg r))) := memRead_raises rfl hr
  change finish s 1 (memRead .L (s.setA 7 (s.areg r)).sp (s.setA 7 (s.areg r)) >>= _) = _
  rw [State.setA_sp_self, hread]
  rfl

theorem steppedReg_of_movem {ea : Ea} (h : EaClass.movem.allows ea.kind = true) : steppedReg ea = none := by
  cases ea with
  | postinc r => cases h
  | predec r => cases h
  | _ => rfl

theorem execMovemLoad_of_unread {s s1 : State} {mask : BitVec 16} {ea : Ea} {a : Addr} {i : Fin 16}
    (hok : ea.ok .movem .L = true) (h : eaAddr .L ea s = .ok (a, s1)) (hi : mask.getLsbD i = true)
    (hbelow : ∀ j : Fin 16, j < i → mask.getLsbD j = true → s.readable .L (movemSlot mask a j))
    (hr : ¬ s.readable .L (movemSlot mask a i)) :
    ∃ t, exec (.movemLoad mask ea) s = takeException (accessException s .read .L (movemSlot mask a i)) s t ∧
      LoadedBelow mask a i s t := by
  obtain rfl : s1 = s := (eaAddr_ok h).trans (stepEa_of_steps_none .L s (steppedReg_of_movem (Bool.and_eq_true_iff.1 hok).1))
  obtain ⟨u, hu, hrun⟩ := loadRegs_below i.isLt.le hbelow (Nat.zero_le _) (LoadedBelow.zero mask a s1)
  have hstop : loadRegs (maskRegs mask) a s1 = .error (.raised (accessException s1 .read .L (movemSlot mask a i)) u) := by
    rw [← maskRegsFrom_zero, ← movemSlot_zero mask a, hrun, maskRegsFrom_of_lt mask i.isLt, if_pos hi, loadRegs,
      memRead_raises hu.config hr, movemSlot_zero]
    rfl
  refine ⟨u, ?_, hu⟩
  change finish s1 _ (eaAddr .L ea s1 >>= _) = _
  rw [h]
  change finish s1 _ (loadRegs (maskRegs mask) a s1 >>= _) = _
  rw [hstop]
  rfl

/-- Settles O17: a read is the first access of each of these instructions. -/
theorem operandReadFaults : Obligations.OperandReadFaults := by
  refine ⟨fun i s s1 size ea a hi h hr => ?_, fun s s1 s2 size mk src dst a b hi ha hb hra hrb => ?_,
    fun s r hr => execUnlk_of_unread hr, fun s s1 mask ea a i hok h hi hbelow hr => ?_⟩
  · have hrun := exec_of_unread hi h hr
    exact ⟨hrun, fun hm => hrun.trans (takeException_terminal hm)⟩
  · obtain hv | ⟨ho, hv⟩ := sourceView_cases size src dst s
    · exact ⟨a, .inl rfl, exec_move_of_unread hi (by rw [hv]; exact ha) hra⟩
    · obtain rfl : s2 = s1 := (eaAddrIn_ok hb).trans (eaAddrIn_ok ha).symm
      exact ⟨b, .inr ⟨ho, rfl⟩, exec_move_of_unread hi (by rw [hv]; exact hb) hrb⟩
  · obtain ⟨t, ht, hl⟩ := execMovemLoad_of_unread hok h hi hbelow hr
    exact ⟨t, ht, hl.mem, hl.pc, hl.ccr, hl.rreg⟩

end Sys2Proof.Machine
end

section
namespace Sys2Proof.Machine

/-! ### A store that cannot be performed (R45, R54, R262) -/

section
variable {s s1 u : State} {size : Size} {ea : Ea} {a : Addr}

/-- What a store meets is said by the parameters alone, so by any state that holds them. -/
theorem memWrite_raises (hc : u.config = s.config) (v : Word) (hr : ¬ s.readable size a) :
    memWrite size a v u = .error (.raised (accessException s .write size a) u) := by
  rw [memWrite_of_not_readable v (mt (readable_congr hc size a).1 hr), accessException_congr hc]

theorem memWrite_refuses (hc : u.config = s.config) (v : Word) (hr : s.readable size a) (hw : ¬ s.writable size a) :
    memWrite size a v u = .error (.refused (.storeIntoCode a)) :=
  memWrite_of_code v ((readable_congr hc size a).2 hr) (mt (writable_congr hc size a).1 hw)

/-- CLR only writes its operand (R200). -/
theorem clear_mem (h : eaAddr size ea s = .ok (a, s1)) : clear size ea s = (memWrite size a 0 s1 >>= fun t =>
    .ok (t.setCcr { x := t.ccr.x, n := false, z := true, v := false, c := false })) := by
  rw [clear, writeEa, writeEaIn_mem h]

theorem exec_clear_raises {mk : Ea → Instr} (hi : (size, mk) ∈ [(Size.B, Instr.clrB), (.W, .clrW), (.L, .clrL)])
    (h : eaAddr size ea s = .ok (a, s1)) (hr : ¬ s.readable size a) :
    exec (mk ea) s = takeException (accessException s .write size a) s s1 := by
  rw [exec_clear hi, clear_mem h, memWrite_raises (eaAddr_config h) 0 hr]
  rfl

theorem exec_clear_refuses {mk : Ea → Instr} (hi : (size, mk) ∈ [(Size.B, Instr.clrB), (.W, .clrW), (.L, .clrL)])
    (h : eaAddr size ea s = .ok (a, s1)) (hr : s.readable size a) (hw : ¬ s.writable size a) :
    exec (mk ea) s = .refused (.storeIntoCode a) := by
  rw [exec_clear hi, clear_mem h, memWrite_refuses (eaAddr_config h) 0 hr hw]
  rfl

/-! ### The instructions that read and write back -/

theorem aluToEa_refuses (f : Alu) (v : Word) (h : eaAddr .L ea s = .ok (a, s1)) (hr : s.readable .L a)
    (hw : ¬ s.writable .L a) : aluToEa f v ea s = .error (.refused (.storeIntoCode a)) := by
  have hc := eaAddr_config h
  rw [aluToEa_mem f v h, memRead_of_readable ((readable_congr hc .L a).2 hr)]
  change (memWrite .L a _ s1 >>= _) = _
  rw [memWrite_refuses hc _ hr hw]
  rfl

theorem quickArith_refuses (f : Alu) (g : Word → Word → Word) (q : BitVec 3) (h : eaAddr .L ea s = .ok (a, s1))
    (hr : s.readable .L a) (hw : ¬ s.writable .L a) :
    quickArith f g q ea s = .error (.refused (.storeIntoCode a)) := by
  rw [quickArith_of_address f g q h]
  exact aluToEa_refuses f _ h hr hw

theorem modifyBit_refuses (f : Word → Nat → Word) (k : Nat) (h : eaAddr .B ea s = .ok (a, s1)) (hr : s.readable .B a)
    (hw : ¬ s.writable .B a) : modifyBit f k ea s = .error (.refused (.storeIntoCode a)) := by
  have hc := eaAddr_config h
  rw [modifyBit_mem f k h, memRead_of_readable ((readable_congr hc .B a).2 hr)]
  exact memWrite_refuses ((State.setCcr_config ..).trans hc) _ hr hw

theorem exec_readWrite_refuses {i : Instr} {r : Reg} {q : BitVec 3} {n : BitVec 8}
    (hi : (i, size) ∈ [(Instr.addDnEa r ea, Size.L), (.subDnEa r ea, .L), (.andDnEa r ea, .L), (.orDnEa r ea, .L),
      (.eor r ea, .L), (.addq q ea, .L), (.subq q ea, .L), (.bchgReg r ea, .B), (.bchgImm n ea, .B), (.bclrReg r ea, .B),
      (.bclrImm n ea, .B), (.bsetReg r ea, .B), (.bsetImm n ea, .B)])
    (h : eaAddr size ea s = .ok (a, s1)) (hr : s.readable size a) (hw : ¬ s.writable size a) :
    exec i s = .refused (.storeIntoCode a) := by
  simp only [List.mem_cons, Prod.mk.injEq, List.not_mem_nil, or_false] at hi
  rcases hi with ⟨rfl, rfl⟩ | ⟨rfl, rfl⟩ | ⟨rfl, rfl⟩ | ⟨rfl, rfl⟩ | ⟨rfl, rfl⟩ | ⟨rfl, rfl⟩ | ⟨rfl, rfl⟩ | ⟨rfl, rfl⟩ |
    ⟨rfl, rfl⟩ | ⟨rfl, rfl⟩ | ⟨rfl, rfl⟩ | ⟨rfl, rfl⟩ | ⟨rfl, rfl⟩
  iterate 5 exact congrArg (finish s _) (aluToEa_refuses _ _ h hr hw)
  iterate 2 exact congrArg (finish s _) (quickArith_refuses _ _ _ h hr hw)
  iterate 6 exact congrArg (finish s _) (modifyBit_refuses _ _ h hr hw)

end

/-! ### MOVE into memory -/

section
variable {s s1 s2 s3 s4 : State} {size : Size} {src dst : Ea} {v w : Word} {a b : Addr}

/-- The source of a MOVE is read, whichever of the two values of its index register is taken. -/
theorem readEaIn_sourceView (h : readEaIn s size src s = .ok (v, s1))
    (h' : readEaIn (stepEa size dst s) size src s = .ok (w, s2)) :
    ∃ x, readEaIn (sourceView size src dst s) size src s = .ok (x, s1) := by
  obtain hv | ⟨_, hv⟩ := sourceView_cases size src dst s
  · exact ⟨v, by rw [hv]; exact h⟩
  · obtain rfl : s2 = s1 := (readEaIn_ok h').trans (readEaIn_ok h).symm
    exact ⟨w, by rw [hv]; exact h'⟩

/-- The destination of a MOVE is at one of its two addresses, the second where its index is open. -/
theorem eaAddrIn_destinationView (ha : eaAddr size dst s1 = .ok (a, s3)) (hb : eaAddrIn s size dst s1 = .ok (b, s4)) :
    ∃ c, (c = a ∨ indexOpen dst src = true ∧ c = b) ∧
      eaAddrIn (destinationView src dst s s1) size dst s1 = .ok (c, s3) := by
  obtain hv | ⟨ho, hv⟩ := destinationView_cases src dst s s1
  · exact ⟨a, .inl rfl, by rw [hv]; exact ha⟩
  · obtain rfl : s4 = s3 := (eaAddrIn_ok hb).trans (eaAddr_ok ha).symm
    exact ⟨b, .inr ⟨ho, rfl⟩, by rw [hv]; exact hb⟩

/-- What is left of a MOVE into memory once its source is read and its address formed. -/
theorem move_of_address (h : readEaIn (sourceView size src dst s) size src s = .ok (v, s1))
    (ha : eaAddrIn (destinationView src dst s s1) size dst s1 = .ok (a, s3)) :
    s3.config = s.config ∧ ∃ x k, move size src dst s =
      (memWrite size a x (s3.spend k) >>= fun t => .ok (t.setCcr (logicFlags size x t.ccr))) := by
  obtain ⟨x, k, hmove⟩ := move_of_source h
  rw [writeEaIn_mem (eaAddrIn_spend k ha)] at hmove
  have hc : s1.config = s.config := readEaIn_ok h ▸ stepEa_config size src s
  exact ⟨(eaAddrIn_config ha).trans hc, x, k, hmove⟩

theorem move_raises (h : readEaIn (sourceView size src dst s) size src s = .ok (v, s1))
    (ha : eaAddrIn (destinationView src dst s s1) size dst s1 = .ok (a, s3)) (hr : ¬ s.readable size a) :
    ∃ k, move size src dst s =
      .error (.raised (accessException s .write size a) { s3 with freeCount := k }) := by
  obtain ⟨hc, x, k, hmove⟩ := move_of_address h ha
  have hc' : (s3.spend k).config = s.config := hc
  rw [memWrite_raises hc' x hr] at hmove
  exact ⟨s3.freeCount + k, hmove⟩

theorem move_refuses (h : readEaIn (sourceView size src dst s) size src s = .ok (v, s1))
    (ha : eaAddrIn (destinationView src dst s s1) size dst s1 = .ok (a, s3)) (hr : s.readable size a)
    (hw : ¬ s.writable size a) : move size src dst s = .error (.refused (.storeIntoCode a)) := by
  obtain ⟨hc, x, k, hmove⟩ := move_of_address h ha
  have hc' : (s3.spend k).config = s.config := hc
  rw [memWrite_refuses hc' x hr hw] at hmove
  exact hmove

end

/-! ### Pushes -/

section
variable {s : State}

theorem pushLong_raises (v : Word) (hr : ¬ s.readable .L (s.sp - 4)) :
    pushLong v s = .error (.raised (accessException s .write .L (s.sp - 4)) (s.setA 7 (s.sp - 4))) :=
  memWrite_raises rfl v hr

theorem pushLong_refuses (v : Word) (hr : s.readable .L (s.sp - 4)) (hw : ¬ s.writable .L (s.sp - 4)) :
    pushLong v s = .error (.refused (.storeIntoCode (s.sp - 4))) := memWrite_refuses rfl v hr hw

theorem finish_bind {α : Type} (n : Nat) (x : Result α) (f : α → Result State) :
    finish s n (x >>= f) = finishAt s (x >>= fun y => (f y).map fun t => t.setPc (s.nextPc n)) := by
  cases x <;> rfl

/-- JSR, PEA and LINK store nothing before their push, which is all that can fail. -/
theorem exec_push {i : Instr} {ea : Ea} {r : Reg} {d16 : BitVec 16} (hok : ea.ok .control .L = true)
    (hi : i ∈ [Instr.jsr ea, .pea ea, .link r d16]) :
    ∃ v k f, exec i s = finishAt s (pushLong v (s.spend k) >>= f) := by
  have hc := (Bool.and_eq_true_iff.1 hok).1
  obtain ⟨a, _, ha⟩ := eaAddr_of_control s .L hc
  obtain ⟨b, _, hb⟩ := eaAddr_of_control (s.setA 7 (s.sp - 4)) .L hc
  obtain ⟨c, k, hp, _⟩ := pushedAddr_of_addresses hc ha hb
  simp only [List.mem_cons, List.not_mem_nil, or_false] at hi
  obtain rfl | rfl | rfl := hi
  · refine ⟨s.nextPc (1 + ea.extWords .L), k, fun t => .ok (t.setPc c), ?_⟩
    change finishAt s (pushedAddr ea s >>= _) = _
    rw [hp]; rfl
  · refine ⟨c, k, fun t => .ok (t.setPc (s.nextPc (1 + ea.extWords .L))), ?_⟩
    change finishAt s ((pushedAddr ea s >>= _).map _) = _
    rw [hp]; rfl
  · by_cases h7 : r = 7
    · have hrun : execLink r d16 s = finish s 2 _ := congrArg (finish s 2) (if_pos h7)
      exact ⟨s.freeWord 0, 2, _, hrun.trans (finish_bind ..)⟩
    · have hrun : execLink r d16 s = finish s 2 _ := congrArg (finish s 2) (if_neg h7)
      exact ⟨s.areg r, 0, _, hrun.trans (finish_bind ..)⟩

end

/-! ### The stores of MOVEM -/

/-- The stores of MOVEM run to the first register whose place cannot be written. -/
theorem storeRegs_reach {s : State} {mask : BitVec 16} {a : Addr} {i : Fin 16} (hi : mask.getLsbD i = true)
    (hbelow : ∀ j : Fin 16, j < i → mask.getLsbD j = true → s.writable .L (movemSlot mask a j)) :
    ∃ u is, StoredBelow mask a i s u ∧ storeRegs (maskRegs mask) a s =
      (memWrite .L (movemSlot mask a i) (u.rreg i) u >>= storeRegs is (movemSlot mask a i + 4)) := by
  obtain ⟨u, hu, hrun⟩ := storeRegs_below i.isLt.le hbelow (Nat.zero_le _) (StoredBelow.zero mask a s)
  refine ⟨u, maskRegsFrom mask (i + 1), hu, ?_⟩
  rw [movemSlot_zero, maskRegsFrom_zero, maskRegsFrom_of_lt mask i.isLt, if_pos hi] at hrun
  exact hrun

section
variable {s s1 : State} {mask : BitVec 16} {ea : Ea} {a : Addr} {i : Fin 16}

theorem execMovemStore_eq (hok : ea.ok .movem .L = true) (h : eaAddr .L ea s = .ok (a, s1)) :
    exec (.movemStore mask ea) s = finish s (2 + ea.extWords .L) (storeRegs (maskRegs mask) a s) := by
  obtain rfl : s1 = s := (eaAddr_ok h).trans (stepEa_of_steps_none .L s (steppedReg_of_movem (Bool.and_eq_true_iff.1 hok).1))
  change finish s1 _ (eaAddr .L ea s1 >>= _) = _
  rw [h]
  rfl

theorem execMovemStore_raises (hok : ea.ok .movem .L = true) (h : eaAddr .L ea s = .ok (a, s1))
    (hi : mask.getLsbD i = true)
    (hbelow : ∀ j : Fin 16, j < i → mask.getLsbD j = true → s.writable .L (movemSlot mask a j))
    (hr : ¬ s.readable .L (movemSlot mask a i)) :
    ∃ t, exec (.movemStore mask ea) s = takeException (accessException s .write .L (movemSlot mask a i)) s t ∧
      StoredBelow mask a i s t := by
  obtain ⟨u, is, hu, hrun⟩ := storeRegs_reach hi hbelow
  refine ⟨u, ?_, hu⟩
  rw [execMovemStore_eq hok h, hrun, memWrite_raises hu.config _ hr]
  rfl

theorem execMovemStore_refuses (hok : ea.ok .movem .L = true) (h : eaAddr .L ea s = .ok (a, s1))
    (hi : mask.getLsbD i = true)
    (hbelow : ∀ j : Fin 16, j < i → mask.getLsbD j = true → s.writable .L (movemSlot mask a j))
    (hr : s.readable .L (movemSlot mask a i)) (hw : ¬ s.writable .L (movemSlot mask a i)) :
    exec (.movemStore mask ea) s = .refused (.storeIntoCode (movemSlot mask a i)) := by
  obtain ⟨u, is, hu, hrun⟩ := storeRegs_reach hi hbelow
  rw [execMovemStore_eq hok h, hrun, memWrite_refuses hu.config _ hr hw]
  rfl

end

/-- Settles O18: each storing instruction up to its store, then what the store meets. -/
theorem storeFaults : Obligations.StoreFaults := by
  refine ⟨fun e s s1 hm => takeException_terminal hm,
    fun s s1 size mk ea a hi h => ⟨exec_clear_raises hi h, exec_clear_refuses hi h⟩,
    fun s s1 size i ea a r q n hi h hr hw => exec_readWrite_refuses hi h hr hw,
    fun s s1 s2 s3 s4 size mk src dst v w a b hi h h' ha hb => ?_,
    fun s d => ⟨fun hr => ?_, fun hr hw => ?_⟩,
    fun s ea r d16 i hok hi => ?_,
    fun s s1 mask ea a i hok h hi hbelow => ⟨fun hr => ?_, execMovemStore_refuses hok h hi hbelow⟩⟩
  · obtain ⟨x, hx⟩ := readEaIn_sourceView h h'
    obtain ⟨c, hcab, hc⟩ := eaAddrIn_destinationView (src := src) ha hb
    simp only [exec_move hi]
    refine ⟨fun hra hrb => ?_, fun hra hwa hrb hwb => ⟨c, hcab, ?_⟩⟩
    · have hrc : ¬ s.readable size c := by
        obtain rfl | ⟨_, rfl⟩ := hcab
        · exact hra
        · exact hrb
      obtain ⟨k, hk⟩ := move_raises hx hc hrc
      exact ⟨c, k, hcab, congrArg (finish s _) hk⟩
    · have hc' : s.readable size c ∧ ¬ s.writable size c := by
        obtain rfl | ⟨_, rfl⟩ := hcab
        · exact ⟨hra, hwa⟩
        · exact ⟨hrb, hwb⟩
      exact congrArg (finish s _) (move_refuses hx hc hc'.1 hc'.2)
  · change finishAt s (pushLong _ s >>= _) = _
    rw [pushLong_raises _ hr]; rfl
  · change finishAt s (pushLong _ s >>= _) = _
    rw [pushLong_refuses _ hr hw]; rfl
  · obtain ⟨v, k, f, hrun⟩ := exec_push (s := s) hok hi
    rw [hrun]
    refine ⟨fun hr => ⟨s.freeCount + k, ?_⟩, fun hr hw => ?_⟩
    · rw [pushLong_raises (s := s.spend k) v hr]; rfl
    · rw [pushLong_refuses (s := s.spend k) v hr hw]; rfl
  · obtain ⟨t, ht, hs⟩ := execMovemStore_raises hok h hi hbelow hr
    exact ⟨t, ht, hs.data, hs.addr, hs.pc, hs.ccr, hs.value, hs.outside⟩

end Sys2Proof.Machine
end

/-! # Encoding and decoding: the statements of the family of the encoding

The encoder against the decoder, row by row of the opcode map (R95); then the decoder against the encoder, by what each
of its parts reads; then what the fetch of R82 makes of both. -/

section
namespace Sys2Proof

/-! ### The fields of the opwords that are not written with `mkOp` -/

@[simp] theorem opByte_append (x y : BitVec 8) : opByte (x ++ y) = y := by
  apply BitVec.eq_of_getLsbD_eq; intro i hi
  simp only [opByte, BitVec.getLsbD_append, BitVec.getLsbD_extractLsb']
  simp [hi]

@[simp] theorem opCond_append (n c : BitVec 4) (d : BitVec 8) : opCond (n ++ c ++ d) = c := by
  apply BitVec.eq_of_getLsbD_eq; intro i hi
  simp only [opCond, BitVec.getLsbD_append, BitVec.getLsbD_extractLsb']
  simp [hi, show ¬ 8 + i < 8 by omega]

@[simp] theorem opNibble_append (n c : BitVec 4) (d : BitVec 8) : opNibble (n ++ c ++ d) = n := by
  apply BitVec.eq_of_getLsbD_eq; intro i hi
  simp only [opNibble, BitVec.getLsbD_append, BitVec.getLsbD_extractLsb']
  simp [hi, show ¬ 12 + i < 8 by omega, show ¬ 12 + i - 8 < 4 by omega, show 12 + i - 8 - 4 = i by omega]

/-! ### One lemma for each format of R81 -/

section
variable {n : BitVec 4} {r o : BitVec 3} {c : EaClass} {z : Size} {ea : Ea} {w2 : Word16} {i : Instr} {ws : List Word16}

/-- The mode field is 000 for a data register alone. -/
theorem eaModeBits_ne_zero (h : ea.ok c z = true) (hc : c.allows .dn = false) : eaModeBits ea ≠ 0#3 := by
  cases ea with
  | dn r => simp [Ea.ok, Ea.kind, hc] at h
  | _ => simp [eaModeBits]

theorem decode_encodeEa (f : Ea → Instr) (h : ea.ok c z = true)
    (hrow : ∀ xs, decode (mkOp n r o (eaModeBits ea) (eaRegBits ea) :: xs) =
      withEa c z (mkOp n r o (eaModeBits ea) (eaRegBits ea)) xs f) :
    decode (encodeEa n r o z ea ++ ws) = .ok (f ea, ws) :=
  (hrow _).trans (withEa_encode n r o ws f h)

theorem decode_imm32 {v : Word} {q : Reg} {f : Word → Reg → Instr}
    (hrow : ∀ xs, decode (mkOp 0 r 2 0 (regBits q) :: xs) = withImm32 (mkOp 0 r 2 0 (regBits q)) xs f) :
    decode (mkOp 0 r 2 0 (regBits q) :: longWords v ++ ws) = .ok (f v q, ws) := by
  rw [List.cons_append, hrow]
  simp [withImm32, bind, Except.bind]

theorem decode_bitNumber {k : BitVec 8} {f : BitVec 8 → Ea → Instr} (h : ea.ok .short .B = true)
    (hrow : ∀ xs, decode (mkOp n r o (eaModeBits ea) (eaRegBits ea) :: xs) =
      withBitNumber (mkOp n r o (eaModeBits ea) (eaRegBits ea)) xs f) :
    decode (encodeEa2 n r o (bitNumberWord k) .B ea ++ ws) = .ok (f k ea, ws) := by
  obtain ⟨hc, hf⟩ := Bool.and_eq_true_iff.1 h
  have hhi : (bitNumberWord k).extractLsb' 8 8 = 0 := BitVec.extractLsb'_append_eq_left
  have hlo : (bitNumberWord k).extractLsb' 0 8 = k := opByte_append 0 k
  refine (hrow _).trans ?_
  simp [withBitNumber, eaKindIn_bits hc, eaOperand_encode .B ea ws hf, bind, Except.bind, hhi, hlo]

theorem decode_longWord (f : Word16 → Ea → Except DecodeError Instr) (h : ea.ok .short .L = true)
    (hrow : ∀ xs, decode (mkOp n r o (eaModeBits ea) (eaRegBits ea) :: xs) =
      withLongWord (mkOp n r o (eaModeBits ea) (eaRegBits ea)) xs f) (hf : f w2 ea = .ok i) :
    decode (encodeEa2 n r o w2 .L ea ++ ws) = .ok (i, ws) := by
  obtain ⟨hc, he⟩ := Bool.and_eq_true_iff.1 h
  refine (hrow _).trans ?_
  simp [withLongWord, eaKindIn_bits hc, eaOperand_encode .L ea ws he, bind, Except.bind, hf]

theorem decode_mask {mask : BitVec 16} {f : BitVec 16 → Ea → Instr} (h : ea.ok .movem .L = true)
    (hrow : ∀ xs, decode (mkOp n r o (eaModeBits ea) (eaRegBits ea) :: xs) =
      withMask (mkOp n r o (eaModeBits ea) (eaRegBits ea)) xs f) :
    decode (encodeEa2 n r o mask .L ea ++ ws) = .ok (f mask ea, ws) := by
  obtain ⟨hc, he⟩ := Bool.and_eq_true_iff.1 h
  refine (hrow _).trans ?_
  simp [withMask, eaKindIn_bits hc, eaOperand_encode .L ea ws he, bind, Except.bind]

end

/-- The second word of a long multiply is read back (R93). -/
theorem longMultiply_longWord (x : Reg) (b : Bool) (ea : Ea) :
    longMultiply (longWord x b 0) ea = .ok (if b then .mulsL ea x else .muluL ea x) := by
  have hfields : ∀ (x : Reg) (b : Bool), (longWord x b 0).getLsbD 15 = false ∧ (longWord x b 0).extractLsb' 0 11 = 0 ∧
    (longWord x b 0).getLsbD 11 = b ∧ regOf ((longWord x b 0).extractLsb' 12 3) = x := by decide
  obtain ⟨h15, hzero, hsign, hreg⟩ := hfields x b
  simp only [longMultiply, h15, hzero, hsign, hreg, ne_eq, not_true, decide_false, Bool.or_false, Bool.false_eq_true,
    if_false]

/-- The second word of a long divide or remainder is read back (R93): equal registers are the divide. -/
theorem longDivide_longWord (x w : Reg) (b : Bool) (ea : Ea) : longDivide (longWord x b (regBits w)) ea = .ok
    (if w = x then (if b then .divsL ea x else .divuL ea x) else (if b then .remsL ea w x else .remuL ea w x)) := by
  have hfields : ∀ (x w : Reg) (b : Bool), (longWord x b (regBits w)).getLsbD 15 = false ∧
    (longWord x b (regBits w)).extractLsb' 3 8 = 0 ∧ (longWord x b (regBits w)).getLsbD 11 = b ∧
    regOf ((longWord x b (regBits w)).extractLsb' 12 3) = x ∧ regOf ((longWord x b (regBits w)).extractLsb' 0 3) = w := by
    decide
  obtain ⟨h15, hzero, hsign, hx, hw⟩ := hfields x w b
  simp only [longDivide, h15, hzero, hsign, hx, hw, ne_eq, not_true, decide_false, Bool.or_false, Bool.false_eq_true,
    if_false]
  split
  · rfl
  · rfl

theorem decode_encodeBranch {cc : Cond} {d : BranchDisp} {f : BranchDisp → Instr} (h : d.ok = true)
    (hrow : ∀ w xs, Cond.ofBits (opCond w) = cc → decode6 w xs = withBranch w xs f) (ws : List Word16) :
    decode (encodeBranch cc d ++ ws) = .ok (f d, ws) := by
  have hop : ∀ (b : BitVec 8) xs, decode (((6 : BitVec 4) ++ cc.toBits ++ b) :: xs) =
      withBranch ((6 : BitVec 4) ++ cc.toBits ++ b) xs f := by
    intro b xs
    rw [← hrow _ _ (by simp), decode, opNibble_append]
    rfl
  cases d with
  | byte b =>
    obtain ⟨h0, h1⟩ : b ≠ 0 ∧ b ≠ 0xFF := by simpa [BranchDisp.ok] using h
    refine (hop b ws).trans ?_
    rw [withBranch, opByte_append, if_neg h0, if_neg h1]
  | word b =>
    refine (hop 0 (b :: ws)).trans ?_
    rw [withBranch, opByte_append, if_pos rfl]
    rfl

/-- The instruction of a MOVE's size and operands: MOVEA where the destination is an address register (R206, R207). -/
def moveOf (z : Size) (src dst : Ea) : Except DecodeError Instr :=
  match z, dst with
  | .B, .an _ => .error .undecodedOpword
  | .W, .an r => .ok (.moveaW src r)
  | .L, .an r => .ok (.moveaL src r)
  | .B, d => .ok (.moveB src d)
  | .W, d => .ok (.moveW src d)
  | .L, d => .ok (.moveL src d)

theorem decodeMove_eq (z : Size) (w : Word16) (ws : List Word16) : decodeMove z w ws = (do
    let src ← eaKindIn (sourceClass z) (opEaMode w) (opEaReg w)
    let dst ← eaKindIn (destClass z) (opMode w) (opReg w)
    if movePair src dst then
      let (s, ws) ← eaOperand z src (opEaReg w) ws
      let (d, ws) ← eaOperand z dst (opReg w) ws
      let i ← moveOf z s d
      .ok (i, ws)
    else .error .undecodedOpword) := by
  have hlast : ∀ (s d : Ea) (ws : List Word16), (do let i ← moveOf z s d; .ok (i, ws) : Decoded) =
      (match z, d with
      | .B, .an _ => .error .undecodedOpword
      | .W, .an r => .ok (.moveaW s r, ws)
      | .L, .an r => .ok (.moveaL s r, ws)
      | .B, d => .ok (.moveB s d, ws)
      | .W, d => .ok (.moveW s d, ws)
      | .L, d => .ok (.moveL s d, ws)) := by
    intro s d ws
    cases z <;> cases d <;> rfl
  simp only [hlast]
  rfl

/-- The size nibble of MOVE (R206). -/
def moveNibble : Size → BitVec 4
  | .B => 1
  | .W => 3
  | .L => 2

theorem decode_of_moveNibble {z : Size} {w : Word16} (h : opNibble w = moveNibble z) (ws : List Word16) :
    decode (w :: ws) = decodeMove z w ws := by
  rw [decode, h]
  cases z <;> rfl

theorem decode_encodeMove {z : Size} {src dst : Ea} {i : Instr} (hs : src.ok (sourceClass z) z = true)
    (hd : dst.ok (destClass z) z = true) (hp : movePair src.kind dst.kind = true) (hi : moveOf z src dst = .ok i)
    (ws : List Word16) : decode (encodeMove (moveNibble z) z src dst ++ ws) = .ok (i, ws) := by
  obtain ⟨hsc, hsf⟩ := Bool.and_eq_true_iff.1 hs
  obtain ⟨hdc, hdf⟩ := Bool.and_eq_true_iff.1 hd
  rw [encodeMove, List.cons_append, decode_of_moveNibble (opNibble_mkOp ..), decodeMove_eq, List.append_assoc]
  simp [eaKindIn_bits hsc, eaKindIn_bits hdc, hp, eaOperand_encode _ _ _ hsf, eaOperand_encode _ _ _ hdf, hi,
    bind, Except.bind]

end Sys2Proof
end

section
namespace Sys2Proof

/-! ### The opwords that hold other fields (R87 to R89) -/

/-- The opword of Scc has two opmodes, by the lowest bit of its condition (R89). -/
theorem scc_fields : ∀ (cc : Cond) (r : Reg),
    let w : Word16 := (5 : BitVec 4) ++ cc.toBits ++ (3 : BitVec 2) ++ (0 : BitVec 3) ++ regBits r
    opNibble w = 5 ∧ (opMode w = 3 ∨ opMode w = 7) ∧ opEaMode w = 0 ∧ opEaReg w = regBits r ∧ opCond w = cc.toBits := by
  intro cc r; revert r; cases cc <;> decide

theorem decode_scc (cc : Cond) (r : Reg) (ws : List Word16) : decode (encode (.scc cc r) ++ ws) = .ok (.scc cc r, ws) := by
  obtain ⟨hn, ho, hm, he, hc⟩ := scc_fields cc r
  rw [encode, List.cons_append, List.nil_append]
  generalize (5 : BitVec 4) ++ cc.toBits ++ (3 : BitVec 2) ++ (0 : BitVec 3) ++ regBits r = w at hn ho hm he hc
  obtain ho | ho := ho
  all_goals simp [decode, decode5, withDn, hn, ho, hm, he, hc]

theorem moveq_fields (v : BitVec 8) (r : Reg) :
    let w : Word16 := (7 : BitVec 4) ++ regBits r ++ (0 : BitVec 1) ++ v
    opNibble w = 7 ∧ w.getLsbD 8 = false ∧ opByte w = v ∧ opReg w = regBits r := by
  have hop : (7 : BitVec 4) ++ regBits r ++ (0 : BitVec 1) ++ v =
      mkOp 7 (regBits r) ((0 : BitVec 1) ++ v.extractLsb' 6 2) (v.extractLsb' 3 3) (v.extractLsb' 0 3) := by
    apply BitVec.eq_of_getLsbD_eq; intro i hi
    simp only [mkOp, BitVec.getLsbD_append]
    interval_cases i <;> simp
  refine ⟨hop ▸ opNibble_mkOp .., ?_, opByte_append _ v, hop ▸ opReg_mkOp ..⟩
  simp only [BitVec.getLsbD_append]
  simp

theorem decode_moveq (v : BitVec 8) (r : Reg) (ws : List Word16) :
    decode (encode (.moveq v r) ++ ws) = .ok (.moveq v r, ws) := by
  obtain ⟨hn, hb, hv, hr⟩ := moveq_fields v r
  rw [encode, List.cons_append, List.nil_append, decode, hn]
  change decode7 _ ws = _
  rw [decode7, hb, hv, hr]
  rfl

theorem trap_fields : ∀ v : BitVec 4,
    let w : Word16 := (0x4E4 : BitVec 12) ++ v
    opNibble w = 4 ∧ opReg w = 7 ∧ opMode w = 1 ∧ (opEaMode w = 0 ∨ opEaMode w = 1) ∧ w.extractLsb' 0 4 = v := by decide

theorem decode_trap (v : BitVec 4) (ws : List Word16) : decode (encode (.trap v) ++ ws) = .ok (.trap v, ws) := by
  obtain ⟨hn, hr, ho, hm, hv⟩ := trap_fields v
  rw [encode, List.cons_append, List.nil_append]
  generalize (0x4E4 : BitVec 12) ++ v = w at hn hr ho hm hv
  obtain hm | hm := hm
  all_goals simp [decode, decode4, decodeMisc, hn, hr, ho, hm, hv]

/-- LEA into A4 shares its opmode with EXTB, which has EA mode 000. -/
theorem decode4_lea {w : Word16} (ws : List Word16) (ho : opMode w = 7) (hm : opEaMode w ≠ 0) :
    decode4 w ws = withEa .control .L w ws (.lea · (regOf (opReg w))) := by
  rw [decode4, ho]
  by_cases hr : opReg w = 4
  · rw [hr]
    exact if_neg hm
  · split
    case h_1 h _ => exact absurd (BitVec.eq_of_toNat_eq h) hr
    case h_2 => rfl
    all_goals contradiction

/-! ### Row by row of the opcode map (R95) -/

theorem ok_destClass {z : Size} {dst : Ea} (h : dst.ok .dataAlterable z = true) : dst.ok (destClass z) z = true := by
  cases z with
  | B => exact h
  | _ =>
    cases dst with
    | pcDisp d => cases h
    | pcIndex x => cases h
    | imm v => cases h
    | _ => rfl

/-- A MOVE to a data alterable destination is no MOVEA (R206). -/
theorem moveOf_of_ok {z : Size} {dst : Ea} (src : Ea) (h : dst.ok .dataAlterable z = true) :
    moveOf z src dst = .ok (match z with | .B => .moveB src dst | .W => .moveW src dst | .L => .moveL src dst) := by
  cases dst with
  | an r => cases h
  | _ => cases z <;> rfl

theorem movePair_an (k : EaKind) : movePair k .an = true := by cases k <;> rfl

theorem moveParts {c : EaClass} {z : Size} {src dst : Ea}
    (h : (src.ok c z && dst.ok .dataAlterable z && movePair src.kind dst.kind) = true) :
    src.ok c z = true ∧ dst.ok .dataAlterable z = true ∧ movePair src.kind dst.kind = true := by
  simpa [and_assoc] using h

/-- Settles O7: a case for each row of the opcode map. -/
theorem decodeOfEncodeIsIdentity : Obligations.DecodeOfEncodeIsIdentity := by
  intro i ws h
  cases i with
  -- 0000: immediate and bit instructions
  | btstReg y ea => exact decode_encodeEa (.btstReg y) h (fun _ => by simp [decode, decode0])
  | bchgReg y ea => exact decode_encodeEa (.bchgReg y) h (fun _ => by simp [decode, decode0])
  | bclrReg y ea => exact decode_encodeEa (.bclrReg y) h (fun _ => by simp [decode, decode0])
  | bsetReg y ea => exact decode_encodeEa (.bsetReg y) h (fun _ => by simp [decode, decode0])
  | btstImm k ea | bchgImm k ea | bclrImm k ea | bsetImm k ea =>
    exact decode_bitNumber h (fun _ => by simp [decode, decode0])
  | ori v r | andi v r | subi v r | addi v r | eori v r | cmpi v r =>
    exact decode_imm32 (fun _ => by simp [decode, decode0])
  -- 0001, 0010, 0011: MOVE and MOVEA
  | moveB src dst =>
    obtain ⟨hs, hd, hp⟩ := moveParts h
    exact decode_encodeMove (z := .B) hs (ok_destClass hd) hp (moveOf_of_ok src hd) ws
  | moveL src dst =>
    obtain ⟨hs, hd, hp⟩ := moveParts h
    exact decode_encodeMove (z := .L) hs (ok_destClass hd) hp (moveOf_of_ok src hd) ws
  | moveW src dst =>
    obtain ⟨hs, hd, hp⟩ := moveParts h
    exact decode_encodeMove (z := .W) hs (ok_destClass hd) hp (moveOf_of_ok src hd) ws
  | moveaW src r => exact decode_encodeMove (z := .W) (dst := .an r) h rfl (movePair_an src.kind) rfl ws
  | moveaL src r => exact decode_encodeMove (z := .L) (dst := .an r) h rfl (movePair_an src.kind) rfl ws
  -- 0100: miscellaneous
  | lea ea r =>
    have hm := eaModeBits_ne_zero h rfl
    exact decode_encodeEa (.lea · r) h (fun _ => by simp [decode, decode4_lea, hm])
  | pea ea =>
    have hm := eaModeBits_ne_zero h rfl
    exact decode_encodeEa .pea h (fun _ => by simp [decode, decode4, hm])
  | clrB ea => exact decode_encodeEa .clrB h (fun _ => by simp [decode, decode4])
  | clrW ea => exact decode_encodeEa .clrW h (fun _ => by simp [decode, decode4])
  | clrL ea => exact decode_encodeEa .clrL h (fun _ => by simp [decode, decode4])
  | tstB ea => exact decode_encodeEa .tstB h (fun _ => by simp [decode, decode4])
  | tstW ea => exact decode_encodeEa .tstW h (fun _ => by simp [decode, decode4])
  | tstL ea => exact decode_encodeEa .tstL h (fun _ => by simp [decode, decode4])
  | jmp ea => exact decode_encodeEa .jmp h (fun _ => by simp [decode, decode4])
  | jsr ea => exact decode_encodeEa .jsr h (fun _ => by simp [decode, decode4])
  | moveToCcr src => exact decode_encodeEa .moveToCcr h (fun _ => by simp [decode, decode4])
  | negx r | neg r | notDn r | moveFromCcr r | swap r | extW r | extL r | extbL r =>
    simp [encode, decode, decode4, withDn]
  | mulsL ea r | muluL ea r =>
    exact decode_longWord longMultiply h (fun _ => by simp [decode, decode4]) (longMultiply_longWord ..)
  | divsL ea r | divuL ea r =>
    exact decode_longWord longDivide h (fun _ => by simp [decode, decode4]) (by simp [longDivide_longWord])
  | remsL ea w x | remuL ea w x =>
    obtain ⟨hok, hne⟩ : ea.ok .short .L = true ∧ w ≠ x := by simpa [Instr.wf] using h
    exact decode_longWord longDivide hok (fun _ => by simp [decode, decode4]) (by simp [longDivide_longWord, hne])
  | movemLoad mask ea => exact decode_mask h (fun _ => by simp [decode, decode4])
  | movemStore mask ea =>
    have hm := eaModeBits_ne_zero h rfl
    exact decode_mask h (fun _ => by simp [decode, decode4, hm])
  | nop | rts | unlk r => simp [encode, decode, decode4, decodeMisc]
  | link r d => simp [encode, decode, decode4, decodeMisc, bind, Except.bind]
  | trap v => exact decode_trap v ws
  -- 0101: ADDQ, SUBQ, Scc
  | addq q ea => exact decode_encodeEa (.addq q) h (fun _ => by simp [decode, decode5])
  | subq q ea => exact decode_encodeEa (.subq q) h (fun _ => by simp [decode, decode5])
  | scc cc r => exact decode_scc cc r ws
  -- 0110, 0111: the branches, MOVEQ
  | bra d => exact decode_encodeBranch h (fun _ _ hcc => by rw [decode6, hcc]) ws
  | bsr d => exact decode_encodeBranch h (fun _ _ hcc => by rw [decode6, hcc]) ws
  | bcc cc d =>
    obtain ⟨hd, hT, hF⟩ : d.ok = true ∧ cc ≠ .T ∧ cc ≠ .F := by simpa [Instr.wf, and_assoc] using h
    refine decode_encodeBranch hd (fun w xs hcc => ?_) ws
    rw [decode6, hcc]
    cases cc with
    | T => exact absurd rfl hT
    | F => exact absurd rfl hF
    | _ => rfl
  | moveq v r => exact decode_moveq v r ws
  -- 1000, 1001: OR, the word divides, SUB
  | orEaDn ea r => exact decode_encodeEa (.orEaDn · r) h (fun _ => by simp [decode, decode8])
  | orDnEa r ea => exact decode_encodeEa (.orDnEa r) h (fun _ => by simp [decode, decode8])
  | divuW ea r => exact decode_encodeEa (.divuW · r) h (fun _ => by simp [decode, decode8])
  | divsW ea r => exact decode_encodeEa (.divsW · r) h (fun _ => by simp [decode, decode8])
  | subEaDn ea r => exact decode_encodeEa (.subEaDn · r) h (fun _ => by simp [decode, decode9])
  | suba ea r => exact decode_encodeEa (.suba · r) h (fun _ => by simp [decode, decode9])
  | subx y x => simp [encode, decode, decode9, withDn]
  | subDnEa r ea =>
    have hm := eaModeBits_ne_zero h rfl
    exact decode_encodeEa (.subDnEa r) h (fun _ => by simp [decode, decode9, hm])
  -- 1011, 1100: CMP and EOR, AND and the word multiplies
  | cmp ea r => exact decode_encodeEa (.cmp · r) h (fun _ => by simp [decode, decodeB])
  | cmpa ea r => exact decode_encodeEa (.cmpa · r) h (fun _ => by simp [decode, decodeB])
  | eor r ea => exact decode_encodeEa (.eor r) h (fun _ => by simp [decode, decodeB])
  | andEaDn ea r => exact decode_encodeEa (.andEaDn · r) h (fun _ => by simp [decode, decodeC])
  | andDnEa r ea => exact decode_encodeEa (.andDnEa r) h (fun _ => by simp [decode, decodeC])
  | muluW ea r => exact decode_encodeEa (.muluW · r) h (fun _ => by simp [decode, decodeC])
  | mulsW ea r => exact decode_encodeEa (.mulsW · r) h (fun _ => by simp [decode, decodeC])
  -- 1101, 1110: ADD, the shifts
  | addEaDn ea r => exact decode_encodeEa (.addEaDn · r) h (fun _ => by simp [decode, decodeD])
  | adda ea r => exact decode_encodeEa (.adda · r) h (fun _ => by simp [decode, decodeD])
  | addx y x => simp [encode, decode, decodeD, withDn]
  | addDnEa r ea =>
    have hm := eaModeBits_ne_zero h rfl
    exact decode_encodeEa (.addDnEa r) h (fun _ => by simp [decode, decodeD, hm])
  | asrImm c r | lsrImm c r | aslImm c r | lslImm c r | asrReg y r | lsrReg y r | aslReg y r | lslReg y r =>
    simp [encode, decode, decodeE]

end Sys2Proof
end

section
namespace Sys2Proof

/-! ### What a part of the decoder reads

A part of the decoder that succeeds takes a number of words that does not depend on them, answers the same whatever stands
after those, and finds too few words before the last of them. -/

/-- The words `pre` are what `p` needs for its answer `a`, no more and no fewer (R82). -/
structure Takes {α : Type} (p : List Word16 → Except DecodeError (α × List Word16)) (a : α) (pre : List Word16) : Prop where
  whole : ∀ more, p (pre ++ more) = .ok (a, more)
  short : ∀ k, k < pre.length → p (pre.take k) = .error .truncated

/-- Every success of `p` takes `n` words, of which and of the answer `R` holds. -/
def Reads {α : Type} (p : List Word16 → Except DecodeError (α × List Word16)) (n : Nat)
    (R : α → List Word16 → Prop) : Prop :=
  ∀ ws a rest, p ws = .ok (a, rest) → ∃ pre, ws = pre ++ rest ∧ pre.length = n ∧ R a pre ∧ Takes p a pre

section
variable {α β : Type} {n m : Nat}

theorem Reads.error (e : DecodeError) (n : Nat) (R : α → List Word16 → Prop) : Reads (fun _ => .error e) n R :=
  fun _ _ _ h => nomatch h

theorem Reads.ok {a : α} {R : α → List Word16 → Prop} (h : R a []) : Reads (fun ws => .ok (a, ws)) 0 R := by
  intro ws b rest hp
  cases hp
  exact ⟨[], rfl, rfl, h, fun _ => rfl, fun k hk => absurd hk k.not_lt_zero⟩

/-- A check that reads no word. -/
theorem Reads.check {x : Except DecodeError β} {f : β → List Word16 → Except DecodeError (α × List Word16)}
    {R : α → List Word16 → Prop} (h : ∀ b, x = .ok b → Reads (f b) n R) :
    Reads (fun ws => x >>= fun b => f b ws) n R := by
  cases x with
  | ok b => exact h b rfl
  | error e => exact Reads.error e n R

theorem Reads.ite {P : Prop} [Decidable P] {p q : List Word16 → Except DecodeError (α × List Word16)}
    {R : α → List Word16 → Prop} (hp : P → Reads p n R) (hq : ¬ P → Reads q n R) :
    Reads (fun ws => if P then p ws else q ws) n R := by
  by_cases h : P
  · simpa only [if_pos h] using hp h
  · simpa only [if_neg h] using hq h

theorem Reads.bind {p : List Word16 → Except DecodeError (β × List Word16)}
    {f : β × List Word16 → Except DecodeError (α × List Word16)} {S : β → List Word16 → Prop}
    {R : α → List Word16 → Prop} (hp : Reads p m S)
    (hf : ∀ b pre, S b pre → Reads (fun ws => f (b, ws)) n fun a post => R a (pre ++ post)) :
    Reads (fun ws => p ws >>= f) (n + m) R := by
  intro ws a rest h
  cases hpw : p ws with
  | error e => simp only [hpw] at h; exact nomatch h
  | ok x =>
    obtain ⟨b, ws'⟩ := x
    simp only [hpw] at h
    obtain ⟨pre, rfl, rfl, hS, hpre⟩ := hp _ _ _ hpw
    obtain ⟨post, rfl, rfl, hR, hpost⟩ := hf b pre hS _ _ _ h
    have hlen : (pre ++ post).length = post.length + pre.length := List.length_append.trans (Nat.add_comm ..)
    refine ⟨pre ++ post, (List.append_assoc ..).symm, hlen, hR, fun more => ?_, fun k hk => ?_⟩
    · rw [List.append_assoc, hpre.whole]
      exact hpost.whole more
    · by_cases hkm : k < pre.length
      · rw [List.take_append_of_le_length hkm.le, hpre.short k hkm]
        rfl
      · have hk' : k = pre.length + (k - pre.length) := by omega
        rw [hk', List.take_length_add_append, hpre.whole]
        exact hpost.short _ (by omega)

end

/-! ### The operand words (R84 to R86) -/

theorem nextWord_reads : Reads nextWord 1 fun w pre => pre = [w] := by
  intro ws w rest h
  cases ws with
  | nil => exact nomatch h
  | cons x xs =>
    cases h
    refine ⟨[w], rfl, rfl, rfl, fun _ => rfl, fun k hk => ?_⟩
    obtain rfl : k = 0 := Nat.lt_one_iff.1 hk
    rfl

theorem longWords_append (hi lo : Word16) : longWords (hi ++ lo) = [hi, lo] := by
  have hhi : (hi ++ lo).extractLsb' 16 16 = hi := BitVec.extractLsb'_append_eq_left
  have hlo : (hi ++ lo).extractLsb' 0 16 = lo := BitVec.extractLsb'_append_eq_right
  rw [longWords, hhi, hlo]

theorem nextLong_reads : Reads nextLong 2 fun v pre => pre = longWords v := by
  refine nextWord_reads.bind fun hi pre hpre => ?_
  refine nextWord_reads.bind fun lo post hpost => ?_
  refine Reads.ok ?_
  rw [hpre, hpost, longWords_append]
  rfl

theorem scaleBits_of_scaleOf : ∀ (b : BitVec 2) (x : Scale), scaleOf b = some x → scaleBits x = b := by
  intro b x; revert b; cases x <;> decide

/-- An index word that is not reserved is the encoding of what it is read as (R84). -/
theorem encodeIndexWord_of_decode {w : Word16} {x : IndexWord} (h : decodeIndexWord w = .ok x) : encodeIndexWord x = w := by
  unfold decodeIndexWord at h
  split at h
  case isFalse => exact nomatch h
  case isTrue hbits =>
    obtain ⟨h11, h8⟩ : w[11] = true ∧ w[8] = false := by simpa using hbits
    split at h
    case h_2 => exact nomatch h
    case h_1 sc hsc =>
      cases h
      rw [encodeIndexWord, scaleBits_of_scaleOf _ _ hsc, regBits_regOf]
      apply BitVec.eq_of_getLsbD_eq; intro i hi
      simp only [BitVec.getLsbD_append]
      interval_cases i <;> simp [h11, h8]

/-- The mode field of a kind (R60). -/
def EaKind.mode : EaKind → BitVec 3
  | .dn => 0 | .an => 1 | .ind => 2 | .postinc => 3 | .predec => 4 | .disp => 5 | .index => 6
  | .pcDisp | .pcIndex | .absW | .absL | .imm => 7

/-- The register field of a kind, where the mode is 111 (R60). -/
def EaKind.fixedReg : EaKind → Option (BitVec 3)
  | .absW => some 0 | .absL => some 1 | .pcDisp => some 2 | .pcIndex => some 3 | .imm => some 4
  | _ => none

theorem eaKindOf_fields {m e : BitVec 3} {k : EaKind} (h : eaKindOf m e = some k) : m = k.mode ∧ k.fixedReg.getD e = e := by
  revert m e
  cases k <;> decide

/-- An operand of a class and a size, with the fields of its mode and its words: the encoder's, or any word whose low byte
is the byte immediate (R86). -/
structure OperandRead (c : EaClass) (z : Size) (m e : BitVec 3) (ea : Ea) (pre : List Word16) : Prop where
  ok : ea.ok c z = true
  mode : eaModeBits ea = m
  reg : eaRegBits ea = e
  words : pre = encodeEaWords z ea ∨ z = .B ∧ ∃ x : Word16, ea = .imm ((x.setWidth 8).setWidth 32) ∧ pre = [x]

theorem eaKindIn_ok {c : EaClass} {m e : BitVec 3} {k : EaKind} (h : eaKindIn c m e = .ok k) :
    eaKindOf m e = some k ∧ c.allows k = true := by
  unfold eaKindIn at h
  split at h
  case h_2 => exact nomatch h
  case h_1 k' hk =>
    split at h
    case isTrue hc => cases h; exact ⟨hk, hc⟩
    case isFalse => exact nomatch h

theorem eaOperand_reads {c : EaClass} (z : Size) {m e : BitVec 3} {k : EaKind} (h : eaKindIn c m e = .ok k) :
    Reads (eaOperand z k e) (k.extWords z) (OperandRead c z m e) := by
  obtain ⟨hk, hc⟩ := eaKindIn_ok h
  obtain ⟨hm, he⟩ := eaKindOf_fields hk
  have hok : ∀ ea : Ea, ea.kind = k → ea.fits z = true → ea.ok c z = true := fun ea h1 h2 => by
    rw [Ea.ok, h1, h2, hc]; rfl
  cases k with
  | dn => exact .ok ⟨hok _ rfl rfl, hm.symm, he, .inl rfl⟩
  | an => exact .ok ⟨hok _ rfl rfl, hm.symm, he, .inl rfl⟩
  | ind => exact .ok ⟨hok _ rfl rfl, hm.symm, he, .inl rfl⟩
  | postinc => exact .ok ⟨hok _ rfl rfl, hm.symm, he, .inl rfl⟩
  | predec => exact .ok ⟨hok _ rfl rfl, hm.symm, he, .inl rfl⟩
  | disp | pcDisp | absW =>
    refine nextWord_reads.bind fun d pre hpre => ?_
    exact .ok ⟨hok _ rfl rfl, hm.symm, he, .inl (by rw [hpre]; rfl)⟩
  | absL =>
    refine nextLong_reads.bind fun a pre hpre => ?_
    exact .ok ⟨hok _ rfl rfl, hm.symm, he, .inl (by rw [hpre]; rfl)⟩
  | index | pcIndex =>
    refine nextWord_reads.bind fun w pre hpre => ?_
    refine .check fun x hx => ?_
    exact .ok ⟨hok _ rfl rfl, hm.symm, he, .inl (by rw [hpre, encodeEaWords, encodeIndexWord_of_decode hx]; rfl)⟩
  | imm =>
    cases z with
    | B =>
      refine nextWord_reads.bind fun w pre hpre => ?_
      exact .ok ⟨hok _ rfl (by simp [Ea.fits, Size.trunc]), hm.symm, he, .inr ⟨rfl, w, rfl, by rw [hpre]; rfl⟩⟩
    | W =>
      have hlow : ∀ w : Word16, (w.setWidth 32).extractLsb' 0 16 = w := fun w => BitVec.eq_of_toNat_eq (by simp; omega)
      refine nextWord_reads.bind fun w pre hpre => ?_
      exact .ok ⟨hok _ rfl (by simp [Ea.fits, Size.trunc]), hm.symm, he, .inl (by rw [hpre, encodeEaWords, hlow]; rfl)⟩
    | L =>
      refine nextLong_reads.bind fun v pre hpre => ?_
      exact .ok ⟨hok _ rfl (by simp [Ea.fits, Size.trunc]), hm.symm, he, .inl (by rw [hpre]; rfl)⟩

end Sys2Proof
end

section
namespace Sys2Proof

/-! ### A word from its fields (R81, R89, R94) -/

theorem mkOp_fields (w : Word16) : mkOp (opNibble w) (opReg w) (opMode w) (opEaMode w) (opEaReg w) = w := by
  apply BitVec.eq_of_getLsbD_eq; intro i hi
  simp only [mkOp, opNibble, opReg, opMode, opEaMode, opEaReg, BitVec.getLsbD_append]
  interval_cases i <;> simp

theorem word_halves (w : Word16) : w.extractLsb' 8 8 ++ w.extractLsb' 0 8 = w := by
  apply BitVec.eq_of_getLsbD_eq; intro i hi
  simp only [BitVec.getLsbD_append]
  interval_cases i <;> simp

theorem opNibble_opCond_opByte (w : Word16) : opNibble w ++ opCond w ++ opByte w = w := by
  apply BitVec.eq_of_getLsbD_eq; intro i hi
  simp only [opNibble, opCond, opByte, BitVec.getLsbD_append]
  interval_cases i <;> simp

/-! ### What a row of the opcode map reads -/

/-- The words are an instruction's encoding, but for the ignored byte of a byte immediate (R86). -/
structure ReadAs (i : Instr) (ws : List Word16) : Prop where
  wf : i.wf = true
  length_le : (encode i).length ≤ 3
  length_eq : ws.length = (encode i).length
  exact : (∀ v ea, i ≠ .moveB (.imm v) ea ∧ i ≠ .tstB (.imm v)) → ws = encode i
  byteImm : ∀ v ea, (i = .moveB (.imm v) ea ∨ i = .tstB (.imm v)) →
    ∃ opword x : Word16, ws = [opword, x] ∧ encode i = [opword, x &&& 0xFF] ∧ v.toNat = x.toNat % 2 ^ 8

theorem byteImmediate_word (x : Word16) :
    ((((x.setWidth 8).setWidth 32 : Word).extractLsb' 0 8).setWidth 16 : Word16) = x &&& 0xFF := by
  apply BitVec.eq_of_getLsbD_eq; intro i hi
  simp only [BitVec.getLsbD_setWidth, BitVec.getLsbD_extractLsb', BitVec.getLsbD_and]
  interval_cases i <;> simp

theorem byteImmediate_toNat (x : Word16) : ((x.setWidth 8).setWidth 32 : Word).toNat = x.toNat % 2 ^ 8 := by
  simp only [BitVec.toNat_setWidth]
  omega

/-- A byte immediate is its own low byte (R86). -/
theorem byteImmediate_eq {v : Word} (h : (Ea.imm v).fits .B = true) :
    ∃ x : Word16, v = (x.setWidth 8).setWidth 32 ∧ x &&& 0xFF = x := by
  have hv : (v.setWidth 8).setWidth 32 = v := of_decide_eq_true h
  have hlow : ((v.setWidth 8).setWidth 16 : Word16).setWidth 8 = v.setWidth 8 := BitVec.eq_of_toNat_eq (by simp)
  refine ⟨(v.setWidth 8).setWidth 16, ?_, ?_⟩
  · rw [hlow, hv]
  · rw [← byteImmediate_word]
    apply BitVec.eq_of_toNat_eq
    simp

/-- A MOVE from an immediate has a destination without words (R208). -/
theorem encodeEaWords_of_movePair_imm {z : Size} {dst : Ea} (h : movePair .imm dst.kind = true) :
    encodeEaWords z dst = [] := by
  cases dst with
  | dn | an | ind | postinc | predec => rfl
  | _ => exact nomatch h

/-- A byte immediate read from a word of any upper byte. -/
theorem ReadAs.of_byteImm {i : Instr} {opword x : Word16} (hwf : i.wf = true)
    (hi : (∃ ea, i = .moveB (.imm ((x.setWidth 8).setWidth 32)) ea) ∨ i = .tstB (.imm ((x.setWidth 8).setWidth 32)))
    (henc : encode i = [opword, x &&& 0xFF]) : ReadAs i [opword, x] where
  wf := hwf
  length_le := by simp [henc]
  length_eq := by rw [henc]; rfl
  exact h := by
    obtain ⟨ea, hi⟩ | hi := hi
    · exact absurd hi (h _ ea).1
    · exact absurd hi (h _ (.dn 0)).2
  byteImm v ea h := by
    have hv : v = (x.setWidth 8).setWidth 32 := by
      obtain ⟨ea', rfl⟩ | rfl := hi
      · obtain h | h := h
        · cases h; rfl
        · cases h
      · obtain h | h := h
        · cases h
        · cases h; rfl
    exact ⟨opword, x, rfl, henc, hv ▸ byteImmediate_toNat x⟩

theorem encode_moveB_imm {x : Word16} {dst : Ea} (h : movePair .imm dst.kind = true) :
    encode (.moveB (.imm ((x.setWidth 8).setWidth 32)) dst) =
      [mkOp 1 (eaRegBits dst) (eaModeBits dst) 7 4, x &&& 0xFF] := by
  rw [encode, encodeMove, encodeEaWords_of_movePair_imm h, ← byteImmediate_word]
  rfl

theorem encode_tstB_imm (x : Word16) :
    encode (.tstB (.imm ((x.setWidth 8).setWidth 32))) = [mkOp 4 5 0 7 4, x &&& 0xFF] := by
  rw [← byteImmediate_word]
  rfl

/-- The encoder's own words. -/
theorem ReadAs.of_encode {i : Instr} {ws : List Word16} (hwf : i.wf = true) (hlen : (encode i).length ≤ 3)
    (h : ws = encode i) : ReadAs i ws where
  wf := hwf
  length_le := hlen
  length_eq := by rw [h]
  exact _ := h
  byteImm v ea hi := by
    subst h
    obtain rfl | rfl := hi
    · obtain ⟨hs, _, hp⟩ := moveParts hwf
      obtain ⟨x, rfl, hx⟩ := byteImmediate_eq (Bool.and_eq_true_iff.1 hs).2
      have henc := encode_moveB_imm (x := x) hp
      exact ⟨_, x, henc.trans (by rw [hx]), henc, byteImmediate_toNat x⟩
    · obtain ⟨_, hfits⟩ : (sourceClass .B).allows .imm = true ∧ (Ea.imm v).fits .B = true := Bool.and_eq_true_iff.1 hwf
      obtain ⟨x, rfl, hx⟩ := byteImmediate_eq hfits
      have henc := encode_tstB_imm x
      exact ⟨_, x, henc.trans (by rw [hx]), henc, byteImmediate_toNat x⟩

/-- The instructions of an opword, each read from a number of words that the opword fixes (R98). -/
def Row (w : Word16) (d : List Word16 → Decoded) : Prop := ∃ n, Reads d n fun i pre => ReadAs i (w :: pre)

section
variable {n : BitVec 4} {r o m e : BitVec 3} {c : EaClass} {z : Size} {w : Word16}

theorem Row.undecoded (w : Word16) (x : DecodeError) : Row w fun _ => .error x := ⟨0, Reads.error x 0 _⟩

theorem Row.ite {P : Prop} [Decidable P] {d d' : List Word16 → Decoded} (h : P → Row w d) (h' : ¬ P → Row w d') :
    Row w fun ws => if P then d ws else d' ws := by
  by_cases hP : P
  · simpa only [if_pos hP] using h hP
  · simpa only [if_neg hP] using h' hP

/-- An instruction without a further word. -/
theorem Row.single {i : Instr} (hwf : i.wf = true) (henc : encode i = [w]) : Row w fun ws => .ok (i, ws) :=
  ⟨0, .ok (.of_encode hwf (by simp [henc]) henc.symm)⟩

theorem Row.dn {f : Reg → Instr} (hwf : ∀ q, (f q).wf = true) (henc : ∀ q, encode (f q) = [mkOp n r o 0 (regBits q)]) :
    Row (mkOp n r o m e) fun ws => withDn (mkOp n r o m e) ws f := by
  unfold withDn
  rw [opEaMode_mkOp, opEaReg_mkOp]
  refine .ite (fun hm => ?_) fun _ => .undecoded ..
  subst hm
  exact .single (hwf _) (henc (regOf e))

theorem Row.imm32 {f : Word → Reg → Instr} (hwf : ∀ v q, (f v q).wf = true)
    (henc : ∀ v q, encode (f v q) = mkOp n r o 0 (regBits q) :: longWords v) :
    Row (mkOp n r o 0 e) fun ws => withImm32 (mkOp n r o 0 e) ws f := by
  refine ⟨0 + 2, nextLong_reads.bind fun v pre hpre => ?_⟩
  simp only [opEaReg_mkOp]
  refine .ok (.of_encode (hwf ..) (by rw [henc]; simp [longWords]) ?_)
  rw [henc, hpre, List.append_nil]
  rfl

theorem OperandRead.words_of_not_byte {ea : Ea} {pre : List Word16} (h : OperandRead c z m e ea pre)
    (hc : z = .B → c.allows .imm = false) : pre = encodeEaWords z ea := by
  obtain hw | ⟨hz, x, rfl, _⟩ := h.words
  · exact hw
  · have himm := (Bool.and_eq_true_iff.1 h.ok).1
    rw [show (Ea.imm _).kind = .imm from rfl, hc hz] at himm
    cases himm

/-- The operand of the fields of an opword, if its class has it. -/
theorem Row.operand {f : List Word16 → EaKind → Decoded}
    (h : ∀ k, eaKindIn c m e = .ok k → Row w fun ws => f ws k) : Row w fun ws => eaKindIn c m e >>= f ws := by
  cases hk : eaKindIn c m e with
  | error x => exact .undecoded w x
  | ok k => exact h k hk

theorem Row.ea {f : Ea → Instr} (hc : z = .B → c.allows .imm = false) (hwf : ∀ ea, ea.ok c z = true → (f ea).wf = true)
    (henc : ∀ ea, encode (f ea) = encodeEa n r o z ea) :
    Row (mkOp n r o m e) fun ws => withEa c z (mkOp n r o m e) ws f := by
  unfold withEa
  rw [opEaMode_mkOp, opEaReg_mkOp]
  refine .operand fun k hk => ⟨0 + k.extWords z, (eaOperand_reads z hk).bind fun ea pre hea => ?_⟩
  refine .ok (.of_encode (hwf ea hea.ok) (by rw [henc]; exact (Laws.EncodedLength.of_ea ..).2) ?_)
  rw [henc, encodeEa, hea.mode, hea.reg, hea.words_of_not_byte hc, List.append_nil]

/-- TST.B, which may have a byte immediate. -/
theorem Row.tstB : Row (mkOp 4 5 0 m e) fun ws => withEa (sourceClass .B) .B (mkOp 4 5 0 m e) ws .tstB := by
  unfold withEa
  rw [opEaMode_mkOp, opEaReg_mkOp]
  refine .operand fun k hk => ⟨0 + k.extWords .B, (eaOperand_reads .B hk).bind fun ea pre hea => ?_⟩
  refine .ok ?_
  obtain ⟨hok, rfl, rfl, rfl | ⟨_, x, rfl, rfl⟩⟩ := hea
  · exact .of_encode hok (Laws.EncodedLength.of_ea ..).2 (by rw [List.append_nil]; rfl)
  · exact .of_byteImm hok (.inr rfl) (encode_tstB_imm x)

theorem Row.bitNumber {f : BitVec 8 → Ea → Instr} (hwf : ∀ k ea, ea.ok .short .B = true → (f k ea).wf = true)
    (henc : ∀ k ea, encode (f k ea) = encodeEa2 n r o (bitNumberWord k) .B ea) :
    Row (mkOp n r o m e) fun ws => withBitNumber (mkOp n r o m e) ws f := by
  unfold withBitNumber
  rw [opEaMode_mkOp, opEaReg_mkOp]
  refine .operand fun k hk => ⟨0 + k.extWords .B + 1, nextWord_reads.bind fun x pre hpre => ?_⟩
  refine (eaOperand_reads .B hk).bind fun ea post hea => ?_
  refine .ite (fun hx => ?_) fun _ => Reads.error _ _ _
  refine .ok (.of_encode (hwf _ _ hea.ok) ?_ ?_)
  · rw [henc]; exact (Laws.EncodedLength.of_ea2 _ _ _ _ (Laws.extWords_short hea.ok)).2
  · have hword : bitNumberWord (x.extractLsb' 0 8) = x := by
      rw [bitNumberWord, ← hx]
      exact word_halves x
    rw [henc, encodeEa2, hea.mode, hea.reg, hword, hpre, hea.words_of_not_byte fun _ => rfl, List.append_nil]
    rfl

theorem Row.longWord {f : Word16 → Ea → Except DecodeError Instr}
    (hf : ∀ x ea i, ea.ok .short .L = true → f x ea = .ok i → i.wf = true ∧ encode i = encodeEa2 n r o x .L ea) :
    Row (mkOp n r o m e) fun ws => withLongWord (mkOp n r o m e) ws f := by
  unfold withLongWord
  rw [opEaMode_mkOp, opEaReg_mkOp]
  refine .operand fun k hk => ⟨0 + k.extWords .L + 1, nextWord_reads.bind fun x pre hpre => ?_⟩
  refine (eaOperand_reads .L hk).bind fun ea post hea => ?_
  refine .check fun i hi => ?_
  obtain ⟨hwf, henc⟩ := hf x ea i hea.ok hi
  refine .ok (.of_encode hwf ?_ ?_)
  · rw [henc]; exact (Laws.EncodedLength.of_ea2 _ _ _ _ (Laws.extWords_short hea.ok)).2
  · rw [henc, encodeEa2, hea.mode, hea.reg, hpre, hea.words_of_not_byte nofun, List.append_nil]
    rfl

theorem Row.mask {f : BitVec 16 → Ea → Instr} (hwf : ∀ x ea, ea.ok .movem .L = true → (f x ea).wf = true)
    (henc : ∀ x ea, encode (f x ea) = encodeEa2 n r o x .L ea) :
    Row (mkOp n r o m e) fun ws => withMask (mkOp n r o m e) ws f := by
  unfold withMask
  rw [opEaMode_mkOp, opEaReg_mkOp]
  refine .operand fun k hk => ⟨0 + k.extWords .L + 1, nextWord_reads.bind fun x pre hpre => ?_⟩
  refine (eaOperand_reads .L hk).bind fun ea post hea => ?_
  refine .ok (.of_encode (hwf _ _ hea.ok) ?_ ?_)
  · rw [henc]; exact (Laws.EncodedLength.of_ea2 _ _ _ _ (Laws.extWords_movem hea.ok)).2
  · rw [henc, encodeEa2, hea.mode, hea.reg, hpre, hea.words_of_not_byte nofun, List.append_nil]
    rfl

theorem Row.branch {f : BranchDisp → Instr} {cc : Cond} (hcc : Cond.ofBits (opCond w) = cc) (hn : opNibble w = 6)
    (hwf : ∀ d : BranchDisp, d.ok = true → (f d).wf = true) (henc : ∀ d, encode (f d) = encodeBranch cc d) :
    Row w fun ws => withBranch w ws f := by
  have hw : w = (6 : BitVec 4) ++ cc.toBits ++ opByte w := by
    rw [← hcc, Cond.toBits_ofBits, ← hn, opNibble_opCond_opByte]
  unfold withBranch
  refine .ite (fun h0 => ?_) fun h0 => .ite (fun _ => .undecoded ..) fun h1 => ?_
  · rw [h0] at hw
    refine ⟨0 + 1, nextWord_reads.bind fun d pre hpre => ?_⟩
    refine .ok (.of_encode (hwf _ rfl) (by rw [henc]; simp [encodeBranch]) ?_)
    rw [henc, hpre, encodeBranch, ← hw]
    rfl
  · have hok : (BranchDisp.byte (opByte w)).ok = true := by
      rw [BranchDisp.ok, decide_eq_true h0, decide_eq_true h1]; rfl
    refine .single (hwf _ hok) ?_
    rw [henc, encodeBranch, ← hw]

/-- The instruction of a MOVE's operands has their encoding. -/
theorem moveOf_ok {src dst : Ea} {i : Instr} (hs : src.ok (sourceClass z) z = true) (hd : dst.ok (destClass z) z = true)
    (hp : movePair src.kind dst.kind = true) (h : moveOf z src dst = .ok i) :
    i.wf = true ∧ encode i = encodeMove (moveNibble z) z src dst := by
  by_cases ha : ∃ q, dst = .an q
  · obtain ⟨q, rfl⟩ := ha
    cases z with
    | B => cases h
    | _ => cases h; exact ⟨hs, rfl⟩
  · have hdata : dst.ok .dataAlterable z = true := by
      cases dst with
      | an q => exact absurd ⟨q, rfl⟩ ha
      | _ => cases z <;> exact hd
    have hi := (moveOf_of_ok src hdata).symm.trans h
    have hwf : (src.ok (sourceClass z) z && dst.ok .dataAlterable z && movePair src.kind dst.kind) = true := by
      rw [hs, hdata, hp]; rfl
    cases z <;> cases hi <;> exact ⟨hwf, rfl⟩

theorem OperandRead.kind_eq {ea : Ea} {pre : List Word16} {k : EaKind} (h : OperandRead c z m e ea pre)
    (hk : eaKindIn c m e = .ok k) : ea.kind = k := by
  have hsome := (eaKindIn_ok hk).1
  rw [← h.mode, ← h.reg, eaKindOf_bits] at hsome
  exact Option.some.inj hsome

theorem Row.move : Row (mkOp (moveNibble z) r o m e) (decodeMove z (mkOp (moveNibble z) r o m e)) := by
  have hmove : decodeMove z (mkOp (moveNibble z) r o m e) = _ := funext (decodeMove_eq z _)
  rw [hmove, opEaMode_mkOp, opEaReg_mkOp, opMode_mkOp, opReg_mkOp]
  refine .operand fun j hj => .operand fun k hk => ?_
  refine .ite (fun hp => ?_) fun _ => .undecoded ..
  refine ⟨0 + k.extWords z + j.extWords z, (eaOperand_reads z hj).bind fun src pre hsrc => ?_⟩
  refine (eaOperand_reads z hk).bind fun dst post hdst => ?_
  refine .check fun i hi => .ok ?_
  have hpair : movePair src.kind dst.kind = true := by rw [hsrc.kind_eq hj, hdst.kind_eq hk, hp]
  obtain ⟨hwf, henc⟩ := moveOf_ok hsrc.ok hdst.ok hpair hi
  have hlen : (encode i).length ≤ 3 := by
    rw [henc]; exact (Laws.EncodedLength.of_move _ (Laws.extWords_movePair hpair)).2
  have hpost := hdst.words_of_not_byte fun hz => by rw [hz]; rfl
  have hop : ∀ ws : List Word16, mkOp (moveNibble z) r o m e :: (ws ++ (post ++ [])) =
      mkOp (moveNibble z) (eaRegBits dst) (eaModeBits dst) (eaModeBits src) (eaRegBits src) ::
        (ws ++ encodeEaWords z dst) := fun ws => by
    rw [hdst.reg, hdst.mode, hsrc.mode, hsrc.reg, hpost, List.append_nil]
  rw [hop]
  obtain hpre | ⟨rfl, x, rfl, rfl⟩ := hsrc.words
  · exact .of_encode hwf hlen (by rw [henc, hpre]; rfl)
  · have himm := encode_moveB_imm (x := x) hpair
    rw [encodeEaWords_of_movePair_imm hpair]
    have hi' : i = .moveB (.imm ((x.setWidth 8).setWidth 32)) dst :=
      (Except.ok.inj ((moveOf_of_ok _ hdst.ok).symm.trans hi)).symm
    exact .of_byteImm hwf (.inl ⟨dst, hi'⟩) (hi' ▸ himm)

end

end Sys2Proof
end

section
namespace Sys2Proof

/-! ### The decoder, nibble by nibble (R95)

A field is split into its eight values; those that no row of the nibble lists are closed first, and the rows follow in the
order of their fields. -/

/-- The second word of a long multiply, divide or remainder from its fields (R93). -/
theorem longWord_fields {x : Word16} (hsign : x.getLsbD 15 = false) (hzero : x.extractLsb' 3 8 = 0) :
    longWord (regOf (x.extractLsb' 12 3)) (x.getLsbD 11) (x.extractLsb' 0 3) = x := by
  rw [longWord, regBits_regOf, ← hzero]
  apply BitVec.eq_of_getLsbD_eq; intro i hi
  have h15 : x[15] = false := hsign
  simp only [BitVec.getLsbD_append]
  interval_cases i <;> simp [h15]

theorem longMultiply_ok {x : Word16} {ea : Ea} {i : Instr} (hea : ea.ok .short .L = true) (h : longMultiply x ea = .ok i) :
    i.wf = true ∧ encode i = encodeEa2 4 6 0 x .L ea := by
  unfold longMultiply at h
  split at h
  case isTrue => cases h
  case isFalse hbits =>
    obtain ⟨hsign, hlow⟩ : x.getLsbD 15 = false ∧ x.extractLsb' 0 11 = 0 := by simpa using hbits
    have hw : x.extractLsb' 0 3 = 0 := by
      rw [show x.extractLsb' 0 3 = (x.extractLsb' 0 11).extractLsb' 0 3 by simp, hlow]; rfl
    have hz : x.extractLsb' 3 8 = 0 := by
      rw [show x.extractLsb' 3 8 = (x.extractLsb' 0 11).extractLsb' 3 8 by simp, hlow]; rfl
    have hx := longWord_fields hsign hz
    rw [hw] at hx
    cases hb : x.getLsbD 11
    all_goals
      rw [hb] at h hx
      cases h
      exact ⟨hea, congrArg (encodeEa2 4 6 0 · .L ea) hx⟩

theorem longDivide_ok {x : Word16} {ea : Ea} {i : Instr} (hea : ea.ok .short .L = true) (h : longDivide x ea = .ok i) :
    i.wf = true ∧ encode i = encodeEa2 4 6 1 x .L ea := by
  unfold longDivide at h
  split at h
  case isTrue => cases h
  case isFalse hbits =>
    obtain ⟨hsign, hz⟩ : x.getLsbD 15 = false ∧ x.extractLsb' 3 8 = 0 := by simpa using hbits
    have hx := longWord_fields hsign hz
    rw [← regBits_regOf (x.extractLsb' 0 3)] at hx
    generalize regOf (x.extractLsb' 0 3) = q at h hx
    generalize regOf (x.extractLsb' 12 3) = p at h hx
    generalize x.getLsbD 11 = b at h hx
    dsimp only at h
    split at h
    case isTrue hqp =>
      subst hqp
      cases b <;> cases h <;> exact ⟨hea, congrArg (encodeEa2 4 6 1 · .L ea) hx⟩
    case isFalse hqp =>
      have hwf : (ea.ok .short .L && decide (q ≠ p)) = true := by rw [hea, decide_eq_true hqp]; rfl
      cases b <;> cases h <;> exact ⟨hwf, congrArg (encodeEa2 4 6 1 · .L ea) hx⟩

theorem field_cases : ∀ b : BitVec 3, b = 0 ∨ b = 1 ∨ b = 2 ∨ b = 3 ∨ b = 4 ∨ b = 5 ∨ b = 6 ∨ b = 7 := by decide

section
variable (r o m e : BitVec 3)

variable {r o m e} in
/-- BTST, BCHG, BCLR and BSET of a bit number stand where the register field is 100 (R94). -/
theorem Row.staticBit {f : BitVec 8 → Ea → Instr} {d : List Word16 → Decoded}
    (hwf : ∀ k ea, ea.ok .short .B = true → (f k ea).wf = true)
    (henc : ∀ k ea, encode (f k ea) = encodeEa2 0 4 o (bitNumberWord k) .B ea) (hd : Row (mkOp 0 r o m e) d) :
    Row (mkOp 0 r o m e) fun ws => if r = 4 then withBitNumber (mkOp 0 r o m e) ws f else d ws :=
  .ite (fun hr => by subst hr; exact .bitNumber hwf henc) fun _ => hd

theorem decode0_row : Row (mkOp 0 r o m e) (decode0 (mkOp 0 r o m e)) := by
  unfold decode0
  rw [opMode_mkOp, opReg_mkOp, opEaMode_mkOp]
  obtain rfl | rfl | rfl | rfl | rfl | rfl | rfl | rfl := field_cases o
  · exact .staticBit (fun _ _ h => h) (fun _ _ => rfl) (.ite (fun h => absurd h.1 (by decide)) fun _ => .undecoded ..)
  · exact .staticBit (fun _ _ h => h) (fun _ _ => rfl) (.ite (fun h => absurd h.1 (by decide)) fun _ => .undecoded ..)
  · refine .staticBit (fun _ _ h => h) (fun _ _ => rfl) (.ite (fun h => ?_) fun _ => .undecoded ..)
    obtain ⟨_, rfl⟩ := h
    obtain rfl | rfl | rfl | rfl | rfl | rfl | rfl | rfl := field_cases r
    all_goals try exact .undecoded ..
    all_goals exact .imm32 (fun _ _ => rfl) fun _ _ => rfl
  · exact .staticBit (fun _ _ h => h) (fun _ _ => rfl) (.ite (fun h => absurd h.1 (by decide)) fun _ => .undecoded ..)
  all_goals exact .ea (fun _ => rfl) (fun _ h => h) fun _ => rfl

theorem decodeMisc_row : Row (mkOp 4 7 1 m e) (decodeMisc (mkOp 4 7 1 m e)) := by
  have htrap : ∀ e : BitVec 3, (0x4E4 : BitVec 12) ++ (mkOp 4 7 1 0 e).extractLsb' 0 4 = mkOp 4 7 1 0 e ∧
    (0x4E4 : BitVec 12) ++ (mkOp 4 7 1 1 e).extractLsb' 0 4 = mkOp 4 7 1 1 e := by decide
  obtain ⟨htrap0, htrap1⟩ := htrap e
  unfold decodeMisc
  rw [opEaMode_mkOp, opEaReg_mkOp]
  obtain rfl | rfl | rfl | rfl | rfl | rfl | rfl | rfl := field_cases m
  all_goals try exact .undecoded ..
  · exact .single rfl (congrArg (fun w => [w]) htrap0)
  · exact .single rfl (congrArg (fun w => [w]) htrap1)
  · refine ⟨0 + 1, nextWord_reads.bind fun d pre hpre => ?_⟩
    exact .ok (.of_encode rfl (by simp [encode]) (by rw [hpre]; rfl))
  · exact .single rfl rfl
  · obtain rfl | rfl | rfl | rfl | rfl | rfl | rfl | rfl := field_cases e
    all_goals try exact .undecoded ..
    · exact .single rfl rfl
    · exact .single rfl rfl

theorem decode4_row : Row (mkOp 4 r o m e) (decode4 (mkOp 4 r o m e)) := by
  unfold decode4
  rw [opMode_mkOp, opReg_mkOp, opEaMode_mkOp]
  obtain rfl | rfl | rfl | rfl | rfl | rfl | rfl | rfl := field_cases r
  all_goals obtain rfl | rfl | rfl | rfl | rfl | rfl | rfl | rfl := field_cases o
  all_goals try exact .undecoded ..
  -- 000: NEGX, LEA
  · exact .dn (fun _ => rfl) fun _ => rfl
  · exact .ea nofun (fun _ h => h) fun _ => rfl
  -- 001: CLR, MOVE from CCR, LEA
  · exact .ea (fun _ => rfl) (fun _ h => h) fun _ => rfl
  · exact .ea nofun (fun _ h => h) fun _ => rfl
  · exact .ea nofun (fun _ h => h) fun _ => rfl
  · exact .dn (fun _ => rfl) fun _ => rfl
  · exact .ea nofun (fun _ h => h) fun _ => rfl
  -- 010: NEG, MOVE to CCR, LEA
  · exact .dn (fun _ => rfl) fun _ => rfl
  · exact .ea nofun (fun _ h => h) fun _ => rfl
  · exact .ea nofun (fun _ h => h) fun _ => rfl
  -- 011: NOT, LEA
  · exact .dn (fun _ => rfl) fun _ => rfl
  · exact .ea nofun (fun _ h => h) fun _ => rfl
  -- 100: SWAP and PEA, EXT.W, EXT.L and MOVEM to memory, EXTB and LEA
  · refine .ite (fun _ => ?_) fun _ => ?_
    · exact .dn (fun _ => rfl) fun _ => rfl
    · exact .ea nofun (fun _ h => h) fun _ => rfl
  · exact .dn (fun _ => rfl) fun _ => rfl
  · refine .ite (fun _ => ?_) fun _ => ?_
    · exact .dn (fun _ => rfl) fun _ => rfl
    · exact .mask (fun _ _ h => h) fun _ _ => rfl
  · refine .ite (fun _ => ?_) fun _ => ?_
    · exact .dn (fun _ => rfl) fun _ => rfl
    · exact .ea nofun (fun _ h => h) fun _ => rfl
  -- 101: TST, LEA
  · exact .tstB
  · exact .ea nofun (fun _ h => h) fun _ => rfl
  · exact .ea nofun (fun _ h => h) fun _ => rfl
  · exact .ea nofun (fun _ h => h) fun _ => rfl
  -- 110: the long multiplies, the long divides, MOVEM from memory, LEA
  · exact .longWord fun _ _ _ => longMultiply_ok
  · exact .longWord fun _ _ _ => longDivide_ok
  · exact .mask (fun _ _ h => h) fun _ _ => rfl
  · exact .ea nofun (fun _ h => h) fun _ => rfl
  -- 111: the miscellaneous opwords, JSR, JMP, LEA
  · exact decodeMisc_row m e
  · exact .ea nofun (fun _ h => h) fun _ => rfl
  · exact .ea nofun (fun _ h => h) fun _ => rfl
  · exact .ea nofun (fun _ h => h) fun _ => rfl

/-- The opword of Scc from its fields (R89). -/
theorem scc_opword : ∀ (r o q : BitVec 3), o = 3 ∨ o = 7 →
    (5 : BitVec 4) ++ (r ++ o.extractLsb' 2 1 : BitVec 4) ++ (3 : BitVec 2) ++ (0 : BitVec 3) ++ q = mkOp 5 r o 0 q := by
  decide

theorem opCond_mkOp (n : BitVec 4) (r o m e : BitVec 3) : opCond (mkOp n r o m e) = r ++ o.extractLsb' 2 1 := by
  apply BitVec.eq_of_getLsbD_eq; intro i hi
  simp only [opCond, mkOp, BitVec.getLsbD_append, BitVec.getLsbD_extractLsb']
  interval_cases i <;> simp

theorem decode5_row : Row (mkOp 5 r o m e) (decode5 (mkOp 5 r o m e)) := by
  unfold decode5
  rw [opMode_mkOp, opReg_mkOp, opCond_mkOp]
  have hscc : ∀ o, o = 3 ∨ o = 7 → ∀ q,
      encode (.scc (Cond.ofBits (r ++ o.extractLsb' 2 1)) q) = [mkOp 5 r o 0 (regBits q)] := fun o ho q => by
    rw [encode, Cond.toBits_ofBits, scc_opword _ _ _ ho]
  obtain rfl | rfl | rfl | rfl | rfl | rfl | rfl | rfl := field_cases o
  all_goals try exact .undecoded ..
  · exact .ea nofun (fun _ h => h) fun _ => rfl
  · exact .dn (fun _ => rfl) (hscc 3 (.inl rfl))
  · exact .ea nofun (fun _ h => h) fun _ => rfl
  · exact .dn (fun _ => rfl) (hscc 7 (.inr rfl))

theorem decode6_row {w : Word16} (hn : opNibble w = 6) : Row w (decode6 w) := by
  unfold decode6
  cases hcc : Cond.ofBits (opCond w) with
  | T => exact .branch hcc hn (fun _ h => h) fun _ => rfl
  | F => exact .branch hcc hn (fun _ h => h) fun _ => rfl
  | _ => exact .branch hcc hn (fun _ h => by rw [Instr.wf, h]; rfl) fun _ => rfl

theorem decode7_row {w : Word16} (hn : opNibble w = 7) : Row w (decode7 w) := by
  unfold decode7
  refine .ite (fun _ => .undecoded ..) fun hb => .single rfl ?_
  have hw : (7 : BitVec 4) ++ opReg w ++ (0 : BitVec 1) ++ opByte w = w := by
    have h8 : w[8] = false := by simpa using hb
    rw [← hn]
    apply BitVec.eq_of_getLsbD_eq; intro i hi
    simp only [opNibble, opReg, opByte, BitVec.getLsbD_append]
    interval_cases i <;> simp [h8]
  rw [encode, regBits_regOf, hw]

theorem decode8_row : Row (mkOp 8 r o m e) (decode8 (mkOp 8 r o m e)) := by
  unfold decode8
  rw [opMode_mkOp, opReg_mkOp]
  obtain rfl | rfl | rfl | rfl | rfl | rfl | rfl | rfl := field_cases o
  all_goals try exact .undecoded ..
  all_goals exact .ea nofun (fun _ h => h) fun _ => rfl

theorem decode9_row : Row (mkOp 9 r o m e) (decode9 (mkOp 9 r o m e)) := by
  unfold decode9
  rw [opMode_mkOp, opReg_mkOp, opEaMode_mkOp]
  obtain rfl | rfl | rfl | rfl | rfl | rfl | rfl | rfl := field_cases o
  all_goals try exact .undecoded ..
  · exact .ea nofun (fun _ h => h) fun _ => rfl
  · refine .ite (fun _ => ?_) fun _ => ?_
    · exact .dn (fun _ => rfl) fun _ => rfl
    · exact .ea nofun (fun _ h => h) fun _ => rfl
  · exact .ea nofun (fun _ h => h) fun _ => rfl

theorem decodeB_row : Row (mkOp 11 r o m e) (decodeB (mkOp 11 r o m e)) := by
  unfold decodeB
  rw [opMode_mkOp, opReg_mkOp]
  obtain rfl | rfl | rfl | rfl | rfl | rfl | rfl | rfl := field_cases o
  all_goals try exact .undecoded ..
  all_goals exact .ea nofun (fun _ h => h) fun _ => rfl

theorem decodeC_row : Row (mkOp 12 r o m e) (decodeC (mkOp 12 r o m e)) := by
  unfold decodeC
  rw [opMode_mkOp, opReg_mkOp]
  obtain rfl | rfl | rfl | rfl | rfl | rfl | rfl | rfl := field_cases o
  all_goals try exact .undecoded ..
  all_goals exact .ea nofun (fun _ h => h) fun _ => rfl

theorem decodeD_row : Row (mkOp 13 r o m e) (decodeD (mkOp 13 r o m e)) := by
  unfold decodeD
  rw [opMode_mkOp, opReg_mkOp, opEaMode_mkOp]
  obtain rfl | rfl | rfl | rfl | rfl | rfl | rfl | rfl := field_cases o
  all_goals try exact .undecoded ..
  · exact .ea nofun (fun _ h => h) fun _ => rfl
  · refine .ite (fun hm => ?_) fun _ => ?_
    · exact .dn (fun _ => rfl) fun _ => rfl
    · exact .ea nofun (fun _ h => h) fun _ => rfl
  · exact .ea nofun (fun _ h => h) fun _ => rfl

theorem decodeE_row : Row (mkOp 14 r o m e) (decodeE (mkOp 14 r o m e)) := by
  unfold decodeE
  rw [opMode_mkOp, opReg_mkOp, opEaMode_mkOp, opEaReg_mkOp]
  obtain rfl | rfl | rfl | rfl | rfl | rfl | rfl | rfl := field_cases o
  all_goals obtain rfl | rfl | rfl | rfl | rfl | rfl | rfl | rfl := field_cases m
  all_goals try exact .undecoded ..
  all_goals exact .single rfl rfl

end

theorem nibble_cases : ∀ b : BitVec 4, b = 0 ∨ b = 1 ∨ b = 2 ∨ b = 3 ∨ b = 4 ∨ b = 5 ∨ b = 6 ∨ b = 7 ∨ b = 8 ∨ b = 9 ∨
    b = 10 ∨ b = 11 ∨ b = 12 ∨ b = 13 ∨ b = 14 ∨ b = 15 := by decide

/-- What an opword decodes to, whatever words stand after it (R95, R98). -/
theorem decode_row (w : Word16) : Row w fun ws => decode (w :: ws) := by
  rw [← mkOp_fields w]
  generalize opNibble w = n, opReg w = r, opMode w = o, opEaMode w = m, opEaReg w = e
  simp only [decode]
  rw [opNibble_mkOp]
  obtain rfl | rfl | rfl | rfl | rfl | rfl | rfl | rfl | rfl | rfl | rfl | rfl | rfl | rfl | rfl | rfl := nibble_cases n
  · exact decode0_row ..
  · exact .move (z := .B)
  · exact .move (z := .L)
  · exact .move (z := .W)
  · exact decode4_row ..
  · exact decode5_row ..
  · exact decode6_row (opNibble_mkOp ..)
  · exact decode7_row (opNibble_mkOp ..)
  · exact decode8_row ..
  · exact decode9_row ..
  · exact .undecoded ..
  · exact decodeB_row ..
  · exact decodeC_row ..
  · exact decodeD_row ..
  · exact decodeE_row ..
  · exact .undecoded ..

end Sys2Proof
end

section
namespace Sys2Proof

/-! ### Decoded words against the encoding -/

/-- What a list of words that decodes holds: an opword, the other words of the instruction, and the words after it. -/
theorem decode_ok_cases {ws rest : List Word16} {i : Instr} (h : decode ws = .ok (i, rest)) :
    ∃ w pre, ws = w :: (pre ++ rest) ∧ ReadAs i (w :: pre) ∧ Takes (fun xs => decode (w :: xs)) i pre := by
  cases ws with
  | nil => exact nomatch h
  | cons w tail =>
    obtain ⟨_, hread⟩ := decode_row w
    obtain ⟨pre, rfl, _, hi, hp⟩ := hread _ _ _ h
    exact ⟨w, pre, rfl, hi, hp⟩

/-- Settles O8: the words that were read, and what the row of their opword says of them. -/
theorem decodedWordsAreTheEncoding : Obligations.DecodedWordsAreTheEncoding := by
  intro ws rest i h
  obtain ⟨w, pre, rfl, hi, _⟩ := decode_ok_cases h
  have hlen : pre.length + 1 = (encode i).length := hi.length_eq
  refine ⟨hi.wf, by omega, hi.length_le, ?_, fun hne => ?_, fun v ea hb => ?_⟩
  · rw [← hlen, List.length_cons, List.length_append]; omega
  · rw [← hi.exact hne]; rfl
  · obtain ⟨opword, x, hwords, henc, hv⟩ := hi.byteImm v ea hb
    obtain ⟨rfl, rfl⟩ := List.cons.inj hwords
    exact ⟨w, x, rfl, henc, hv⟩

/-- A well-formed instruction is its opword and as many words as the opword says. -/
theorem encode_length_of_row {w : Word16} {n : Nat} {i : Instr}
    (hn : Reads (fun ws => decode (w :: ws)) n fun i pre => ReadAs i (w :: pre)) (hi : i.wf = true)
    (hw : (encode i).head? = some w) : (encode i).length = n + 1 := by
  obtain ⟨tail, htail⟩ := List.head?_eq_some_iff.1 hw
  have hdec : decode (w :: tail) = .ok (i, []) := by
    rw [← htail, ← List.append_nil (encode i)]
    exact decodeOfEncodeIsIdentity i [] hi
  obtain ⟨pre, hpre, rfl, _⟩ := hn _ _ _ hdec
  rw [htail, hpre, List.append_nil, List.length_cons]

/-- Settles O9: each of the two is as long as the row of the opword says. -/
theorem opwordDeterminesLength : Obligations.OpwordDeterminesLength := by
  intro i j hi hj h
  have hne : encode i ≠ [] := fun hnil => by
    have := decodeOfEncodeIsIdentity i [] hi
    rw [hnil] at this
    exact nomatch this
  obtain ⟨w, hw⟩ := Option.ne_none_iff_exists'.1 fun hnone => hne (List.head?_eq_none_iff.1 hnone)
  obtain ⟨n, hn⟩ := decode_row w
  rw [encode_length_of_row hn hi hw, encode_length_of_row hn hj (h ▸ hw)]

/-- Settles O10: the decoder run on each of the words. -/
theorem specWordsDecode : Obligations.SpecWordsDecode :=
  ⟨rfl, rfl, rfl, rfl, rfl, rfl, rfl, rfl, rfl, rfl, rfl⟩

end Sys2Proof

namespace Sys2Proof.Machine

/-! ### Decoded words against the fetch (R43, R46, R82) -/

/-- The words at the pc, as many as an instruction may have (R80). -/
def State.codeWords (s : State) : List Word16 := [s.wordAt s.pc, s.wordAt (s.pc + 2), s.wordAt (s.pc + 4)]

/-- The first `n` words at the pc are mapped. -/
def State.codeMapped (s : State) (n : Nat) : Prop := ∀ k : Nat, k < 2 * n → s.mapped (s.pc + BitVec.ofNat 32 k) = true

/-- A fetch of a mapped word, one more than those it has. -/
theorem fetchWord_codeWords {s : State} {n k : Nat} (hmap : s.codeMapped n) (hk : k < n) (hn : n ≤ 3) :
    ∃ w, fetchWord (s.nextPc k) s = .ok w ∧ s.codeWords.take k ++ [w] = s.codeWords.take (k + 1) := by
  have hbyte : s.nextPc k + 1 = s.pc + BitVec.ofNat 32 (2 * k + 1) := by
    rw [State.nextPc, BitVec.ofNat_add, BitVec.add_assoc]; rfl
  have hall : (accessBytes .W (s.nextPc k)).all s.mapped = true := by
    simp only [accessBytes, List.all_cons, List.all_nil, hbyte]
    rw [State.nextPc, hmap _ (by omega), hmap _ (by omega)]
    rfl
  refine ⟨_, if_pos hall, ?_⟩
  have hk3 : k < 3 := by omega
  interval_cases k
  · exact congrArg (fun a => [s.wordAt a]) (BitVec.add_zero s.pc)
  · rfl
  · rfl

theorem fetchFrom_of_decode {ws : List Word16} {i : Instr} (n : Nat) (s : State) (h : decode ws = .ok (i, [])) :
    fetchFrom n ws s = .ok i := by
  unfold fetchFrom
  rw [h]

theorem fetchFrom_more {ws : List Word16} {s : State} {w : Word16} (n : Nat) (h : decode ws = .error .truncated)
    (hw : fetchWord (s.nextPc ws.length) s = .ok w) : fetchFrom (n + 1) ws s = fetchFrom n (ws ++ [w]) s := by
  rw [fetchFrom, h, hw]
  rfl

theorem fetchFrom_stop {ws : List Word16} {e : DecodeError} {n : Nat} (s : State) (h : decode ws = .error e)
    (he : e = .truncated → n = 0) : fetchFrom n ws s = .error (undecodedWord (ws.headD 0) s) := by
  cases e with
  | truncated =>
    obtain rfl := he rfl
    rw [fetchFrom, h]
  | _ => unfold fetchFrom; rw [h]

theorem codeWords_take_length {s : State} {k : Nat} (h : k ≤ 3) : (s.codeWords.take k).length = k :=
  List.length_take_of_le h

/-- The words are fetched one by one while the decoder finds too few. -/
theorem fetchFrom_ok {s : State} {i : Instr} {n : Nat} (hmap : s.codeMapped n) (hn : n ≤ 3)
    (hdec : decode (s.codeWords.take n) = .ok (i, []))
    (hshort : ∀ k < n, decode (s.codeWords.take k) = .error .truncated) {k m : Nat} (hk : k ≤ n) (hm : n ≤ k + m) :
    fetchFrom m (s.codeWords.take k) s = .ok i := by
  induction m generalizing k with
  | zero =>
    obtain rfl : k = n := by omega
    exact fetchFrom_of_decode 0 s hdec
  | succ m ih =>
    obtain rfl | hlt := hk.eq_or_lt
    · exact fetchFrom_of_decode _ s hdec
    · obtain ⟨w, hw, htake⟩ := fetchWord_codeWords hmap hlt hn
      rw [fetchFrom_more m (hshort k hlt) (by rw [codeWords_take_length (hk.trans hn)]; exact hw), htake]
      exact ih hlt (by omega)

/-- Settles O11: the instruction's words are the ones fetched. -/
theorem stepRunsDecodedInstruction : Obligations.StepRunsDecodedInstruction := by
  intro s i rest heven hdec hmap
  obtain ⟨w, pre, hws, hi, htakes⟩ := decode_ok_cases hdec
  change s.codeWords = (w :: pre) ++ rest at hws
  have hlen : 3 = (w :: pre).length + rest.length := by
    rw [← List.length_append, ← hws]; rfl
  have htake : s.codeWords.take (w :: pre).length = w :: pre := by rw [hws, List.take_left]
  have hfetch : fetchFrom 3 (s.codeWords.take 0) s = .ok i := by
    refine fetchFrom_ok (n := (w :: pre).length) (fun k hk => hmap k (by omega)) (by omega) ?_ (fun k hk => ?_)
      (Nat.zero_le _) (by omega)
    · rw [htake, ← List.append_nil pre]; exact htakes.whole []
    · rw [hws, List.take_append_of_le_length hk.le]
      cases k with
      | zero => rfl
      | succ k => exact htakes.short k (Nat.lt_of_succ_lt_succ hk)
  have hstep : fetchInstr s = .ok i := by
    rw [fetchInstr, heven, if_neg Bool.false_ne_true]
    exact hfetch
  rw [step, hstep]

/-- More words do not undo a decoding: no part of words that do not decode decodes. -/
theorem decode_take_ne_ok {ws : List Word16} {e : DecodeError} (h : decode ws = .error e) (k : Nat)
    (x : Instr × List Word16) : decode (ws.take k) ≠ .ok x := by
  intro hk
  obtain ⟨w, pre, hws, _, htakes⟩ := decode_ok_cases (rest := x.2) (i := x.1) hk
  rw [← List.take_append_drop k ws, hws, List.cons_append, List.append_assoc] at h
  exact nomatch (htakes.whole _).symm.trans h

/-- The fetch of words that are no instruction ends with the opword. -/
theorem fetchFrom_undecoded {s : State} {e : DecodeError} (hmap : s.codeMapped 3) (hdec : decode s.codeWords = .error e)
    {k m : Nat} (hm : k + m = 3) : fetchFrom m (s.codeWords.take k) s = .error (undecodedWord (s.wordAt s.pc) s) := by
  induction m generalizing k with
  | zero =>
    obtain rfl : k = 3 := hm
    exact fetchFrom_stop s hdec fun _ => rfl
  | succ m ih =>
    cases hk : decode (s.codeWords.take k) with
    | ok x => exact absurd hk (decode_take_ne_ok hdec k x)
    | error e' =>
      by_cases he : e' = .truncated
      · subst he
        obtain ⟨w, hw, htake⟩ := fetchWord_codeWords (k := k) hmap (by omega) le_rfl
        rw [fetchFrom_more m hk (by rw [codeWords_take_length (by omega)]; exact hw), htake]
        exact ih (by omega)
      · rw [fetchFrom_stop s hk fun h => absurd h he]
        cases k with
        | zero => exact absurd (Except.error.inj hk).symm he
        | succ k => rfl

/-- Settles O12: no part of the words decodes, so the fetch ends with the opword. -/
theorem undecodedWordsAreRefused : Obligations.UndecodedWordsAreRefused := by
  intro s e heven hdec hmap
  have hfetch : fetchInstr s = .error (undecodedWord (s.wordAt s.pc) s) := by
    rw [fetchInstr, heven, if_neg Bool.false_ne_true]
    exact fetchFrom_undecoded (k := 0) hmap hdec rfl
  rw [step, hfetch, undecodedWord]
  cases s.config.undecoded with
  | refuse => rfl
  | illegalInstruction => rfl

end Sys2Proof.Machine
end

section
namespace Sys2Proof.Machine

/-! ### The whole transfer of MOVEM (R211, R212, R217) -/

/-- The place of a data register in MOVEM's order (R217). -/
def dataPlace (q : Reg) : Fin 16 := ⟨q.val, by omega⟩

/-- The place of an address register in MOVEM's order (R217). -/
def addressPlace (q : Reg) : Fin 16 := ⟨8 + q.val, by omega⟩

theorem rreg_dataPlace (s : State) (q : Reg) : s.rreg (dataPlace q) = s.dreg q := dif_pos q.isLt

theorem rreg_addressPlace (s : State) (q : Reg) : s.rreg (addressPlace q) = s.areg q := by
  have hge : ¬ (addressPlace q).val < 8 := by simp [addressPlace]
  have hq : (⟨(addressPlace q).val - 8, by omega⟩ : Reg) = q := Fin.ext (Nat.add_sub_cancel_left ..)
  rw [State.rreg, dif_neg hge, hq]

section
variable {s : State} {mask : BitVec 16} {a : Addr}

theorem storeRegs_all (hw : ∀ i : Fin 16, mask.getLsbD i = true → s.writable .L (movemSlot mask a i)) :
    ∃ u, storeRegs (maskRegs mask) a s = .ok u ∧ StoredBelow mask a 16 s u := by
  obtain ⟨u, hu, hrun⟩ := storeRegs_below le_rfl (fun j _ => hw j) (Nat.zero_le 16) (StoredBelow.zero mask a s)
  rw [movemSlot_zero, maskRegsFrom_zero, maskRegsFrom_sixteen] at hrun
  exact ⟨u, hrun, hu⟩

theorem loadRegs_all (hr : ∀ i : Fin 16, mask.getLsbD i = true → s.readable .L (movemSlot mask a i)) :
    ∃ u, loadRegs (maskRegs mask) a s = .ok u ∧ LoadedBelow mask a 16 s u := by
  obtain ⟨u, hu, hrun⟩ := loadRegs_below le_rfl (fun j _ => hr j) (Nat.zero_le 16) (LoadedBelow.zero mask a s)
  rw [movemSlot_zero, maskRegsFrom_zero, maskRegsFrom_sixteen] at hrun
  exact ⟨u, hrun, hu⟩

end

/-- Settles O46: the stores run to their end, and the pc moves on. -/
theorem movemStoresInOrder : Obligations.MovemStoresInOrder := by
  intro s s1 mask ea a hok h hw
  obtain ⟨u, hrun, hu⟩ := storeRegs_all hw
  obtain ⟨hc, _⟩ := storeRegs_carries (hrun ▸ Reaches.ok u)
  have hd : ∀ q, u.dreg q = s.dreg q := fun q => by rw [State.dreg, hu.data]; rfl
  have ha : ∀ q, u.areg q = s.areg q := fun q => by rw [State.areg, hu.addr]; rfl
  have hb : ∀ b, b ∉ movemBytes mask a → u.byteAt b = s.byteAt b := fun b hb =>
    hu.outside b fun j _ hj hin => hb (List.mem_flatMap.2 ⟨j.val, by simp [hj], hin⟩)
  have hk : Keeps s u [] [] (movemBytes mask a) := ⟨fun q _ => hd q, fun q _ => ha q, hb, hc.sys, hc.vbr, hc.config⟩
  refine ⟨u.setPc (s.nextPc (2 + ea.extWords .L)), ?_, hu.ccr, rfl, hk.setPc _, fun q => ⟨fun hq => ?_, fun hq => ?_⟩⟩
  · rw [execMovemStore_eq hok h, hrun]; rfl
  · exact (hu.value (dataPlace q) (dataPlace q).isLt hq).trans (rreg_dataPlace s q)
  · exact (hu.value (addressPlace q) (addressPlace q).isLt hq).trans (rreg_addressPlace s q)

/-- What the loads of MOVEM leave in the registers, as data and as address registers. -/
theorem LoadedBelow.dreg {mask : BitVec 16} {a : Addr} {s u : State} (h : LoadedBelow mask a 16 s u) (q : Reg) :
    u.dreg q = if mask.getLsbD q.val then s.readMem .L (movemSlot mask a q.val) else s.dreg q := by
  rw [← rreg_dataPlace, h.rreg, rreg_dataPlace]
  simp only [(dataPlace q).isLt, true_and]
  rfl

theorem LoadedBelow.areg {mask : BitVec 16} {a : Addr} {s u : State} (h : LoadedBelow mask a 16 s u) (q : Reg) :
    u.areg q = if mask.getLsbD (8 + q.val) then s.readMem .L (movemSlot mask a (8 + q.val)) else s.areg q := by
  rw [← rreg_addressPlace, h.rreg, rreg_addressPlace]
  simp only [(addressPlace q).isLt, true_and]
  rfl

theorem LoadedBelow.keeps {mask : BitVec 16} {a : Addr} {s u : State} (h : LoadedBelow mask a 16 s u) (hc : Carries s u) :
    Keeps s u ((List.finRange 8).filter fun q => mask.getLsbD q.val)
      ((List.finRange 8).filter fun q => mask.getLsbD (8 + q.val)) [] where
  dreg q hq := by rw [h.dreg, if_neg (by simpa using hq)]
  areg q hq := by rw [h.areg, if_neg (by simpa using hq)]
  byteAt b _ := by rw [State.byteAt, h.mem]; rfl
  sys := hc.sys
  vbr := hc.vbr
  config := hc.config

/-- A selected base register ends with a drawn value (R229). -/
theorem execMovemLoad_of_loaded {s s1 u : State} {mask : BitVec 16} {ea : Ea} {a : Addr} (hok : ea.ok .movem .L = true)
    (h : eaAddr .L ea s = .ok (a, s1)) (hrun : loadRegs (maskRegs mask) a s = .ok u) :
    ∃ r, baseReg ea = some r ∧ exec (.movemLoad mask ea) s = finish s (2 + ea.extWords .L)
      (.ok (if maskHasA mask r then (u.spend 1).setA r (u.freeWord 0) else u)) := by
  obtain rfl : s1 = s := (eaAddr_ok h).trans (stepEa_of_steps_none .L s (steppedReg_of_movem (Bool.and_eq_true_iff.1 hok).1))
  have hbase : ∃ r, baseReg ea = some r := by
    cases ea with
    | ind r => exact ⟨r, rfl⟩
    | disp r d => exact ⟨r, rfl⟩
    | _ => cases hok
  obtain ⟨r, hr⟩ := hbase
  refine ⟨r, hr, ?_⟩
  change finish s1 _ (eaAddr .L ea s1 >>= _) = _
  rw [h]
  change finish s1 _ (loadRegs (maskRegs mask) a s1 >>= _) = _
  rw [hrun, hr]
  exact congrArg (finish s1 _) (apply_ite Except.ok ..).symm

/-- Settles O47: the loads run to their end, then a selected base register is drawn. -/
theorem movemLoadsInOrder : Obligations.MovemLoadsInOrder := by
  intro s s1 mask ea a hok h hr
  obtain ⟨u, hrun, hu⟩ := loadRegs_all hr
  obtain ⟨r, hbase, hexec⟩ := execMovemLoad_of_loaded hok h hrun
  have hk := hu.keeps (loadRegs_carries (hrun ▸ Reaches.ok u)).1
  have hd : ∀ q : Reg, mask.getLsbD q.val = true → u.dreg q = s.readMem .L (movemSlot mask a q.val) := fun q hq => by
    rw [hu.dreg, if_pos hq]
  have ha : ∀ q : Reg, mask.getLsbD (8 + q.val) = true → u.areg q = s.readMem .L (movemSlot mask a (8 + q.val)) :=
    fun q hq => by rw [hu.areg, if_pos hq]
  by_cases hsel : maskHasA mask r = true
  · rw [if_pos hsel] at hexec
    have hmem : r ∈ (List.finRange 8).filter fun q => mask.getLsbD (8 + q.val) :=
      List.mem_filter.2 ⟨List.mem_finRange r, hsel⟩
    refine ⟨_, hexec, hu.ccr, rfl, ((hk.spend 1).setA hmem _).setPc _, fun q => ⟨hd q, fun hq hne => ?_⟩⟩
    have hqr : q ≠ r := fun e => hne (e ▸ hbase)
    rw [State.setPc_areg, State.setA_areg, if_neg hqr]
    exact ha q hq
  · rw [if_neg hsel] at hexec
    exact ⟨_, hexec, hu.ccr, rfl, hk.setPc _, fun q => ⟨hd q, fun hq _ => ha q hq⟩⟩

end Sys2Proof.Machine
end

/-! # Negation and the address forms: the rest of the family of integer arithmetic

NEG and NEGX are the subtraction from 0, whose flags R128 and R129 give in words of their own; ADDA and SUBA are one run,
in which only the register's value depends on whether the source steps it. -/

section
namespace Sys2Proof.Machine

/-! ### NEG and NEGX (R128, R129) -/

theorem neg_words : ∀ r : Reg, encode (.neg r) = [BitVec.ofNat 16 (0x4480 + r.val)] ∧
    encode (.negx r) = [BitVec.ofNat 16 (0x4080 + r.val)] := by decide

/-- The only long whose negative is no signed long is the least one. -/
theorem msb_and_msb_neg (s : Word) : (s.msb && (-s).msb) = decide (s = 0x80000000) := by
  have hs := s.isLt
  rw [Bool.eq_iff_iff, Bool.and_eq_true, word_msb_eq, word_msb_eq, decide_eq_true_iff, decide_eq_true_iff,
    decide_eq_true_iff, BitVec.toNat_neg, ← BitVec.toNat_inj]
  change _ ↔ s.toNat = 2 ^ 31
  omega

/-- The borrow of a subtraction from 0: there is one unless nothing is taken off (R128, R129). -/
theorem subC_zero (s : Word) (k : Bool) :
    subC s 0 (-s - BitVec.ofNat 32 k.toNat) = (k || decide (s ≠ 0)) := by
  have hc := (subFlags_differenceFlags s 0 k false).c
  rw [zero_sub] at hc
  have hs : s ≠ 0 ↔ s.toNat ≠ 0 := not_congr BitVec.toNat_inj.symm
  refine hc.trans ?_
  rw [Bool.eq_iff_iff, Bool.or_eq_true, decide_eq_true_iff, decide_eq_true_iff, hs, ← Bool.toNat_eq_one]
  have hk := k.toNat_le
  change 0 < _ ↔ _
  omega

/-- The flags of a subtraction from 0, as R128 and R129 write them. -/
theorem subFlags_zero (s : Word) (k z : Bool) {v : Word} (hv : v = -s - BitVec.ofNat 32 k.toNat) :
    subFlags s 0 v z = ⟨k || decide (s ≠ 0), v.msb, z, s.msb && v.msb, k || decide (s ≠ 0)⟩ := by
  have hc : subC s 0 v = (k || decide (s ≠ 0)) := hv ▸ subC_zero s k
  have hoverflow : subV s 0 v = (s.msb && v.msb) := by simp [subV]
  rw [subFlags, hc, hoverflow]

theorem subAlu_zero (s : Word) (c : Ccr) : subAlu s 0 c =
    (-s, ⟨decide (s ≠ 0), (-s).msb, decide (s = 0), decide (s = 0x80000000), decide (s ≠ 0)⟩) := by
  have hz : decide (-s = 0) = decide (s = 0) := decide_eq_decide.2 neg_eq_zero
  simp only [subAlu, zero_sub]
  rw [subFlags_zero s false _ (BitVec.sub_zero _).symm, msb_and_msb_neg, hz]
  rfl

theorem subxAlu_zero (s : Word) (c : Ccr) {v : Word} (hv : v = -s - BitVec.ofNat 32 c.x.toNat) : subxAlu s 0 c =
    (v, ⟨c.x || decide (s ≠ 0), v.msb, c.z && decide (v = 0), s.msb && v.msb, c.x || decide (s ≠ 0)⟩) := by
  simp only [subxAlu, zero_sub, xWord_eq]
  rw [← hv, subFlags_zero s c.x _ hv]

/-- Settles O23: the register takes the difference from 0, and the flags are those of that difference. -/
theorem negateAndNegateWithExtend : Obligations.NegateAndNegateWithExtend := by
  intro s r
  obtain ⟨hneg, hnegx⟩ := neg_words r
  refine ⟨hneg, hnegx, ?_, ?_⟩
  · obtain ⟨t, ht, hw, hc⟩ := setD_runs s r (subAlu (s.dreg r) 0 s.ccr).1 (subAlu (s.dreg r) 0 s.ccr).2 1
    rw [subAlu_zero] at hw hc
    exact ⟨t, ht, hw, hc⟩
  · obtain ⟨t, ht, hw, hc⟩ := setD_runs s r (subxAlu (s.dreg r) 0 s.ccr).1 (subxAlu (s.dreg r) 0 s.ccr).2 1
    rw [subxAlu_zero (s.dreg r) s.ccr rfl] at hw hc
    exact ⟨t, _, ht, rfl, hw, hc⟩

/-! ### ADDA and SUBA (R121, R131, R229) -/

theorem WritesAnFrom.spend {z : Size} {ea : Ea} {r : Reg} {v : Word} {n : Nat} {s t : State}
    (h : WritesAnFrom z ea r v n s t) (k : Nat) : WritesAnFrom z ea r v n s (t.spend k) :=
  ⟨h.value, h.step, h.ccr, h.pc, h.keeps.spend k⟩

/-- The register takes the function's value, or an open one where the source steps that register (R229). -/
theorem addressArith_of_read {s s1 : State} {ea : Ea} {v : Word} (f : Word → Word → Word) (r : Reg)
    (h : readEa .L ea s = .ok (v, s1)) : addressArith f ea r s = .ok (if steps ea r
      then ((stepEa .L ea s).spend 1).setA r (s.freeWord 0)
      else (stepEa .L ea s).setA r (f (s.areg r) v)) := by
  obtain rfl := readEa_ok h
  simp only [addressArith, h, bind, Except.bind, stepEa_freeWord]
  by_cases hs : steps ea r = true
  · rw [if_pos hs, if_pos hs]
  · have hne : steppedReg ea ≠ some r := fun e => hs (by simp [steps, e])
    rw [if_neg hs, if_neg hs, stepEa_areg_of_not_steps s hne]

/-- One run for both cases of R229: the open value is the only difference. -/
theorem addressArith_runs {s s1 : State} {ea : Ea} {v : Word} (f : Word → Word → Word) (r : Reg) (n : Nat)
    (h : readEa .L ea s = .ok (v, s1)) : ∃ t w, finish s n (addressArith f ea r s) = .next t ∧
      WritesAnFrom .L ea r w n s t ∧ (steps ea r = false → w = f (s.areg r) v) := by
  rw [addressArith_of_read f r h]
  cases hs : steps ea r with
  | true => exact ⟨_, s.freeWord 0, rfl, (writesAnFrom_setA .L ea s r _ n).spend 1, nofun⟩
  | false => exact ⟨_, _, rfl, writesAnFrom_setA .L ea s r _ n, fun _ => rfl⟩

/-- Settles O24, by the run of ADDA and SUBA. -/
theorem addressAddAndSubtract : Obligations.AddressAddAndSubtract := by
  intro s s1 ea r v h
  obtain ⟨t, w, ht, hw, hv⟩ := addressArith_runs (fun d v => d + v) r (1 + ea.extWords .L) h
  obtain ⟨t', w', ht', hw', hv'⟩ := addressArith_runs (fun d v => d - v) r (1 + ea.extWords .L) h
  refine ⟨fun hs => ⟨⟨t, ht, ?_⟩, t', ht', ?_⟩, fun _ => ⟨⟨t, w, ht, hw⟩, t', w', ht', hw'⟩⟩
  · exact hv hs ▸ hw
  · exact hv' hs ▸ hw'

end Sys2Proof.Machine
end

/-! # The shifts: the family of 42_shift.md

ASL, ASR, LSL and LSR are one run, which differs only in the pair of result and last bit out. With the count of 0 taken in,
that pair has one closed form for each of the three shifters; the run reports its flags from it. -/

section
namespace Sys2Proof.Machine

/-- The result of a shift and its last bit out, at every count: a count of 0 leaves the operand and gives the bit 0 (R165). -/
def Shifter.counted (f : Shifter) (d : Word) (n : Nat) : Word × Bool := if n = 0 then (d, false) else f d n

theorem shiftLeft_counted (d : Word) (n : Nat) :
    Shifter.counted shiftLeft d n = (d <<< n, decide (1 ≤ n ∧ n ≤ 32) && d.getLsbD (32 - n)) := by
  cases n with
  | zero => simp [Shifter.counted]
  | succ k => simp [Shifter.counted, shiftLeft]

/-- Past the width `min` picks the sign, which is what R167 has shifted out from there on. -/
theorem shiftRightArith_counted (d : Word) (n : Nat) :
    Shifter.counted shiftRightArith d n = (d.sshiftRight n, decide (n ≠ 0) && d.getLsbD (min (n - 1) 31)) := by
  cases n with
  | zero => simp [Shifter.counted]
  | succ k =>
    by_cases hk : k + 1 ≤ 31
    · simp [Shifter.counted, shiftRightArith, hk, show min k 31 = k by omega]
    · simp [Shifter.counted, shiftRightArith, hk, show min k 31 = 31 by omega, BitVec.msb_eq_getLsbD_last]

theorem shiftRightLogical_counted (d : Word) (n : Nat) :
    Shifter.counted shiftRightLogical d n = (d >>> n, decide (1 ≤ n ∧ n ≤ 32) && d.getLsbD (n - 1)) := by
  cases n with
  | zero => simp [Shifter.counted]
  | succ k =>
    by_cases hk : k + 1 ≤ 32
    · simp [Shifter.counted, shiftRightLogical, hk]
    · simp [Shifter.counted, shiftRightLogical, hk, BitVec.getLsbD_of_ge d k (by omega)]

theorem shiftDn_of_counted {f : Shifter} {n : Nat} {r : Reg} {s : State} {v : Word} {b : Bool}
    (h : f.counted (s.dreg r) n = (v, b)) : shiftDn f n r s =
      (s.setD r v).setCcr { x := if n = 0 then s.ccr.x else b, n := v.msb, z := v = 0, v := false, c := b } := by
  unfold Shifter.counted at h
  simp only [shiftDn, h]

/-- The run of a shift: the register takes the result, and the flags report it and the last bit out. -/
theorem shiftDn_runs {f : Shifter} {n : Nat} {r : Reg} {s : State} {v : Word} {b : Bool}
    (h : f.counted (s.dreg r) n = (v, b)) :
    ∃ t, finish s 1 (.ok (shiftDn f n r s)) = .next t ∧ WritesDn r (t.dreg r) 1 s t ∧ t.dreg r = v ∧ t.ccr.c = b ∧
      t.ccr.x = (if n = 0 then s.ccr.x else t.ccr.c) ∧ t.ccr.n = (t.dreg r).getLsbD 31 ∧
      t.ccr.z = decide (t.dreg r = 0) ∧ t.ccr.v = false := by
  rw [shiftDn_of_counted h]
  obtain ⟨t, ht, hw, hc⟩ := setD_runs s r v
    { x := if n = 0 then s.ccr.x else b, n := v.msb, z := v = 0, v := false, c := b } 1
  refine ⟨t, ht, hw.self, hw.value, ?_⟩
  rw [hc, hw.value]
  exact ⟨rfl, rfl, BitVec.msb_eq_getLsbD_last v, rfl, rfl⟩

/-- Settles O29, by the run of a shift to the left: ASL and LSL have the same one. -/
theorem leftShifts : Obligations.LeftShifts := by
  intro s c y x i n hi
  have hexec : exec i s = finish s 1 (.ok (shiftDn shiftLeft n x s)) := by
    simp only [List.mem_cons, Prod.mk.injEq, List.not_mem_nil, or_false] at hi
    rcases hi with ⟨rfl, rfl⟩ | ⟨rfl, rfl⟩ | ⟨rfl, rfl⟩ | ⟨rfl, rfl⟩ <;> rfl
  obtain ⟨t, ht, hw, hv, hc, hflags⟩ := shiftDn_runs (shiftLeft_counted (s.dreg x) n)
  refine ⟨t, hexec.trans ht, hw, ?_, hc, hflags⟩
  rw [hv, BitVec.toNat_shiftLeft, Nat.shiftLeft_eq]

/-- Settles O30, by the run of a shift to the right with copies of the sign, and with zeros. -/
theorem rightShifts : Obligations.RightShifts := by
  refine fun s c y x n => ⟨fun i hi => ?_, fun i hi => ?_⟩
  · have hexec : exec i s = finish s 1 (.ok (shiftDn shiftRightArith n x s)) := by
      simp only [List.mem_cons, Prod.mk.injEq, List.not_mem_nil, or_false] at hi
      rcases hi with ⟨rfl, rfl⟩ | ⟨rfl, rfl⟩ <;> rfl
    obtain ⟨t, ht, hw, hv, hc, hflags⟩ := shiftDn_runs (shiftRightArith_counted (s.dreg x) n)
    refine ⟨t, hexec.trans ht, hw, ?_, hc, hflags⟩
    have hpow : (0 : Int) ≤ 2 ^ n := Int.pow_nonneg (by decide)
    rw [hv, BitVec.toInt_sshiftRight, Int.shiftRight_eq_div_pow, Int.fdiv_eq_ediv_of_nonneg _ hpow]
    norm_cast
  · have hexec : exec i s = finish s 1 (.ok (shiftDn shiftRightLogical n x s)) := by
      simp only [List.mem_cons, Prod.mk.injEq, List.not_mem_nil, or_false] at hi
      rcases hi with ⟨rfl, rfl⟩ | ⟨rfl, rfl⟩ <;> rfl
    obtain ⟨t, ht, hw, hv, hc, hflags⟩ := shiftDn_runs (shiftRightLogical_counted (s.dreg x) n)
    refine ⟨t, hexec.trans ht, hw, ?_, hc, hflags⟩
    rw [hv, BitVec.toNat_ushiftRight, Nat.shiftRight_eq_div_pow]

end Sys2Proof.Machine
end

/-! # The return from a subroutine: the rest of the family of 43_control_transfer.md -/

section
namespace Sys2Proof.Machine

/-- The two reasons for which an access cannot be performed, each with its exception (R42, R44, R45). -/
theorem accessException_cases {s : State} (k : AccessKind) {z : Size} {a : Addr} (h : ¬ s.readable z a) :
    accessException s k z a = .accessError k a ∧ (accessBytes z a).all s.mapped = false ∨
      accessException s k z a = .addressError a ∧ s.config.misalignedData = .fault ∧ a.toNat % z.bytes ≠ 0 := by
  unfold accessException
  by_cases hm : s.config.misalignedData = .fault ∧ a.toNat % z.bytes ≠ 0
  · exact .inr ⟨if_pos hm, hm⟩
  · have haligned : s.config.misalignedData = .fault → a.toNat % z.bytes = 0 := fun hf => by_contra fun h0 => hm ⟨hf, h0⟩
    exact .inl ⟨if_neg hm, Bool.eq_false_iff.2 fun hall => h ⟨haligned, hall⟩⟩

theorem rts_runs {s : State} (h : s.readable .L s.sp) :
    exec .rts s = .next ((s.setA 7 (s.sp + 4)).setPc (s.readMem .L s.sp)) := by
  change finishAt s (memRead .L s.sp s >>= _) = _
  rw [memRead_of_readable h]
  rfl

/-- The read comes before SP is moved, so the state at the raise is the one before the instruction. -/
theorem rts_of_unread {s : State} (h : ¬ s.readable .L s.sp) :
    exec .rts s = takeException (accessException s .read .L s.sp) s s := by
  change finishAt s (memRead .L s.sp s >>= _) = _
  rw [memRead_of_not_readable h]
  rfl

/-- Settles O35: the word of RTS, then its one read with both of its ends. -/
theorem rtsPopsThePc : Obligations.RtsPopsThePc := by
  refine ⟨by decide, fun s => ⟨fun hr => ?_, fun hr => ?_⟩⟩
  · have hkeeps : Keeps s (s.setA 7 (s.sp + 4)) [] [7] [] := (Keeps.refl s ..).setA (List.mem_singleton_self 7) _
    exact ⟨_, rts_runs hr, rfl, State.setA_sp_self s _, rfl, hkeeps.setPc _⟩
  · exact ⟨_, rts_of_unread hr, accessException_cases .read hr⟩

end Sys2Proof.Machine
end

/-! # The bits of a data register: the rest of the family of 44_bit_manipulation.md

The functions of one bit are those used on a byte of memory; on a register the bit number counts modulo 32. -/

section
namespace Sys2Proof.Machine

/-- BCHG, BCLR and BSET on a data register: one bit treated, and tested as it was (R190 to R193). -/
theorem modifyBit_dn_runs {f : Word → Nat → Word} {g : Bool → Bool} (hf : ModifiesBit f g) (k : Nat) (r : Reg) (s : State)
    (n : Nat) : ∃ t, finish s n (modifyBit f k (.dn r) s) = .next t ∧ WritesDn r (t.dreg r) n s t ∧
      (∀ j, j < 32 → (t.dreg r).getLsbD j = if j = k % 32 then g ((s.dreg r).getLsbD j) else (s.dreg r).getLsbD j) ∧
      t.ccr = { s.ccr with z := !(s.dreg r).getLsbD (k % 32) } := by
  obtain ⟨t, ht, hw, hc⟩ := setD_runs s r (f (s.dreg r) (k % 32)) (bitFlags (s.dreg r) (k % 32) s.ccr) n
  refine ⟨t, ht, hw.self, fun j hj => ?_, hc⟩
  rw [hw.value]
  exact hf _ _ j hj

/-- BTST on a data register: no bit changes, so it is the function that leaves the bit it treats (R194). -/
theorem testBit_dn_runs (k : Nat) (r : Reg) (s : State) (n : Nat) :
    ∃ t, finish s n (testBit k (.dn r) s) = .next t ∧ WritesDn r (t.dreg r) n s t ∧
      (∀ j, j < 32 → (t.dreg r).getLsbD j = if j = k % 32 then id ((s.dreg r).getLsbD j) else (s.dreg r).getLsbD j) ∧
      t.ccr = { s.ccr with z := !(s.dreg r).getLsbD (k % 32) } :=
  have hkeeps : Keeps s (s.setCcr (bitFlags (s.dreg r) (k % 32) s.ccr)) [r] [] [] := (Keeps.refl s ..).setCcr _
  ⟨_, rfl, ⟨rfl, rfl, hkeeps.setPc _⟩, fun _ _ => (ite_self _).symm, rfl⟩

/-- Settles O36: the six that modify the register are one run, and so are the two that test it. -/
theorem bitsOfDataRegisters : Obligations.BitsOfDataRegisters := by
  intro s r y n i k words f hi
  simp only [List.mem_cons, Prod.mk.injEq, List.not_mem_nil, or_false] at hi
  rcases hi with ⟨rfl, rfl, rfl, rfl⟩ | ⟨rfl, rfl, rfl, rfl⟩ | ⟨rfl, rfl, rfl, rfl⟩ | ⟨rfl, rfl, rfl, rfl⟩ |
    ⟨rfl, rfl, rfl, rfl⟩ | ⟨rfl, rfl, rfl, rfl⟩ | ⟨rfl, rfl, rfl, rfl⟩ | ⟨rfl, rfl, rfl, rfl⟩
  · exact modifyBit_dn_runs changeBit_modifiesBit (s.dreg y).toNat r s 1
  · exact modifyBit_dn_runs changeBit_modifiesBit n.toNat r s 2
  · exact modifyBit_dn_runs clearBit_modifiesBit (s.dreg y).toNat r s 1
  · exact modifyBit_dn_runs clearBit_modifiesBit n.toNat r s 2
  · exact modifyBit_dn_runs setBit_modifiesBit (s.dreg y).toNat r s 1
  · exact modifyBit_dn_runs setBit_modifiesBit n.toNat r s 2
  · exact testBit_dn_runs (s.dreg y).toNat r s 1
  · exact testBit_dn_runs n.toNat r s 2

end Sys2Proof.Machine
end

/-! # LINK, UNLK and MOVEQ: the rest of the family of 45_data_movement.md

The frame pointer of LINK and UNLK is any address register but A7; with A7 itself the last write of SP is a free value. -/

section
namespace Sys2Proof.Machine

/-! ### LINK and UNLK (R205, R219, R229) -/

/-- Allowing more address registers to change leaves a frame true. -/
theorem Keeps.mono_areg {s t : State} {ds as as' : List Reg} {bs : List Addr} (h : Keeps s t ds as bs) (hs : as ⊆ as') :
    Keeps s t ds as' bs :=
  { h with areg := fun q hq => h.areg q (mt (@hs q) hq) }

section
variable {s : State} {r : Reg}

/-- The push is at the SP that the frame pointer then takes, and the displacement is added last. -/
theorem link_runs (hr : r ≠ 7) (d16 : BitVec 16) (hw : s.writable .L (s.sp - 4)) :
    ∃ u, Pushes (s.areg r) s u ∧
      exec (.link r d16) s = .next (((u.setA r u.sp).setA 7 (u.sp + d16.signExtend 32)).setPc (s.nextPc 2)) := by
  obtain ⟨u, hu, hp, _⟩ := pushLong_pushes 0 (s.areg r) hw
  have hsp : (u.setA r u.sp).sp = u.sp := by rw [State.setA_sp, if_neg hr]
  refine ⟨u, hp, (congrArg (finish s 2) (if_neg hr)).trans ?_⟩
  change finish s 2 (pushLong (s.areg r) (s.spend 0) >>= _) = _
  rw [hu]
  change finish s 2 (.ok ((u.setA r u.sp).setA 7 ((u.setA r u.sp).sp + d16.signExtend 32))) = _
  rw [hsp]
  rfl

/-- With A7 the value pushed and the final SP are free (R229). -/
theorem link_sp_runs (s : State) (d16 : BitVec 16) (hw : s.writable .L (s.sp - 4)) :
    ∃ u, Pushes (s.freeWord 0) s u ∧
      exec (.link 7 d16) s = .next ((u.setA 7 (s.freeWord 1)).setPc (s.nextPc 2)) := by
  obtain ⟨u, hu, hp, _⟩ := pushLong_pushes 2 (s.freeWord 0) hw
  refine ⟨u, hp, ?_⟩
  change finish s 2 (pushLong (s.freeWord 0) (s.spend 2) >>= _) = _
  rw [hu]
  rfl

/-- The read of UNLK is at the frame pointer, which SP takes first. -/
theorem memRead_at_frame (h : s.readable .L (s.areg r)) :
    memRead .L (s.setA 7 (s.areg r)).sp (s.setA 7 (s.areg r)) = .ok (s.readMem .L (s.areg r)) := by
  rw [State.setA_sp_self]
  exact memRead_of_readable ((readable_congr (State.setA_config ..) ..).2 h)

theorem unlk_runs (hr : r ≠ 7) (h : s.readable .L (s.areg r)) :
    exec (.unlk r) s = .next ((((s.setA 7 (s.areg r)).setA r (s.readMem .L (s.areg r))).setA 7 (s.areg r + 4)).setPc
      (s.nextPc 1)) := by
  have hsp : ((s.setA 7 (s.areg r)).setA r (s.readMem .L (s.areg r))).sp = s.areg r := by
    rw [State.setA_sp, if_neg hr, State.setA_sp_self]
  change finish s 1 (memRead .L _ (s.setA 7 (s.areg r)) >>= _) = _
  rw [memRead_at_frame h]
  refine (congrArg (finish s 1) (if_neg hr)).trans ?_
  rw [hsp]
  rfl

/-- With A7 the final SP is free (R229). -/
theorem unlk_sp_runs (h : s.readable .L s.sp) :
    exec (.unlk 7) s = .next ((((s.setA 7 s.sp).spend 1).setA 7 (s.freeWord 0)).setPc (s.nextPc 1)) := by
  change finish s 1 (memRead .L _ (s.setA 7 (s.areg 7)) >>= _) = _
  rw [memRead_at_frame h]
  rfl

end

/-- Settles O40: with a frame pointer of its own each register written is read off its last write; with A7 only the frame
is left to say. -/
theorem linkAndUnlink : Obligations.LinkAndUnlink := by
  intro s r d16
  have hframe : r ∈ [r, 7] := List.mem_cons_self
  have hsp : (7 : Reg) ∈ [r, 7] := List.mem_cons_of_mem r (List.mem_singleton_self 7)
  refine ⟨fun hr => ⟨fun hw => ?_, fun h => ?_⟩, fun hr => ⟨fun hw => ?_, fun h => ?_⟩⟩
  · obtain ⟨u, hp, hrun⟩ := link_runs hr d16 hw
    refine ⟨_, hrun, hp.value, ?_, ?_, hp.ccr, rfl,
      (((hp.keeps.mono_areg (List.subset_cons_self r [7])).setA hframe _).setA hsp _).setPc _⟩
    · rw [State.setPc_areg, State.setA_areg, if_neg hr, State.setA_areg_self, hp.sp]
    · rw [State.setPc_sp, State.setA_sp_self, hp.sp]
      rfl
  · refine ⟨_, unlk_runs hr h, ?_, ?_, rfl, rfl,
      ((((Keeps.refl s ..).setA hsp _).setA hframe _).setA hsp _).setPc _⟩
    · rw [State.setPc_areg, State.setA_areg, if_neg hr, State.setA_areg_self]
    · rw [State.setPc_sp, State.setA_sp_self]
  · obtain ⟨u, hp, hrun⟩ := link_sp_runs s d16 hw
    subst hr
    exact ⟨_, hrun, hp.ccr, rfl, (hp.keeps.setA (List.mem_singleton_self 7) _).setPc _⟩
  · subst hr
    have hsp7 : (7 : Reg) ∈ [(7 : Reg)] := List.mem_singleton_self 7
    exact ⟨_, unlk_sp_runs h, rfl, rfl, ((((Keeps.refl s ..).setA hsp7 _).spend 1).setA hsp7 _).setPc _⟩

/-! ### MOVEQ (R213) -/

/-- The opword of MOVEQ as a number: its four fields, each at its place. -/
theorem moveq_word (v : BitVec 8) (r : Reg) :
    (encode (.moveq v r)).map BitVec.toNat = [0x7000 + 512 * r.val + v.toNat] := by
  have hword : ((7 : BitVec 4) ++ regBits r ++ (0 : BitVec 1) ++ v).toNat = 0x7000 + 512 * r.val + v.toNat := by
    have hfields : ∀ q : Reg, ((7 : BitVec 4) ++ regBits q ++ (0 : BitVec 1)).toNat = 0x70 + 2 * q.val := by decide
    rw [byte_append_toNat, hfields]
    omega
  exact congrArg (fun n => [n]) hword

/-- An opword of the nibble 0111 with bit 8 set is no instruction (R247). -/
theorem decode_of_moveq_bit {w : Word16} (hn : opNibble w = 7) (hb : w.getLsbD 8 = true) :
    decode [w] = .error .undecodedOpword := by
  rw [decode, hn]
  change decode7 w [] = _
  rw [decode7, if_pos hb]

/-- Settles O48: the word, the refusal of bit 8, and a register write of the sign-extended byte. -/
theorem moveqLoadsSignExtendedByte : Obligations.MoveqLoadsSignExtendedByte := by
  refine fun s v r => ⟨moveq_word v r, fun w => decode_of_moveq_bit, ?_⟩
  obtain ⟨t, ht, hw, hc⟩ := setD_runs s r (v.signExtend 32) (logicFlags .L (v.signExtend 32) s.ccr) 1
  refine ⟨t, ht, hw.self, ?_, ?_⟩
  · rw [hw.value]
    exact BitVec.toInt_signExtend_of_le (by decide)
  · rw [hw.value, hc]
    exact logicFlags_resultFlags ..

end Sys2Proof.Machine
end

/-! # The divides and remainders: the rest of the family of 46_multiply_divide.md

A divide has three ends: its quotient fits, it overflows, or the divisor is zero. Each is one run of `divide`, whatever the
quotient function; then each of the six functions is said once, and the statements put the two together. -/

section
namespace Sys2Proof.Machine

/-! ### The three ends of a divide (R230 to R233, R238 to R240) -/

section
variable {s s1 : State} {size : Size} {ea : Ea} {v : Word} {f : Config → Word → Word → Option Quotient} {w x : Reg}

theorem divide_of_quotient {q : Quotient} (h : readEa size ea s = .ok (v, s1)) (hv : v ≠ 0)
    (hq : f s.config (s.dreg x) v = some q) : divide size f ea w x s =
      .ok (((stepEa size ea s).setD w q.value).setCcr ⟨s.ccr.x, q.n, q.z, false, false⟩) := by
  obtain rfl := readEa_ok h
  simp only [divide, h, bind, Except.bind, if_neg hv, stepEa_config, stepEa_dreg, stepEa_ccr, hq]

theorem divide_of_overflow (h : readEa size ea s = .ok (v, s1)) (hv : v ≠ 0)
    (hq : f s.config (s.dreg x) v = none) : divide size f ea w x s = .ok (divideOverflow s1) := by
  obtain rfl := readEa_ok h
  simp only [divide, h, bind, Except.bind, if_neg hv, stepEa_config, stepEa_dreg, hq]

theorem divide_of_zero (h : readEa size ea s = .ok (0, s1)) :
    divide size f ea w x s = .error (.raised .divideByZero s1) := by
  simp only [divide, h, bind, Except.bind, if_true]

/-- The run of a divide whose quotient fits: one register and the flags the quotient function gives. -/
theorem divide_runs {q : Quotient} (n : Nat) (h : readEa size ea s = .ok (v, s1)) (hv : v ≠ 0)
    (hq : f s.config (s.dreg x) v = some q) :
    ∃ t, finish s n (divide size f ea w x s) = .next t ∧ WritesDnFrom size ea w q.value n s t ∧
      t.ccr = ⟨s.ccr.x, q.n, q.z, false, false⟩ := by
  rw [divide_of_quotient h hv hq]
  exact ⟨_, rfl, writesDnFrom_setD size ea s w _ _ n, rfl⟩

/-- `divideOverflow` writes flags alone, and draws free values for those that are open (R230, U12). -/
theorem divideOverflow_eq (s : State) : ∃ k n z,
    divideOverflow s = (s.spend k).setCcr ⟨s.ccr.x, n, z, true, false⟩ ∧
      (s.config.divOverflowNZ = .cleared → n = false ∧ z = false) := by
  unfold divideOverflow
  cases s.config.divOverflowNZ with
  | cleared => exact ⟨0, false, false, rfl, fun _ => ⟨rfl, rfl⟩⟩
  | any => exact ⟨2, s.freeBit 0, s.freeBit 1, rfl, nofun⟩

/-- The run of a divide that overflows. -/
theorem divide_overflow_runs (n : Nat) (h : readEa size ea s = .ok (v, s1)) (hv : v ≠ 0)
    (hq : f s.config (s.dreg x) v = none) :
    ∃ t, finish s n (divide size f ea w x s) = .next t ∧ WritesNone size ea n s t ∧ t.ccr.x = s.ccr.x ∧
      t.ccr.v = true ∧ t.ccr.c = false ∧ (s.config.divOverflowNZ = .cleared → t.ccr.n = false ∧ t.ccr.z = false) := by
  have hccr : s1.ccr = s.ccr := readEa_ok h ▸ stepEa_ccr size ea s
  have hconfig : s1.config = s.config := readEa_ok h ▸ stepEa_config size ea s
  obtain ⟨k, fn, fz, hov, hclear⟩ := divideOverflow_eq s1
  rw [hccr] at hov
  rw [hconfig] at hclear
  obtain ⟨t, ht, hw, hc⟩ := setCcr_runs k ⟨s.ccr.x, fn, fz, true, false⟩ n h
  rw [divide_of_overflow h hv hq, hov]
  refine ⟨t, ht, hw, ?_⟩
  rw [hc]
  exact ⟨rfl, rfl, rfl, hclear⟩

end

/-! ### Division of integers, rounded toward zero -/

theorem toInt_ne_zero {n : Nat} {m : BitVec n} (hm : m ≠ 0) : m.toInt ≠ 0 := fun h =>
  hm (BitVec.toInt_inj.1 (h.trans BitVec.toInt_zero.symm))

/-- What a quotient rounded toward zero and its remainder are to each other (R230, R238). -/
theorem tdiv_tmod_parts (n : Int) {m : Int} (hm : m ≠ 0) : n = n.tdiv m * m + n.tmod m ∧
    (n.tmod m).natAbs < m.natAbs ∧ (n.tmod m = 0 ∨ (n.tmod m).sign = n.sign) := by
  refine ⟨(Int.tdiv_mul_add_tmod n m).symm, ?_, ?_⟩
  · rw [Int.natAbs_tmod]
    exact Nat.mod_lt _ (Int.natAbs_pos.2 hm)
  · rw [Int.sign_tmod]
    by_cases hd : m ∣ n
    · exact .inl (Int.tmod_eq_zero_of_dvd hd)
    · exact .inr (if_neg hd)

/-! ### The word divides (R230, R232) -/

/-- A divisor read as a word has its value in the low word, which is zero only where the divisor is. -/
theorem lowWord_ne_zero_of_read {s s1 : State} {ea : Ea} {v : Word} (h : readEa .W ea s = .ok (v, s1)) (hv : v ≠ 0) :
    v.setWidth 16 ≠ 0 := by
  intro h0
  have hlow : (v.setWidth 16).toNat = v.toNat := by
    rw [BitVec.toNat_setWidth]
    exact Nat.mod_eq_of_lt (readEa_lt h)
  rw [h0] at hlow
  exact hv (BitVec.eq_of_toNat_eq hlow.symm)

/-- A long of two words that hold numbers, read back unsigned. -/
theorem words_toNat {k q : Nat} (hk : k < 2 ^ 16) (hq : q < 2 ^ 16) {v : Word}
    (hv : v = BitVec.ofNat 16 k ++ BitVec.ofNat 16 q) : v.toNat % 2 ^ 16 = q ∧ v.toNat / 2 ^ 16 = k := by
  have hlow := (BitVec.ofNat 16 q).isLt
  rw [hv, BitVec.toNat_append, ← Nat.shiftLeft_add_eq_or_of_lt hlow, Nat.shiftLeft_eq, BitVec.toNat_ofNat,
    BitVec.toNat_ofNat]
  omega

/-- A long of two words that hold integers, read back signed. -/
theorem words_toInt {k q : Int} (hk : (BitVec.ofInt 16 k).toInt = k) (hq : (BitVec.ofInt 16 q).toInt = q) {v : Word}
    (hv : v = BitVec.ofInt 16 k ++ BitVec.ofInt 16 q) :
    (v.setWidth 16).toInt = q ∧ ((v >>> 16).setWidth 16).toInt = k := by
  subst hv
  rw [BitVec.setWidth_append_eq_right, BitVec.setWidth_ushiftRight_eq_extractLsb]
  exact ⟨hq, (congrArg BitVec.toInt BitVec.extractLsb'_append_eq_left).trans hk⟩

theorem divsWord_of_fits {c : Config} {d v : Word} {q : Int} (hq : q = d.toInt.tdiv (v.setWidth 16).toInt)
    (hlo : -2 ^ 15 ≤ q) (hhi : q < 2 ^ 15) : divsWord c d v =
      some ⟨BitVec.ofInt 16 (d.toInt.tmod (v.setWidth 16).toInt) ++ BitVec.ofInt 16 q, q < 0, q = 0⟩ := by
  subst hq
  exact if_neg (by rw [lowWord]; omega)

theorem divsWord_of_overflow (c : Config) {d v : Word} (h : d.toInt.tdiv (v.setWidth 16).toInt < -2 ^ 15 ∨
    2 ^ 15 ≤ d.toInt.tdiv (v.setWidth 16).toInt) : divsWord c d v = none :=
  if_pos (by rw [lowWord]; omega)

/-- The remainder of a division by a nonzero word is a signed word. -/
theorem word_remainder_toInt {m : Word16} (hm : m ≠ 0) (n : Int) :
    (BitVec.ofInt 16 (n.tmod m.toInt)).toInt = n.tmod m.toInt := by
  obtain ⟨-, hlt, -⟩ := tdiv_tmod_parts n (toInt_ne_zero hm)
  have hlo := m.le_toInt
  have hhi := m.toInt_lt
  exact BitVec.toInt_ofInt_eq_self (by decide) (by omega) (by omega)

theorem divuWord_of_fits {c : Config} {d v : Word} {q : Nat} (hq : q = d.toNat / (v.setWidth 16).toNat)
    (h : q < 2 ^ 16) : divuWord c d v =
      some ⟨BitVec.ofNat 16 (d.toNat % (v.setWidth 16).toNat) ++ BitVec.ofNat 16 q, 2 ^ 15 ≤ q, q = 0⟩ := by
  have hmsb : (BitVec.ofNat 16 q).msb = decide (2 ^ 15 ≤ q) := by
    rw [BitVec.msb_eq_decide, BitVec.toNat_ofNat, Nat.mod_eq_of_lt h]
  rw [← hmsb]
  subst hq
  exact if_neg (by rw [lowWord]; omega)

theorem divuWord_of_overflow (c : Config) {d v : Word} (h : 2 ^ 16 ≤ d.toNat / (v.setWidth 16).toNat) :
    divuWord c d v = none :=
  if_pos (by rw [lowWord]; omega)

/-- Settles O54: the two words of the register are read off the value written. -/
theorem wordDividesGiveQuotientAndRemainder : Obligations.WordDividesGiveQuotientAndRemainder := by
  intro s s1 ea r v h hv
  have hm := lowWord_ne_zero_of_read h hv
  refine ⟨?_, ?_⟩
  · rintro n m rfl rfl hlo hhi
    obtain ⟨t, ht, hw, hc⟩ := divide_runs (w := r) (1 + ea.extWords .W) h hv (divsWord_of_fits rfl hlo hhi)
    obtain ⟨hlow, hup⟩ := words_toInt (word_remainder_toInt hm _)
      (BitVec.toInt_ofInt_eq_self (by decide) hlo hhi) hw.value
    obtain ⟨hparts, hlt, hsign⟩ := tdiv_tmod_parts (s.dreg r).toInt (toInt_ne_zero hm)
    exact ⟨t, _, _, ht, hw.self, hlow, hup, hparts, hlt, hsign, hc⟩
  · rintro n m rfl rfl hfit
    obtain ⟨t, ht, hw, hc⟩ := divide_runs (w := r) (1 + ea.extWords .W) h hv (divuWord_of_fits rfl hfit)
    have hrem := Nat.mod_lt (s.dreg r).toNat (BitVec.toNat_pos_of_ne_zero hm)
    obtain ⟨hlow, hup⟩ := words_toNat (hrem.trans (v.setWidth 16).isLt) hfit hw.value
    exact ⟨t, _, _, ht, hw.self, hlow, hup, (Nat.div_add_mod' ..).symm, hrem, hc⟩

/-! ### The long divides and remainders (R231, R233, R238, R239) -/

/-- The value whose N and Z a remainder reports: the quotient's or its own (R238, R239). -/
def remReported {α : Type} (p : RemFlags) (q k : α) : α :=
  match p with
  | .quotient => q
  | .remainder => k

/-- The one pair of operands whose signed quotient is no long (R231). -/
def LongOverflow (d v : Word) : Prop := d = 0x80000000 ∧ v = 0xFFFFFFFF

/-- Any other quotient is the one of the signed division of longs, so it is a long. -/
theorem tdiv_eq_sdiv {d v : Word} (h : ¬ LongOverflow d v) : d.toInt.tdiv v.toInt = (d.sdiv v).toInt :=
  (BitVec.toInt_sdiv_of_ne_or_ne d v (not_and_or.1 h)).symm

theorem tdiv_not_large {d v : Word} (h : ¬ LongOverflow d v) : ¬ 2147483647 < d.toInt.tdiv v.toInt := by
  rw [tdiv_eq_sdiv h]
  have := (d.sdiv v).toInt_lt
  omega

theorem divsLong_of_fits (c : Config) {d v : Word} (h : ¬ LongOverflow d v) :
    divsLong c d v = some ⟨d.sdiv v, (d.sdiv v).toInt < 0, (d.sdiv v).toInt = 0⟩ := by
  rw [divsLong, if_neg (tdiv_not_large h), tdiv_eq_sdiv h, BitVec.ofInt_toInt]

theorem remsLong_of_fits (c : Config) {d v : Word} (h : ¬ LongOverflow d v) :
    remsLong c d v = some ⟨d.srem v, remReported c.remFlags (d.sdiv v).toInt (d.srem v).toInt < 0,
      remReported c.remFlags (d.sdiv v).toInt (d.srem v).toInt = 0⟩ := by
  rw [remsLong, if_neg (tdiv_not_large h), tdiv_eq_sdiv h, ← BitVec.toInt_srem, BitVec.ofInt_toInt]
  cases c.remFlags <;> rfl

theorem divsLong_of_overflow (c : Config) {d v : Word} (h : LongOverflow d v) : divsLong c d v = none := by
  obtain ⟨rfl, rfl⟩ := h
  rfl

theorem remsLong_of_overflow (c : Config) {d v : Word} (h : LongOverflow d v) : remsLong c d v = none := by
  obtain ⟨rfl, rfl⟩ := h
  rfl

theorem divuLong_eq (c : Config) (d v : Word) :
    divuLong c d v = some ⟨d / v, 2 ^ 31 ≤ (d / v).toNat, (d / v).toNat = 0⟩ := by
  rw [divuLong, ← BitVec.toNat_udiv, BitVec.ofNat_toNat, BitVec.setWidth_eq, word_msb_eq]

theorem remuLong_eq (c : Config) (d v : Word) :
    remuLong c d v = some ⟨d % v, 2 ^ 31 ≤ remReported c.remFlags (d / v).toNat (d % v).toNat,
      remReported c.remFlags (d / v).toNat (d % v).toNat = 0⟩ := by
  rw [remuLong, ← BitVec.toNat_udiv, ← BitVec.toNat_umod]
  simp only [BitVec.ofNat_toNat, BitVec.setWidth_eq, word_msb_eq]
  cases c.remFlags <;> rfl

/-- Quotient and remainder of signed longs (R231, R238). -/
theorem sdiv_srem_parts {d v : Word} (hv : v ≠ 0) (h : ¬ LongOverflow d v) :
    d.toInt = (d.sdiv v).toInt * v.toInt + (d.srem v).toInt ∧ (d.srem v).toInt.natAbs < v.toInt.natAbs ∧
      ((d.srem v).toInt = 0 ∨ (d.srem v).toInt.sign = d.toInt.sign) := by
  rw [← tdiv_eq_sdiv h, BitVec.toInt_srem]
  exact tdiv_tmod_parts d.toInt (toInt_ne_zero hv)

/-- Quotient and remainder of unsigned longs (R233, R239). -/
theorem udiv_umod_parts (d : Word) {v : Word} (hv : v ≠ 0) :
    d.toNat = (d / v).toNat * v.toNat + (d % v).toNat ∧ (d % v).toNat < v.toNat := by
  rw [BitVec.toNat_udiv, BitVec.toNat_umod]
  exact ⟨(Nat.div_add_mod' ..).symm, Nat.mod_lt _ (BitVec.toNat_pos_of_ne_zero hv)⟩

/-- Settles O55: the register holds the quotient, and what is left over is the remainder. -/
theorem longDividesGiveTheQuotient : Obligations.LongDividesGiveTheQuotient := by
  intro s s1 ea r v h hv
  refine ⟨fun hfit => ?_, ?_⟩
  · obtain ⟨t, ht, hw, hc⟩ := divide_runs (w := r) (2 + ea.extWords .L) h hv (divsLong_of_fits s.config hfit)
    obtain ⟨hparts, hlt, hsign⟩ := sdiv_srem_parts hv hfit
    exact ⟨t, _, _, ht, hw.self, congrArg BitVec.toInt hw.value, hparts, hlt, hsign, hc⟩
  · obtain ⟨t, ht, hw, hc⟩ := divide_runs (w := r) (2 + ea.extWords .L) h hv (divuLong_eq s.config (s.dreg r) v)
    obtain ⟨hparts, hlt⟩ := udiv_umod_parts (s.dreg r) hv
    exact ⟨t, _, _, ht, hw.self, congrArg BitVec.toNat hw.value, hparts, hlt, hc⟩

/-- Settles O56: the remainder goes to another register than the dividend's, so the frame keeps the dividend. -/
theorem remaindersGiveTheRemainder : Obligations.RemaindersGiveTheRemainder := by
  intro s s1 ea w x v hwx h hv
  have hx : x ∉ [w] := mt List.mem_singleton.1 hwx.symm
  refine ⟨fun hfit => ?_, ?_⟩
  · obtain ⟨t, ht, hw, hc⟩ := divide_runs (w := w) (2 + ea.extWords .L) h hv (remsLong_of_fits s.config hfit)
    obtain ⟨hparts, hlt, hsign⟩ := sdiv_srem_parts hv hfit
    refine ⟨t, _, _, ht, hw.self, congrArg BitVec.toInt hw.value, hparts, hlt, hsign, hw.keeps.dreg x hx, ?_⟩
    rw [hc]
    cases s.config.remFlags <;> rfl
  · obtain ⟨t, ht, hw, hc⟩ := divide_runs (w := w) (2 + ea.extWords .L) h hv (remuLong_eq s.config (s.dreg x) v)
    obtain ⟨hparts, hlt⟩ := udiv_umod_parts (s.dreg x) hv
    refine ⟨t, _, _, ht, hw.self, congrArg BitVec.toNat hw.value, hparts, hlt, hw.keeps.dreg x hx, ?_⟩
    rw [hc]
    cases s.config.remFlags <;> rfl

/-! ### Overflow and a zero divisor (R230 to R233, R238 to R240) -/

/-- Settles O57: the four that can overflow, each by its quotient function and the one run of a divide that does. -/
theorem divideOverflowWritesNoRegister : Obligations.DivideOverflowWritesNoRegister := by
  intro s s1 ea w x v i size words h hv hi
  obtain ⟨rfl, rfl, rfl, hq⟩ | ⟨rfl, rfl, rfl, hq⟩ | ⟨rfl | rfl, rfl, rfl, hq⟩ := hi
  · exact divide_overflow_runs _ h hv (divsWord_of_overflow s.config hq)
  · exact divide_overflow_runs _ h hv (divuWord_of_overflow s.config hq)
  · exact divide_overflow_runs _ h hv (divsLong_of_overflow s.config hq)
  · exact divide_overflow_runs _ h hv (remsLong_of_overflow s.config hq)

/-- Settles O58: the six are `divide` at some quotient function, which a zero divisor never reaches. -/
theorem divideByZeroIsRaised : Obligations.DivideByZeroIsRaised := by
  refine ⟨fun _ => ⟨rfl, rfl⟩, fun s s1 ea w x i size hi h => ?_⟩
  have hdivide : ∃ n f q, exec i s = finish s n (divide size f ea q x s) := by
    simp only [List.mem_cons, Prod.mk.injEq, List.not_mem_nil, or_false] at hi
    rcases hi with ⟨rfl, rfl⟩ | ⟨rfl, rfl⟩ | ⟨rfl, rfl⟩ | ⟨rfl, rfl⟩ | ⟨rfl, rfl⟩ | ⟨rfl, rfl⟩ <;> exact ⟨_, _, _, rfl⟩
  obtain ⟨n, f, q, hexec⟩ := hdivide
  have hraise : exec i s = takeException .divideByZero s s1 := by
    rw [hexec, divide_of_zero h]
    rfl
  exact ⟨hraise, fun hm => hraise.trans (takeException_terminal hm)⟩

end Sys2Proof.Machine
end

/-! # NOP and TRAP: the family of 47_system.md

NOP is the step over one word. TRAP raises with nothing done before it, so its entry is that of the state it started in;
what an entry leaves behind (R265) is said once, for every exception, and read off for TRAP. -/

section
namespace Sys2Proof.Machine

/-! ### NOP (R245) -/

/-- Settles O59: the pc alone is written. -/
theorem nopOnlyAdvances : Obligations.NopOnlyAdvances :=
  ⟨rfl, fun s => ⟨_, rfl, rfl, rfl, (Keeps.refl s ..).setPc _⟩⟩

/-! ### What an exception entry leaves behind (R265) -/

theorem frameWord_vector (format fs : BitVec 4) (vector : BitVec 8) (sr : Word16) :
    (frameWord format fs vector sr).extractLsb' 18 8 = vector := by
  rw [frameWord, BitVec.extractLsb'_append_eq_of_le (by decide), BitVec.extractLsb'_append_eq_of_le (by decide)]
  exact BitVec.extractLsb'_append_eq_right

theorem frameWord_sr (format fs : BitVec 4) (vector : BitVec 8) (sr : Word16) :
    (frameWord format fs vector sr).extractLsb' 0 16 = sr := BitVec.extractLsb'_append_eq_right

theorem next_long_disjoint (a : Addr) : ∀ b ∈ accessBytes .L a, b ∉ accessBytes .L (a + 4) := by
  intro b hb hb'
  simp only [accessBytes, List.mem_cons, List.not_mem_nil, or_false] at hb hb'
  bv_omega

/-- A long is still read back after a store of the long above it. -/
theorem readMem_below_stored_long (s : State) (a : Addr) (v w : Word) :
    ((s.writeMem .L a v).writeMem .L (a + 4) w).readMem .L a = v := by
  rw [State.readMem_congr .L a fun b hb => State.writeMem_byteAt_of_notMem _ .L _ w b (next_long_disjoint a b hb)]
  exact State.writeMem_readMem_self s .L a v

/-- The state with the upper byte of SR that a handler starts under: S set, T cleared (R265). -/
def State.inHandler (s : State) : State := { s with sys := { s.sys with s := true, t := false } }

/-- `t` is `s` after the entry of an exception raised at `pc0`: SP at the frame, its two longs, the pc of the vector, and
nothing else but S and T. -/
structure FrameEntered (e : Exception) (pc0 : Addr) (s t : State) : Prop where
  sp : t.sp = frameAddr s.sp
  frame : t.readMem .L (frameAddr s.sp) = frameWord (frameFormat s.sp) ((s.freeWord 0).setWidth 4) e.vector s.srWord
  saved : t.readMem .L (frameAddr s.sp + 4) = e.savedPc pc0
  pc : t.pc = t.readMem .L (vectorAddr s.vbr e.vector)
  ccr : t.ccr = s.ccr
  keeps : Keeps s.inHandler t [] [7] (accessBytes .L (frameAddr s.sp) ++ accessBytes .L (frameAddr s.sp + 4))

/-- The state with the frame of an exception raised at `pc0` pushed, before the pc is loaded (R265). -/
def State.withFrame (e : Exception) (pc0 : Addr) (s : State) : State :=
  (((s.inHandler.spend 1).setA 7 (frameAddr s.sp)).writeMem .L (frameAddr s.sp)
    (frameWord (frameFormat s.sp) ((s.freeWord 0).setWidth 4) e.vector s.srWord)).writeMem .L (frameAddr s.sp + 4)
    (e.savedPc pc0)

theorem enterException_eq_withFrame {e : Exception} {pc0 : Addr} {s t : State} (h : enterException e pc0 s = .ok t) :
    t = (s.withFrame e pc0).setPc ((s.withFrame e pc0).readMem .L (vectorAddr s.vbr e.vector)) := by
  obtain ⟨_, _, _, ht⟩ := enterException_ok h
  exact ht

theorem withFrame_keeps (e : Exception) (pc0 : Addr) (s : State) :
    Keeps s.inHandler (s.withFrame e pc0) [] [7] (accessBytes .L (frameAddr s.sp) ++ accessBytes .L (frameAddr s.sp + 4)) :=
  ((((Keeps.refl s.inHandler ..).spend 1).setA (List.mem_singleton_self 7) _).writeMem
    (List.subset_append_left ..) _).writeMem (List.subset_append_right ..) _

theorem enterException_frameEntered {e : Exception} {pc0 : Addr} {s t : State} (h : enterException e pc0 s = .ok t) :
    FrameEntered e pc0 s t := by
  obtain rfl := enterException_eq_withFrame h
  exact {
    sp := by simp [State.withFrame]
    frame := (State.setPc_readMem ..).trans (readMem_below_stored_long ..)
    saved := (State.setPc_readMem ..).trans (State.writeMem_readMem_self ..)
    pc := rfl
    ccr := by simp [State.withFrame, State.inHandler]
    keeps := (withFrame_keeps e pc0 s).setPc _ }

/-! ### TRAP (R246, R261, R264) -/

theorem exec_trap (s : State) (n : BitVec 4) : exec (.trap n) s = takeException (.trap n) s s := rfl

theorem trap_vector_toNat (n : BitVec 4) : (Exception.trap n).vector.toNat = 32 + n.toNat :=
  BitVec.toNat_add_of_lt (show 32 + n.toNat < 2 ^ 8 by omega)

theorem takeException_of_entered {e : Exception} {s s1 t : State} (hm : s.config.trapModel = .supervisor)
    (h : enterException e s.pc (stateAtRaise s s1) = .ok t) : takeException e s s1 = .next t := by
  simp only [takeException, hm, h]

/-- Settles O60: TRAP is taken from the state it started in, and the rest is what every entry leaves behind. -/
theorem trapEntersItsHandler : Obligations.TrapEntersItsHandler := by
  refine fun s n => ⟨trap_vector_toNat n, takeException_terminal, fun hm hlow hhigh hvector => ?_⟩
  obtain ⟨t, ht⟩ := enterException_of_accessible (pc0 := s.pc) hlow hhigh hvector
  have hrun : exec (.trap n) s = .next t :=
    (exec_trap s n).trans (takeException_of_entered hm (by rw [stateAtRaise_self]; exact ht))
  obtain ⟨hsp, hframe, hsaved, hpc, hccr, hkeeps⟩ := enterException_frameEntered ht
  rw [← hsp] at hframe hsaved hkeeps
  exact ⟨t, hrun, hpc, hsp, hsaved, by rw [hframe, frameWord_vector], by rw [hframe, frameWord_sr], hkeeps.sys, hccr,
    hkeeps.vbr, hkeeps.config, fun r => hkeeps.dreg r List.not_mem_nil,
    fun r hr => hkeeps.areg r (mt List.mem_singleton.1 hr),
    fun b hlong hnext => hkeeps.byteAt b (mt List.mem_append.1 (not_or.2 ⟨hlong, hnext⟩))⟩

end Sys2Proof.Machine
end

/-! # The exceptions: the rest of the family of 60_exceptions.md

What an entry leaves behind is `FrameEntered` of the family of TRAP. Here the fields of the frame's first long are read
back, SP is what the rounding takes away and gives back, and SR survives being stored as a word; the return then reads
back all three. -/

section
namespace Sys2Proof.Machine

/-! ### The format of a frame (R265) -/

theorem frameWord_format (format fs : BitVec 4) (vector : BitVec 8) (sr : Word16) :
    (frameWord format fs vector sr).extractLsb' 28 4 = format := by
  rw [frameWord, BitVec.extractLsb'_append_eq_of_le (by decide), BitVec.extractLsb'_append_eq_of_le (by decide),
    BitVec.extractLsb'_append_eq_of_le (by decide)]
  exact BitVec.extractLsb'_append_eq_left

theorem frameFormat_toNat (sp : Word) : (frameFormat sp).toNat = 4 + sp.toNat % 4 := by
  have hlow : ((sp.extractLsb' 0 2).setWidth 4).toNat = sp.toNat % 4 := by
    rw [BitVec.toNat_setWidth, BitVec.extractLsb'_toNat]
    omega
  have hsum : (frameFormat sp).toNat = (4 + ((sp.extractLsb' 0 2).setWidth 4).toNat) % 2 ^ 4 := BitVec.toNat_add ..
  omega

/-- The rounding of SP stands in the low two bits of the format. -/
theorem frameWord_rounding_toNat (fs : BitVec 4) (vector : BitVec 8) (sr : Word16) (sp : Word) :
    ((frameWord (frameFormat sp) fs vector sr).extractLsb' 28 2).toNat = sp.toNat % 4 := by
  have hformat := congrArg BitVec.toNat (frameWord_format (frameFormat sp) fs vector sr)
  rw [frameFormat_toNat, BitVec.extractLsb'_toNat] at hformat
  rw [BitVec.extractLsb'_toNat]
  omega

/-! ### The place of a frame (R265) -/

/-- `SP & ~3` is SP less its low two bits. -/
theorem and_not_three_toNat (sp : Word) : (sp &&& 0xFFFFFFFC).toNat = sp.toNat - sp.toNat % 4 := by
  have hmask : sp &&& (0xFFFFFFFC : Word) = (sp >>> 2) <<< 2 := by
    rw [BitVec.shiftLeft_ushiftRight]; rfl
  rw [hmask, BitVec.toNat_shiftLeft, BitVec.toNat_ushiftRight, Nat.shiftLeft_eq, Nat.shiftRight_eq_div_pow]
  omega

theorem frameAddr_aligned (sp : Word) : (frameAddr sp).toNat % 4 = 0 := by
  have := and_not_three_toNat sp
  unfold frameAddr
  bv_omega

/-- Above the frame's eight bytes and the bytes of the rounding lies the old SP. -/
theorem frameAddr_add_rounding (sp : Word) : frameAddr sp + 8 + BitVec.ofNat 32 (sp.toNat % 4) = sp := by
  have := and_not_three_toNat sp
  unfold frameAddr
  bv_omega

/-! ### The vector (R261, R265) -/

theorem vectorAddr_of_aligned {vbr : Word} (n : BitVec 8) (h : vbr &&& 0xFFFFF = 0) :
    vectorAddr vbr n = vbr + BitVec.ofNat 32 (4 * n.toNat) := by
  have hbase : vbr &&& 0xFFF00000 = vbr := calc
    vbr &&& 0xFFF00000 = (vbr &&& 0xFFF00000) ||| (vbr &&& 0xFFFFF) := by rw [h]; exact (BitVec.or_zero).symm
    _ = vbr &&& BitVec.allOnes 32 := BitVec.and_or_distrib_left.symm
    _ = vbr := BitVec.and_allOnes
  rw [vectorAddr, hbase, BitVec.ofNat_mul, BitVec.ofNat_toNat]
  rfl

/-- The vector number of each kind of exception, and the pc it saves: only TRAP, from 32 on, saves the next one's. -/
theorem exception_numbers {k : AccessKind} {a pc0 : Addr} {o : Word16} {n : BitVec 4} {e : Exception} {v : Nat}
    (h : (e, v) ∈ [(Exception.accessError k a, 2), (.addressError a, 3), (.illegalInstruction o, 4), (.divideByZero, 5),
      (.trap n, 32 + n.toNat)]) :
    e.vector.toNat = v ∧ e.savedPc pc0 = if 32 ≤ v then pc0 + 2 else pc0 := by
  simp only [List.mem_cons, Prod.mk.injEq, List.not_mem_nil, or_false] at h
  rcases h with ⟨rfl, rfl⟩ | ⟨rfl, rfl⟩ | ⟨rfl, rfl⟩ | ⟨rfl, rfl⟩ | ⟨rfl, rfl⟩
  case inr.inr.inr.inr => exact ⟨trap_vector_toNat n, (if_pos (Nat.le_add_right ..)).symm⟩
  all_goals exact ⟨rfl, rfl⟩

/-! ### The entry (R260 to R265) -/

/-- An entry leaves alone VBR, the parameters, every register but SP, and every byte outside the frame. -/
theorem FrameEntered.unchanged {e : Exception} {pc0 : Addr} {s t : State} (h : FrameEntered e pc0 s t) :
    t.vbr = s.vbr ∧ t.config = s.config ∧ (∀ r, t.dreg r = s.dreg r) ∧ (∀ r, r ≠ 7 → t.areg r = s.areg r) ∧
      ∀ b, b ∉ accessBytes .L (frameAddr s.sp) → b ∉ accessBytes .L (frameAddr s.sp + 4) → t.byteAt b = s.byteAt b :=
  ⟨h.keeps.vbr, h.keeps.config, fun r => h.keeps.dreg r List.not_mem_nil,
    fun r hr => h.keeps.areg r (mt List.mem_singleton.1 hr),
    fun b hlong hnext => h.keeps.byteAt b (mt List.mem_append.1 (not_or.2 ⟨hlong, hnext⟩))⟩

/-- Settles O14: the frame is `FrameEntered`'s with its fields read back; a raise leads to the entry from the state at the
raise. -/
theorem exceptionEntryBuildsFrame : Obligations.ExceptionEntryBuildsFrame := by
  refine ⟨fun e pc0 s hlow hhigh hvector => ?_, fun _ _ _ _ _ _ _ => exception_numbers, fun e s s1 hm => ?_⟩
  · obtain ⟨t, ht⟩ := enterException_of_accessible (pc0 := pc0) hlow hhigh hvector
    have hentered := enterException_frameEntered ht
    have hunchanged := hentered.unchanged
    obtain ⟨hsp, hframe, hsaved, hpc, hccr, hkeeps⟩ := hentered
    rw [← hsp] at hframe hsaved hunchanged
    exact ⟨t, ht, hsp ▸ frameAddr_aligned s.sp, hsp ▸ frameAddr_add_rounding s.sp,
      by rw [hframe, frameWord_format, frameFormat_toNat], by rw [hframe, frameWord_vector], by rw [hframe, frameWord_sr],
      hsaved, hpc, vectorAddr_of_aligned e.vector, hkeeps.sys, hccr, hunchanged⟩
  · obtain ⟨k, hu⟩ := stateAtRaise_cases s s1
    refine ⟨stateAtRaise s s1, ⟨k, hu⟩, rfl, fun hlow hhigh hvector => ?_⟩
    obtain ⟨t, ht⟩ := enterException_of_accessible (pc0 := s.pc) hlow hhigh hvector
    exact ⟨t, takeException_of_entered hm ht, ht⟩

/-! ### The return (R265, R266) -/

theorem ccr_ofBits_toByte (c : Ccr) : Ccr.ofBits c.toByte = c := by
  have h : ∀ x n z v c : Bool, Ccr.ofBits (Ccr.toByte ⟨x, n, z, v, c⟩) = ⟨x, n, z, v, c⟩ := by decide
  exact h ..

theorem srWord_getLsbD (s : State) (k : Nat) : s.srWord.getLsbD k = if k < 8 then s.ccr.toByte.getLsbD k else
    (BitVec.ofBool s.sys.t ++ (0 : BitVec 1) ++ BitVec.ofBool s.sys.s ++ BitVec.ofBool s.sys.m ++ (0 : BitVec 1) ++
      s.sys.i).getLsbD (k - 8) := BitVec.getLsbD_append

theorem srWord_mask (s : State) : s.srWord.extractLsb' 8 3 = s.sys.i := by
  rw [State.srWord, BitVec.extractLsb'_append_eq_of_le (by decide)]
  exact BitVec.extractLsb'_append_eq_right

/-- SR loaded from the word it was stored as: both its bytes are as they were. -/
theorem State.setSr_srWord (s t : State) : t.setSr s.srWord = { t with sys := s.sys, ccr := s.ccr } := by
  have hsys : (⟨s.srWord.getLsbD 15, s.srWord.getLsbD 13, s.srWord.getLsbD 12, s.srWord.extractLsb' 8 3⟩ : SysByte) =
      s.sys := by
    simp only [srWord_mask, srWord_getLsbD, BitVec.getLsbD_append]
    simp
  have hccr : Ccr.ofBits s.srWord = s.ccr := calc
    Ccr.ofBits s.srWord = Ccr.ofBits s.ccr.toByte := by simp only [Ccr.ofBits, srWord_getLsbD, Nat.reduceLT, if_true]
    _ = s.ccr := ccr_ofBits_toByte s.ccr
  simp only [State.setSr, hsys, hccr]

theorem returnFromException_of_format {s : State} (hlow : s.readable .L s.sp) (hhigh : s.readable .L (s.sp + 4))
    (hmin : 4 ≤ ((s.readMem .L s.sp).extractLsb' 28 4).toNat) (hmax : ((s.readMem .L s.sp).extractLsb' 28 4).toNat ≤ 7) :
    returnFromException s = .ok (((s.setSr ((s.readMem .L s.sp).extractLsb' 0 16)).setA 7
      (s.sp + 8 + ((s.readMem .L s.sp).extractLsb' 28 2).setWidth 32)).setPc (s.readMem .L (s.sp + 4))) := by
  simp only [returnFromException, memRead_of_readable hlow, memRead_of_readable hhigh, bind, Except.bind]
  exact if_pos ⟨hmin, hmax⟩

/-- The return right after an entry: SR and SP as they were, the pc the saved one, the rest as the entry left it. -/
theorem returnFromException_of_entered {e : Exception} {pc0 : Addr} {s t : State} (h : enterException e pc0 s = .ok t) :
    returnFromException t =
      .ok ((State.setA { t with sys := s.sys, ccr := s.ccr } 7 s.sp).setPc (e.savedPc pc0)) := by
  obtain ⟨hlow, hhigh, -, -⟩ := enterException_ok h
  obtain ⟨hsp, hframe, hsaved, -, -, hkeeps⟩ := enterException_frameEntered h
  have hformat : ((t.readMem .L t.sp).extractLsb' 28 4).toNat = 4 + s.sp.toNat % 4 := by
    rw [hsp, hframe, frameWord_format, frameFormat_toNat]
  have hold : t.sp + 8 + ((t.readMem .L t.sp).extractLsb' 28 2).setWidth 32 = s.sp := by
    rw [← BitVec.ofNat_toNat, hsp, hframe, frameWord_rounding_toNat, frameAddr_add_rounding]
  have hsr : (t.readMem .L t.sp).extractLsb' 0 16 = s.srWord := by rw [hsp, hframe, frameWord_sr]
  rw [returnFromException_of_format (hsp ▸ (readable_congr hkeeps.config ..).2 hlow.1)
    (hsp ▸ (readable_congr hkeeps.config ..).2 hhigh.1) (by omega) (by omega), hold, hsr, State.setSr_srWord, hsp, hsaved]

/-- Settles O15: what the return does not restore, the entry did not change. -/
theorem returnUndoesExceptionEntry : Obligations.ReturnUndoesExceptionEntry := by
  intro e pc0 s t h
  obtain ⟨hvbr, hconfig, hdreg, hareg, hbyte⟩ := (enterException_frameEntered h).unchanged
  refine ⟨_, returnFromException_of_entered h, rfl, rfl, rfl, hdreg, fun r => ?_, hvbr, hconfig, hbyte⟩
  rw [State.setPc_areg, State.setA_areg]
  split
  · next hr => rw [hr]; rfl
  · next hr => exact hareg r hr

end Sys2Proof.Machine
end
